-- ==== Sys2Proof/Word.lean ====
section
/-! DEFINITION. The word types of the block: an RTE word, a byte, an RTE address and a command word
(spec/00_scope.md R12, spec/10_state.md R21, spec/30_encoding.md R110). -/

namespace Sys2Proof

/-- A word of the RTE: 16 bits, bit 0 the least significant (R12, R21). -/
abbrev Word := BitVec 16

/-- A byte: 8 bits (R12). -/
abbrev Byte := BitVec 8

/-- An RTE word address, 0x00 to 0xFF; every one exists (R21, R87). -/
abbrev Addr := BitVec 8

/-- A command word of the operation port: 32 bits (R110, R111). -/
abbrev Cmd := BitVec 32

end Sys2Proof
end

