-- ==== Sys2Proof/Syntax.lean ====
section
/-! DEFINITION. The operations of the block, one constructor per row of spec/opcode_table.json
(spec/30_encoding.md R110 to R113), and the peers they name. -/

namespace Sys2Proof

/-- The two peer links: PRI = 0 (primary-side MCU) and SEC = 1 (secondary-side MCU)
(spec/00_scope.md section 5, R11). -/
inductive Peer where
  | pri
  | sec
  deriving DecidableEq, Repr

/-- One operation with its operands (R110, R112). A fan operand is the two-bit index the F format can
carry; whether that fan exists depends on the configuration and is checked in `Instr.wf`. -/
inductive Instr where
  /-- `RESET`, opcode 0x01, format N (R140). -/
  | reset
  /-- `REG_RD addr`, opcode 0x10, format A (R141). -/
  | regRd (addr : Addr)
  /-- `REG_WR addr, data`, opcode 0x11, format AD (R142). -/
  | regWr (addr : Addr) (data : Word)
  /-- `GPIO_TICK`, opcode 0x20, format N (R252). -/
  | gpioTick
  /-- `SEQ_TICK`, opcode 0x21, format N (R261). -/
  | seqTick
  /-- `FAN_TICK`, opcode 0x30, format N (R211). -/
  | fanTick
  /-- `TACH_PULSE i`, opcode 0x31, format F (R230). -/
  | tachPulse (i : Fin 4)
  /-- `FANSTAT_TICK`, opcode 0x32, format N (R231). -/
  | fanstatTick
  /-- `LIVE_TICK`, opcode 0x40, format N (R195). -/
  | liveTick
  /-- `RX_BYTE p, byte`, opcode 0x41, format PB (R156). -/
  | rxByte (p : Peer) (byte : Byte)
  /-- `RX_IDLE p`, opcode 0x42, format P (R162). -/
  | rxIdle (p : Peer)
  /-- `RX_DRAIN p`, opcode 0x43, format P (R181). -/
  | rxDrain (p : Peer)
  /-- `TX_START p`, opcode 0x44, format P (R190). -/
  | txStart (p : Peer)
  /-- `TX_BYTE p`, opcode 0x45, format P (R168). -/
  | txByte (p : Peer)
  deriving DecidableEq, Repr

end Sys2Proof
end

