-- ==== Sys2Proof/Config.lean ====
section
/-! DEFINITION. The configuration record CFG (spec/00_scope.md R9, R10, R11 and section 5): every board
constant is a field, never written by an operation. Also the free value of the model: what a frame-buffer
byte holds when no rule has written it since reset (spec/10_state.md R71, spec/70_reset_and_hazards.md
R322). -/

namespace Sys2Proof

/-- A value for each of the two peers, `X[p]` in the spec. -/
structure PerPeer (α : Type) where
  pri : α
  sec : α
  deriving DecidableEq, Repr

/-- `X[p]`. -/
def PerPeer.get {α : Type} (x : PerPeer α) : Peer → α
  | .pri => x.pri
  | .sec => x.sec

/-- The three debounced signals HALT = 0, SWEN = 1, BULK = 2 (R11). -/
inductive Sig where
  | halt
  | swen
  | bulk
  deriving DecidableEq, Repr

/-- A value for each debounced signal, `X[s]` in the spec. -/
structure PerSig (α : Type) where
  halt : α
  swen : α
  bulk : α
  deriving DecidableEq, Repr

/-- `X[s]`. -/
def PerSig.get {α : Type} (x : PerSig α) : Sig → α
  | .halt => x.halt
  | .swen => x.swen
  | .bulk => x.bulk

/-- `CFG.CHK_KIND`: the check function of the framer (R151, R152). -/
inductive ChkKind where
  | sum8
  | crc16
  deriving DecidableEq, Repr

/-- The five field groups of a frame (spec/30_encoding.md R118, R119). -/
inductive FieldKind where
  | status
  | debug
  | meas
  | cal
  | ver
  deriving DecidableEq, Repr

/-- The width of a field on the wire: 8, 16 or 32 bits (R118). -/
inductive FieldWidth where
  | w8
  | w16
  | w32
  deriving DecidableEq, Repr

/-- The firmware image of a VER entry, BOOT = 0 or APP = 1 (R118). -/
inductive Img where
  | boot
  | app
  deriving DecidableEq, Repr

/-- A layout entry `(kind, width, addr, signed, min, max, img)` (R118). The last four are read only where
R118 says an entry uses them. -/
structure Entry where
  kind : FieldKind
  width : FieldWidth
  addr : Addr
  signed : Bool := false
  min : Int := 0
  max : Int := 0
  img : Img := .boot
  deriving DecidableEq, Repr

/-- A layout: the fields of a frame in wire order (R118). -/
abbrev Layout := List Entry

/-- `CFG.FAN_TSRC`: the temperature that drives the stage table (spec/43_fanctrl.md R212). -/
inductive TempSource where
  | amb
  | hot
  | diff
  deriving DecidableEq, Repr

/-- A temperature stage `(tmin, tmax : signed 16; smin, smax : unsigned 16)` (spec/00_scope.md section
5.2); the two temperatures are words read as two's complement. -/
structure Stage where
  tmin : Word
  tmax : Word
  smin : Word
  smax : Word
  deriving DecidableEq, Repr

/-- The configuration record CFG (R9), the field's name in the spec in each docstring. A field the tables
of section 5 call "unsigned 16" is a `Word`, so its range holds by its type. -/
structure Config where
  /-- `NFAN`, 1..4. -/
  nfan : Nat
  /-- `CHK_KIND`. -/
  chkKind : ChkKind
  /-- `ADDR_OWN`. -/
  addrOwn : Byte
  /-- `ADDR_BCAST`. -/
  addrBcast : Byte
  /-- `ADDR_PEER[p]`. -/
  addrPeer : PerPeer Byte
  /-- `TX_LAYOUT[p]`. -/
  txLayout : PerPeer Layout
  /-- `RX_LAYOUT[p]`. -/
  rxLayout : PerPeer Layout
  /-- `RXB_LAYOUT[p]`. -/
  rxbLayout : PerPeer Layout
  /-- `LIVE_RESET[p]`, 1..65535. -/
  liveReset : PerPeer Word
  /-- `FAN_TSRC`. -/
  fanTsrc : TempSource
  /-- `NSTAGE`, 1..8. -/
  nstage : Nat
  /-- `STG_LO[k]`, k below NSTAGE. -/
  stgLo : List Stage
  /-- `STG_HI[k]`, k below NSTAGE. -/
  stgHi : List Stage
  /-- `FAN_RPM_MAX`, 1..65535. -/
  fanRpmMax : Word
  /-- `LOAD_THR`. -/
  loadThr : Word
  /-- `LOAD_SLOPE`, Q12. -/
  loadSlope : Word
  /-- `FAN_VIN_EN`. -/
  fanVinEn : Bool
  /-- `VIN_SLOPE`, Q12. -/
  vinSlope : Word
  /-- `DUTY_FULL`, 1..65535. -/
  dutyFull : Word
  /-- `DUTY_MAX`, 0..DUTY_FULL. -/
  dutyMax : Word
  /-- `DUTY_FLOOR`, 0..DUTY_MAX. -/
  dutyFloor : Word
  /-- `DUTY_BOOT`, 0..DUTY_FULL. -/
  dutyBoot : Word
  /-- `DUTY_ACLOSS`, 0..DUTY_FULL. -/
  dutyAcloss : Word
  /-- `ERR_BIG`. -/
  errBig : Word
  /-- `ERR_MID`, at most ERR_BIG. -/
  errMid : Word
  /-- `STEP_BIG`. -/
  stepBig : Word
  /-- `STEP_MID`. -/
  stepMid : Word
  /-- `STEP_SMALL`. -/
  stepSmall : Word
  /-- `STEP_DN`. -/
  stepDn : Word
  /-- `TACH_SCALE`. -/
  tachScale : Word
  /-- `WARN_THR`. -/
  warnThr : Word
  /-- `FAIL_THR`, at most WARN_THR. -/
  failThr : Word
  /-- `RECOV_THR`, at least WARN_THR. -/
  recovThr : Word
  /-- `N_WARN`, 1..65535. -/
  nWarn : Word
  /-- `N_FAIL`, 1..65535. -/
  nFail : Word
  /-- `M_OK`, 1..65535. -/
  mOk : Word
  /-- `SEQ_START_DELAY`. -/
  seqStartDelay : Word
  /-- `RETRY_BUDGET`. -/
  retryBudget : Word
  /-- `SEQ_GATE_SWEN`. -/
  seqGateSwen : Bool
  /-- `EN_DLY[s]`, 1..65535. -/
  enDly : PerSig Word
  /-- `DIS_DLY[s]`, 1..65535. -/
  disDly : PerSig Word
  deriving DecidableEq, Repr

/-- `CFG.BUF_MAX`, fixed at 64: the capacity in bytes of every frame buffer (section 5.1, R66). -/
def bufMax : Nat := 64

/-- `CFG.FAN_Q`, fixed at 12: the fraction bits of the two slopes (section 5.2, R14). -/
def fanQ : Nat := 12

/-- FREE VALUE (log entry 4). The byte a frame-buffer cell holds while no rule has written it since the
reset numbered by the first argument; the second argument numbers the cell. The spec leaves these contents
unspecified (R71, R322, spec/93_implementation_defined.md I6), so nothing is known of them. -/
opaque Config.freeBufferByte : Nat → Nat → Byte

end Sys2Proof
end

