-- ==== Sys2Proof/Machine/RegMap.lean ====
section
/-! DEFINITION. The address map of the RTE and the bit positions of its named words (spec/10_state.md
section 4.1 and rules R30 to R63). -/

namespace Sys2Proof.Machine

/-- SYS_IN, system input flags (R30). -/
def sysIn : Addr := 0x00
/-- GPIO_RAW, raw input conditions (R31). -/
def gpioRaw : Addr := 0x01
/-- FLT_RAW, raw fault conditions (R32). -/
def fltRaw : Addr := 0x02
/-- TACH_LVL, raw tach pin levels (R33). -/
def tachLvl : Addr := 0x03
/-- T_AMB, ambient temperature, signed (R34). -/
def tAmb : Addr := 0x04
/-- T_HOT, hotspot temperature, signed (R34). -/
def tHot : Addr := 0x05
/-- LOAD, load measurement (R35). -/
def loadMeas : Addr := 0x06
/-- VIN, line-voltage measurement (R36). -/
def vinMeas : Addr := 0x07
/-- SEQ_STATE, sequencer state (R40). -/
def seqState : Addr := 0x10
/-- SEQ_OUT, enable outputs and latch-clear requests (R41). -/
def seqOut : Addr := 0x11
/-- SEQ_DLY_CNT, start-up delay counter (R42). -/
def seqDlyCnt : Addr := 0x12
/-- SEQ_RETRY_CNT, restart-retry counter (R43). -/
def seqRetryCnt : Addr := 0x13
/-- GPIO_DB, debounced booleans (R44). -/
def gpioDb : Addr := 0x14
/-- FLT_LAT, latched fault bits (R46). -/
def fltLat : Addr := 0x18
/-- FAN_TARGET, computed target speed (R50). -/
def fanTarget : Addr := 0x20
/-- COM_STAT, link status bits (R60). -/
def comStat : Addr := 0x60
/-- LOC_BOOT_MAJ, LOC_BOOT_MIN, LOC_BOOT_TAG: the local bootloader version starts here (R63). -/
def locBootMaj : Addr := 0x68
/-- LOC_APP_MAJ, LOC_APP_MIN, LOC_APP_TAG: the local application version starts here (R63). -/
def locAppMaj : Addr := 0x6B
/-- LOC_REV, low word; the high word is at 0x6F (R63). -/
def locRev : Addr := 0x6E

end Sys2Proof.Machine

namespace Sys2Proof

/-- The bit of GPIO_RAW and GPIO_DB, and the offset of the counter, of a debounced signal (R31, R44,
R45). -/
def Sig.index : Sig → Nat
  | .halt => 0
  | .swen => 1
  | .bulk => 2

/-- The index of a firmware image in COM_STAT (R60). -/
def Img.index : Img → Nat
  | .boot => 0
  | .app => 1

end Sys2Proof

namespace Sys2Proof.Machine

/-- `GPIO_CNT[s]`, at 0x15 + s (R45). -/
def gpioCnt (s : Sig) : Addr := BitVec.ofNat 8 (0x15 + s.index)

/-- A word of the Fan Control Record by its offset (R51 to R57). -/
inductive FanWord where
  /-- PULSE, tach pulse count (R52). -/
  | pulse
  /-- SPEED, derived speed (R53). -/
  | speed
  /-- DUTY, current PWM duty (R54). -/
  | duty
  /-- OVR, commanded override duty (R55). -/
  | ovr
  /-- STAT, 4-bit status (R56). -/
  | stat
  /-- WARN_CNT (R57). -/
  | warnCnt
  /-- FAIL_CNT (R57). -/
  | failCnt
  /-- OK_CNT (R57). -/
  | okCnt
  deriving DecidableEq, Repr

/-- The offset of a word in its Fan Control Record (R51 to R57). -/
def FanWord.offset : FanWord → Nat
  | .pulse => 0
  | .speed => 1
  | .duty => 2
  | .ovr => 3
  | .stat => 4
  | .warnCnt => 5
  | .failCnt => 6
  | .okCnt => 7

/-- `FAN[i].X`, at 0x30 + 8*i + offset (R51). -/
def fanAddr (i : Nat) (x : FanWord) : Addr := BitVec.ofNat 8 (0x30 + 8 * i + x.offset)

/-- `LIVE_CNT[p]`, at 0x61 + p (R61). -/
def liveCnt : Peer → Addr
  | .pri => 0x61
  | .sec => 0x62

/-- `FRM_STAT[p]`, at 0x63 + p (R62). -/
def frmStat : Peer → Addr
  | .pri => 0x63
  | .sec => 0x64

/-! Bits of SYS_IN (R30). -/

/-- SYS_IN.VIN_OK. -/
def bVinOk : Nat := 0
/-- SYS_IN.INPUT_OK. -/
def bInputOk : Nat := 1
/-- SYS_IN.VIN_LOSS. -/
def bVinLoss : Nat := 2
/-- SYS_IN.AC_LOSS. -/
def bAcLoss : Nat := 3
/-- SYS_IN.LINE_HIGH. -/
def bLineHigh : Nat := 4
/-- SYS_IN.DBG_UNLOCKED. -/
def bDbgUnlocked : Nat := 5
/-- SYS_IN.BOOT_MODE. -/
def bBootMode : Nat := 6
/-- SYS_IN.SYNC_START. -/
def bSyncStart : Nat := 7
/-- SYS_IN.FAULT_CLR_REQ. -/
def bFaultClrReq : Nat := 8

/-! Bits of GPIO_DB (R44). -/

/-- GPIO_DB.HALT_DB. -/
def bHaltDb : Nat := 0
/-- GPIO_DB.SWEN_DB. -/
def bSwenDb : Nat := 1
/-- GPIO_DB.BULKOK_DB. -/
def bBulkOkDb : Nat := 2

/-! Bits of FLT_RAW and FLT_LAT (R32, R46). -/

/-- OVP, in FLT_RAW and FLT_LAT. -/
def bOvp : Nat := 0
/-- UVP, in FLT_RAW and FLT_LAT. -/
def bUvp : Nat := 1
/-- OCP, in FLT_RAW and FLT_LAT. -/
def bOcp : Nat := 2
/-- OPP, in FLT_RAW and FLT_LAT. -/
def bOpp : Nat := 3

/-! Bits of SEQ_OUT (R41). -/

/-- SEQ_OUT.PWM_EN. -/
def bPwmEn : Nat := 0
/-- SEQ_OUT.ACS_EN. -/
def bAcsEn : Nat := 1
/-- SEQ_OUT.ORING_EN. -/
def bOringEn : Nat := 2
/-- SEQ_OUT.STAGE_EN. -/
def bStageEn : Nat := 3
/-- SEQ_OUT.CLR_UVP. -/
def bClrUvp : Nat := 5
/-- SEQ_OUT.CLR_OCP. -/
def bClrOcp : Nat := 6

/-! Bits of FAN[i].STAT (R56). -/

/-- FAN[i].STAT.WARN. -/
def bWarn : Nat := 0
/-- FAN[i].STAT.FAIL. -/
def bFail : Nat := 1
/-- FAN[i].STAT.OVR_ACT. -/
def bOvrAct : Nat := 2
/-- FAN[i].STAT.IO. -/
def bIo : Nat := 3

/-! Bits of COM_STAT (R60). -/

/-- COM_STAT.UART_FAIL[p], bit 2p. -/
def bUartFail : Peer → Nat
  | .pri => 0
  | .sec => 2
/-- COM_STAT.NO_DATA[p], bit 2p+1. -/
def bNoData : Peer → Nat
  | .pri => 1
  | .sec => 3
/-- COM_STAT.COM_FAULT. -/
def bComFault : Nat := 4
/-- COM_STAT.VERCHG[p][img], bit 8+2p+img. -/
def bVerChg (p : Peer) (g : Img) : Nat :=
  match p with
  | .pri => 8 + g.index
  | .sec => 10 + g.index

/-! Bits of FRM_STAT[p] (R62). -/

/-- FRM_STAT[p].RX_PEND. -/
def bRxPend : Nat := 0
/-- FRM_STAT[p].TX_BUSY. -/
def bTxBusy : Nat := 1
/-- FRM_STAT[p].CHK_ERR. -/
def bChkErr : Nat := 8
/-- FRM_STAT[p].ADDR_ERR. -/
def bAddrErr : Nat := 9
/-- FRM_STAT[p].RX_OVR. -/
def bRxOvr : Nat := 10
/-- FRM_STAT[p].TX_REFUSED. -/
def bTxRefused : Nat := 11
/-- FRM_STAT[p].RX_ABORT. -/
def bRxAbort : Nat := 12

/-! Values of SEQ_STATE (R40). -/

/-- SEQ_STATE = INIT. -/
def stInit : Word := 0
/-- SEQ_STATE = IDLE. -/
def stIdle : Word := 1
/-- SEQ_STATE = ON. -/
def stOn : Word := 2
/-- SEQ_STATE = OFF. -/
def stOff : Word := 3

end Sys2Proof.Machine
end

