-- ==== Sys2Proof/Machine/Check.lean ====
section
/-! DEFINITION. Frame sizes and the two check functions (spec/30_encoding.md R115, R118, R120;
spec/41_framer.md R151, R152, R153). -/

namespace Sys2Proof

/-- `width/8`: the bytes a field takes on the wire (R120). -/
def FieldWidth.bytes : FieldWidth → Nat
  | .w8 => 1
  | .w16 => 2
  | .w32 => 4

/-- The bytes of an entry's field. -/
def Entry.bytes (e : Entry) : Nat := e.width.bytes

/-- `PAY(L)`: the sum of `width/8` over the entries of a layout (R153). -/
def Layout.pay : Layout → Nat
  | [] => 0
  | e :: rest => e.bytes + Layout.pay rest

/-- `CHKLEN`: one byte for SUM8, two for CRC16 (R151, R152). -/
def ChkKind.len : ChkKind → Nat
  | .sum8 => 1
  | .crc16 => 2

/-- `FLEN(L) = 1 + PAY(L) + CHKLEN` (R153). -/
def Config.flen (cfg : Config) (l : Layout) : Nat := 1 + Layout.pay l + cfg.chkKind.len

/-- The sum of the bytes, as an unbounded integer. -/
def byteSum : List Byte → Nat
  | [] => 0
  | b :: rest => b.toNat + byteSum rest

/-- `SUM8(B) = (256 - (sum of B mod 256)) mod 256` (R151). -/
def sum8 (bs : List Byte) : Byte := BitVec.ofNat 8 ((256 - byteSum bs % 256) % 256)

/-- One of the eight shift steps of CRC16 (R152). -/
def crcShift (c : Word) : Word :=
  if c.getLsbD 0 then (c >>> 1) ^^^ 0xA001#16 else c >>> 1

/-- The eight shift steps that follow the exclusive-or of one byte (R152). -/
def crcByte (c : Word) (b : Byte) : Word :=
  crcShift (crcShift (crcShift (crcShift (crcShift (crcShift (crcShift (crcShift
    (c ^^^ b.setWidth 16))))))))

/-- The loop of CRC16 over the bytes, from the running value `c` (R152). -/
def crcFrom (c : Word) : List Byte → Word
  | [] => c
  | b :: rest => crcFrom (crcByte c b) rest

/-- `CRC16(B)`: CRC-16/MODBUS, initial value 0xFFFF (R152). -/
def crc16 (bs : List Byte) : Word := crcFrom 0xFFFF#16 bs

/-- `Check(B)`: the check bytes in wire order, the low byte of the CRC first (R151, R152). -/
def check : ChkKind → List Byte → List Byte
  | .sum8, bs => [sum8 bs]
  | .crc16, bs => [(crc16 bs).extractLsb' 0 8, (crc16 bs).extractLsb' 8 8]

end Sys2Proof
end

