-- ==== Sys2Proof/WellFormed.lean ====
section
/-! DEFINITION. Well-formedness: of a configuration (spec/00_scope.md R10, checks WF1 to WF10), of a
layout (spec/30_encoding.md R121, checks L1 to L7) and of an operation under a configuration (R114, the
fan operand). All are Bool, so that the machine itself can refuse what fails them. -/

namespace Sys2Proof

/-- The place of a field group in the order of R119: STATUS, DEBUG, MEAS, CAL, VER. -/
def FieldKind.rank : FieldKind → Nat
  | .status => 0
  | .debug => 1
  | .meas => 2
  | .cal => 3
  | .ver => 4

/-- L1: the kinds stand in the group order of R119. -/
def Layout.groupOrder : Layout → Bool
  | [] => true
  | [_] => true
  | e :: f :: rest => decide (e.kind.rank ≤ f.kind.rank) && Layout.groupOrder (f :: rest)

/-- L2 for one entry: 16 bits for STATUS, DEBUG, MEAS and CAL; 8 or 32 bits for VER (R120). That 8-bit
VER entries come in threes is not part of L2, which speaks of widths (log entry 10). -/
def Entry.widthOk (e : Entry) : Bool :=
  match e.kind with
  | .ver => e.width == .w8 || e.width == .w32
  | _ => e.width == .w16

/-- L4 for one entry: a 32-bit entry has an even address of at most 0xFE. -/
def Entry.addrOk (e : Entry) : Bool :=
  match e.width with
  | .w32 => decide (e.addr.toNat % 2 = 0) && decide (e.addr.toNat ≤ 0xFE)
  | _ => true

/-- L5 for one entry: the clamp range of a CAL entry is nonempty and lies in the range of its sign. -/
def Entry.rangeOk (e : Entry) : Bool :=
  match e.kind with
  | .cal =>
    decide (e.min ≤ e.max)
      && (if e.signed then decide (-32768 ≤ e.min) && decide (e.max ≤ 32767)
          else decide (0 ≤ e.min) && decide (e.max ≤ 65535))
  | _ => true

/-- L6 for one entry: only STATUS and DEBUG stand in a broadcast layout. -/
def Entry.broadcastOk (e : Entry) : Bool :=
  match e.kind with
  | .status => true
  | .debug => true
  | _ => false

/-- L1 to L4, common to the layouts of both directions (R121). -/
def Layout.wf (chk : ChkKind) (l : Layout) : Bool :=
  Layout.groupOrder l && l.all Entry.widthOk && decide (1 + Layout.pay l + chk.len ≤ bufMax)
    && l.all Entry.addrOk

/-- A layout of received frames: L1 to L5. -/
def Layout.rxWf (chk : ChkKind) (l : Layout) : Bool := Layout.wf chk l && l.all Entry.rangeOk

/-- A broadcast layout: L1 to L6. -/
def Layout.rxbWf (chk : ChkKind) (l : Layout) : Bool := Layout.rxWf chk l && l.all Entry.broadcastOk

/-- WF3 for one stage: `tmin < tmax` and `smin <= smax`, temperatures as signed values. -/
def Stage.wf (st : Stage) : Bool :=
  decide (st.tmin.toInt < st.tmax.toInt) && decide (st.smin.toNat ≤ st.smax.toNat)

/-- WF4 and WF5 for two neighbouring stages: they ascend without overlap, and the speed steps up by at
most one where one ends and the next begins. -/
def Stage.follows (a b : Stage) : Bool :=
  decide (a.tmax.toInt ≤ b.tmin.toInt) && decide (a.smax.toNat ≤ b.smin.toNat)
    && decide (b.smin.toNat ≤ a.smax.toNat + 1)

/-- WF3 to WF5 along a stage table. -/
def stagesWf : List Stage → Bool
  | [] => true
  | [a] => a.wf
  | a :: b :: rest => a.wf && Stage.follows a b && stagesWf (b :: rest)

/-- A stage table of `NSTAGE` stages that meets WF3 to WF5. -/
def tableWf (n : Nat) (tbl : List Stage) : Bool := decide (tbl.length = n) && stagesWf tbl

/-- Every word of a per-peer field is at least 1. -/
def PerPeer.positive (x : PerPeer Word) : Bool := x.pri != 0 && x.sec != 0

/-- Every word of a per-signal field is at least 1. -/
def PerSig.positive (x : PerSig Word) : Bool := x.halt != 0 && x.swen != 0 && x.bulk != 0

/-- The ranges of section 5 that a field's type does not already give, and WF1. -/
def Config.rangesOk (c : Config) : Bool :=
  decide (1 ≤ c.nfan) && decide (c.nfan ≤ 4) && decide (1 ≤ c.nstage) && decide (c.nstage ≤ 8)
    && c.fanRpmMax != 0 && c.dutyFull != 0 && c.addrOwn != c.addrBcast

/-- WF2: every layout is well-formed. -/
def Config.layoutsOk (c : Config) : Bool :=
  Layout.wf c.chkKind c.txLayout.pri && Layout.wf c.chkKind c.txLayout.sec
    && Layout.rxWf c.chkKind c.rxLayout.pri && Layout.rxWf c.chkKind c.rxLayout.sec
    && Layout.rxbWf c.chkKind c.rxbLayout.pri && Layout.rxbWf c.chkKind c.rxbLayout.sec

/-- WF3 to WF6, for both line tables. -/
def Config.tablesOk (c : Config) : Bool := tableWf c.nstage c.stgLo && tableWf c.nstage c.stgHi

/-- WF7 to WF9: the order of the thresholds and of the duties. -/
def Config.ordersOk (c : Config) : Bool :=
  decide (c.errMid.toNat ≤ c.errBig.toNat)
    && decide (c.failThr.toNat ≤ c.warnThr.toNat) && decide (c.warnThr.toNat ≤ c.recovThr.toNat)
    && decide (c.dutyFloor.toNat ≤ c.dutyMax.toNat) && decide (c.dutyMax.toNat ≤ c.dutyFull.toNat)
    && decide (c.dutyBoot.toNat ≤ c.dutyFull.toNat) && decide (c.dutyAcloss.toNat ≤ c.dutyFull.toNat)

/-- WF10: the counts and delays that must be at least 1. -/
def Config.countsOk (c : Config) : Bool :=
  c.liveReset.positive && c.enDly.positive && c.disDly.positive
    && c.nWarn != 0 && c.nFail != 0 && c.mOk != 0

/-- A configuration is well-formed (R10). "The rules of this spec are stated for well-formed
configurations only; a model refuses any other." -/
def Config.wf (c : Config) : Bool :=
  c.rangesOk && c.layoutsOk && c.tablesOk && c.ordersOk && c.countsOk

/-- An operation is legal under a configuration: a fan operand names a fan below NFAN (R112, R114). The
other conditions of R114 are on the bits of the command word and are met by every decoded operation. -/
def Instr.wf (cfg : Config) : Instr → Bool
  | .tachPulse i => decide (i.val < cfg.nfan)
  | .reset => true
  | .regRd _ => true
  | .regWr _ _ => true
  | .gpioTick => true
  | .seqTick => true
  | .fanTick => true
  | .fanstatTick => true
  | .liveTick => true
  | .rxByte _ _ => true
  | .rxIdle _ => true
  | .rxDrain _ => true
  | .txStart _ => true
  | .txByte _ => true

end Sys2Proof
end

