-- ==== Sys2Proof/Decode.lean ====
section
/-! DEFINITION. The command word: decoding, encoding and the opcode map (spec/30_encoding.md R111 to
R114). Decoding is total and rejects by name; every field a format does not use is checked. -/

namespace Sys2Proof

/-- Why a command word is illegal for every configuration (R114). -/
inductive DecodeError where
  /-- `op` is not in the opcode map of R113. -/
  | unassignedOp
  /-- `a` holds a bit that the format requires to be zero. -/
  | indexNotZero
  /-- `d` holds a bit that the format requires to be zero. -/
  | dataNotZero
  deriving DecidableEq, Repr

/-- `op` = bits 31:24 (R111). -/
def opField (w : Cmd) : BitVec 8 := w.extractLsb' 24 8

/-- `a` = bits 23:16 (R111). -/
def aField (w : Cmd) : BitVec 8 := w.extractLsb' 16 8

/-- `d` = bits 15:0 (R111). -/
def dField (w : Cmd) : BitVec 16 := w.extractLsb' 0 16

/-- A command word from its three fields (R111). -/
def cmdWord (op a : BitVec 8) (d : BitVec 16) : Cmd := op ++ a ++ d

/-- The value of `a` that names a peer: PRI = 0, SEC = 1 (R112). -/
def Peer.index : Peer → Nat
  | .pri => 0
  | .sec => 1

/-- The peer that `a` names in formats P and PB; `a[7:1]` must be 0 (R112). -/
def peerOf (a : BitVec 8) : Except DecodeError Peer :=
  match a.toNat with
  | 0 => .ok .pri
  | 1 => .ok .sec
  | _ => .error .indexNotZero

/-- Format N: `a` = 0 and `d` = 0. -/
def formatN (w : Cmd) (i : Instr) : Except DecodeError Instr :=
  if aField w ≠ 0 then .error .indexNotZero
  else if dField w ≠ 0 then .error .dataNotZero
  else .ok i

/-- Format A: `a` = RTE address, `d` = 0. -/
def formatA (w : Cmd) (mk : Addr → Instr) : Except DecodeError Instr :=
  if dField w ≠ 0 then .error .dataNotZero else .ok (mk (aField w))

/-- Format AD: `a` = RTE address, `d` = the 16-bit data. -/
def formatAD (w : Cmd) (mk : Addr → Word → Instr) : Except DecodeError Instr :=
  .ok (mk (aField w) (dField w))

/-- Format F: `a` = fan, `a[7:2]` = 0, `d` = 0. That the fan is below NFAN is checked by `Instr.wf`. -/
def formatF (w : Cmd) (mk : Fin 4 → Instr) : Except DecodeError Instr :=
  if h : (aField w).toNat < 4 then
    if dField w ≠ 0 then .error .dataNotZero else .ok (mk ⟨(aField w).toNat, h⟩)
  else .error .indexNotZero

/-- Format P: `a` = peer, `d` = 0. -/
def formatP (w : Cmd) (mk : Peer → Instr) : Except DecodeError Instr :=
  match peerOf (aField w) with
  | .error e => .error e
  | .ok p => if dField w ≠ 0 then .error .dataNotZero else .ok (mk p)

/-- Format PB: `a` = peer, `d[7:0]` = the byte, `d[15:8]` = 0. -/
def formatPB (w : Cmd) (mk : Peer → Byte → Instr) : Except DecodeError Instr :=
  match peerOf (aField w) with
  | .error e => .error e
  | .ok p =>
    if (dField w).extractLsb' 8 8 ≠ 0 then .error .dataNotZero
    else .ok (mk p ((dField w).extractLsb' 0 8))

/-- The operation a command word names (R113), or why it is illegal (R114). -/
def decode (w : Cmd) : Except DecodeError Instr :=
  match (opField w).toNat with
  | 0x01 => formatN w .reset
  | 0x10 => formatA w .regRd
  | 0x11 => formatAD w .regWr
  | 0x20 => formatN w .gpioTick
  | 0x21 => formatN w .seqTick
  | 0x30 => formatN w .fanTick
  | 0x31 => formatF w .tachPulse
  | 0x32 => formatN w .fanstatTick
  | 0x40 => formatN w .liveTick
  | 0x41 => formatPB w .rxByte
  | 0x42 => formatP w .rxIdle
  | 0x43 => formatP w .rxDrain
  | 0x44 => formatP w .txStart
  | 0x45 => formatP w .txByte
  | _ => .error .unassignedOp

/-- `a` of a peer operand. -/
def Peer.field (p : Peer) : BitVec 8 := BitVec.ofNat 8 p.index

/-- The command word of an operation, from the opcode map and the formats (R112, R113). -/
def encode : Instr → Cmd
  | .reset => cmdWord 0x01 0 0
  | .regRd addr => cmdWord 0x10 addr 0
  | .regWr addr data => cmdWord 0x11 addr data
  | .gpioTick => cmdWord 0x20 0 0
  | .seqTick => cmdWord 0x21 0 0
  | .fanTick => cmdWord 0x30 0 0
  | .tachPulse i => cmdWord 0x31 (BitVec.ofNat 8 i.val) 0
  | .fanstatTick => cmdWord 0x32 0 0
  | .liveTick => cmdWord 0x40 0 0
  | .rxByte p byte => cmdWord 0x41 p.field (byte.setWidth 16)
  | .rxIdle p => cmdWord 0x42 p.field 0
  | .rxDrain p => cmdWord 0x43 p.field 0
  | .txStart p => cmdWord 0x44 p.field 0
  | .txByte p => cmdWord 0x45 p.field 0

/-- A row of the opcode map (R113): a word decodes to the row with `(w & mask) == match`. -/
structure OpRow where
  mnemonic : String
  pattern : Cmd
  mask : Cmd
  deriving DecidableEq, Repr

/-- The opcode map of R113, its `match` and `mask` columns. -/
def opcodeMap : List OpRow :=
  [⟨"RESET", 0x01000000, 0xFFFFFFFF⟩, ⟨"REG_RD", 0x10000000, 0xFF00FFFF⟩,
   ⟨"REG_WR", 0x11000000, 0xFF000000⟩, ⟨"GPIO_TICK", 0x20000000, 0xFFFFFFFF⟩,
   ⟨"SEQ_TICK", 0x21000000, 0xFFFFFFFF⟩, ⟨"FAN_TICK", 0x30000000, 0xFFFFFFFF⟩,
   ⟨"TACH_PULSE", 0x31000000, 0xFFFCFFFF⟩, ⟨"FANSTAT_TICK", 0x32000000, 0xFFFFFFFF⟩] ++
  [⟨"LIVE_TICK", 0x40000000, 0xFFFFFFFF⟩, ⟨"RX_BYTE", 0x41000000, 0xFFFEFF00⟩,
   ⟨"RX_IDLE", 0x42000000, 0xFFFEFFFF⟩, ⟨"RX_DRAIN", 0x43000000, 0xFFFEFFFF⟩,
   ⟨"TX_START", 0x44000000, 0xFFFEFFFF⟩, ⟨"TX_BYTE", 0x45000000, 0xFFFEFFFF⟩]

/-- A word matches a row of the opcode map. -/
def OpRow.covers (r : OpRow) (w : Cmd) : Bool := w &&& r.mask == r.pattern

/-- The mnemonic of an operation, as the opcode map spells it (R113). -/
def Instr.mnemonic : Instr → String
  | .reset => "RESET"
  | .regRd _ => "REG_RD"
  | .regWr _ _ => "REG_WR"
  | .gpioTick => "GPIO_TICK"
  | .seqTick => "SEQ_TICK"
  | .fanTick => "FAN_TICK"
  | .tachPulse _ => "TACH_PULSE"
  | .fanstatTick => "FANSTAT_TICK"
  | .liveTick => "LIVE_TICK"
  | .rxByte _ _ => "RX_BYTE"
  | .rxIdle _ => "RX_IDLE"
  | .rxDrain _ => "RX_DRAIN"
  | .txStart _ => "TX_START"
  | .txByte _ => "TX_BYTE"

/-- The operation read from an instruction whose low `nbits` bits are `w`: every operation is one 32-bit
command word, and the bits above `nbits` are 0. -/
def decodeTableWord (nbits w : Nat) : Option Instr :=
  match decode (BitVec.ofNat 32 (w % 2 ^ nbits)) with
  | .ok i => some i
  | .error _ => none

end Sys2Proof
end

