-- ==== Sys2Proof/Machine/RefConfig.lean ====
section
/-! DEFINITION. REFCFG, the reference configuration (spec/00_scope.md R9 and sections 5.1 to 5.4;
spec/30_encoding.md section 5). It is one value of CFG, the spec's own choice (D50); the machine is a
function of whatever configuration the state carries (log entry 1). -/

namespace Sys2Proof

/-- `RX_LAYOUT[PRI]`, frame length 23 with CRC16. -/
def refRxPri : Layout :=
  [⟨.status, .w16, 0x80, false, 0, 0, .boot⟩, ⟨.debug, .w16, 0x81, false, 0, 0, .boot⟩,
   ⟨.meas, .w16, 0x07, false, 0, 0, .boot⟩, ⟨.meas, .w16, 0x82, false, 0, 0, .boot⟩,
   ⟨.meas, .w16, 0x83, false, 0, 0, .boot⟩, ⟨.cal, .w16, 0x88, false, 0x0CCD, 0x1333, .boot⟩,
   ⟨.cal, .w16, 0x89, true, -100, 100, .boot⟩] ++
  [⟨.ver, .w8, 0x8A, false, 0, 0, .boot⟩, ⟨.ver, .w8, 0x8B, false, 0, 0, .boot⟩,
   ⟨.ver, .w8, 0x8C, false, 0, 0, .boot⟩, ⟨.ver, .w8, 0x8D, false, 0, 0, .app⟩,
   ⟨.ver, .w8, 0x8E, false, 0, 0, .app⟩, ⟨.ver, .w8, 0x8F, false, 0, 0, .app⟩]

/-- `RXB_LAYOUT[PRI]`, frame length 7 with CRC16. -/
def refRxbPri : Layout :=
  [⟨.status, .w16, 0x80, false, 0, 0, .boot⟩, ⟨.debug, .w16, 0x90, false, 0, 0, .boot⟩]

/-- `TX_LAYOUT[PRI]`, frame length 23 with CRC16. -/
def refTxPri : Layout :=
  [⟨.status, .w16, 0x60, false, 0, 0, .boot⟩, ⟨.status, .w16, 0x11, false, 0, 0, .boot⟩,
   ⟨.debug, .w16, 0x20, false, 0, 0, .boot⟩, ⟨.meas, .w16, 0x31, false, 0, 0, .boot⟩,
   ⟨.meas, .w16, 0x39, false, 0, 0, .boot⟩] ++
  [⟨.ver, .w8, 0x68, false, 0, 0, .boot⟩, ⟨.ver, .w8, 0x69, false, 0, 0, .boot⟩,
   ⟨.ver, .w8, 0x6A, false, 0, 0, .boot⟩, ⟨.ver, .w8, 0x6B, false, 0, 0, .app⟩,
   ⟨.ver, .w8, 0x6C, false, 0, 0, .app⟩, ⟨.ver, .w8, 0x6D, false, 0, 0, .app⟩,
   ⟨.ver, .w32, 0x6E, false, 0, 0, .app⟩]

/-- `RX_LAYOUT[SEC]`, frame length 26 with CRC16. -/
def refRxSec : Layout :=
  [⟨.status, .w16, 0xC0, false, 0, 0, .boot⟩, ⟨.debug, .w16, 0xC1, false, 0, 0, .boot⟩,
   ⟨.meas, .w16, 0x04, false, 0, 0, .boot⟩, ⟨.meas, .w16, 0x05, false, 0, 0, .boot⟩,
   ⟨.meas, .w16, 0x06, false, 0, 0, .boot⟩, ⟨.meas, .w16, 0xC2, false, 0, 0, .boot⟩] ++
  [⟨.cal, .w16, 0xC8, false, 0x0CCD, 0x1333, .boot⟩, ⟨.cal, .w16, 0xC9, true, -100, 100, .boot⟩,
   ⟨.ver, .w8, 0xCD, false, 0, 0, .app⟩, ⟨.ver, .w8, 0xCE, false, 0, 0, .app⟩,
   ⟨.ver, .w8, 0xCF, false, 0, 0, .app⟩, ⟨.ver, .w32, 0xD0, false, 0, 0, .app⟩]

/-- `RXB_LAYOUT[SEC]`, frame length 7 with CRC16. -/
def refRxbSec : Layout :=
  [⟨.status, .w16, 0xC0, false, 0, 0, .boot⟩, ⟨.debug, .w16, 0xD8, false, 0, 0, .boot⟩]

/-- `TX_LAYOUT[SEC]`, frame length 12 with CRC16. -/
def refTxSec : Layout :=
  [⟨.status, .w16, 0x60, false, 0, 0, .boot⟩, ⟨.debug, .w16, 0x20, false, 0, 0, .boot⟩,
   ⟨.meas, .w16, 0x32, false, 0, 0, .boot⟩, ⟨.ver, .w8, 0x6B, false, 0, 0, .app⟩,
   ⟨.ver, .w8, 0x6C, false, 0, 0, .app⟩, ⟨.ver, .w8, 0x6D, false, 0, 0, .app⟩]

/-- `STG_LO` of REFCFG (section 5.4). -/
def refStgLo : List Stage :=
  [⟨0, 24, 2000, 4000⟩, ⟨24, 35, 4000, 7000⟩, ⟨35, 45, 7000, 11000⟩, ⟨45, 55, 11000, 16000⟩]

/-- `STG_HI` of REFCFG (section 5.4). -/
def refStgHi : List Stage :=
  [⟨0, 24, 2000, 3000⟩, ⟨24, 35, 3000, 6000⟩, ⟨35, 45, 6000, 10000⟩, ⟨45, 55, 10000, 15000⟩]

/-- REFCFG (section 5, column REFCFG). -/
def refConfig : Config where
  nfan := 2
  chkKind := .crc16
  addrOwn := 0x01
  addrBcast := 0x00
  addrPeer := ⟨0x02, 0x03⟩
  txLayout := ⟨refTxPri, refTxSec⟩
  rxLayout := ⟨refRxPri, refRxSec⟩
  rxbLayout := ⟨refRxbPri, refRxbSec⟩
  liveReset := ⟨1000, 1000⟩
  fanTsrc := .amb
  nstage := 4
  stgLo := refStgLo
  stgHi := refStgHi
  fanRpmMax := 18000
  loadThr := 500
  loadSlope := 0x2000
  fanVinEn := false
  vinSlope := 0
  dutyFull := 100
  dutyMax := 100
  dutyFloor := 20
  dutyBoot := 30
  dutyAcloss := 20
  errBig := 2000
  errMid := 500
  stepBig := 5
  stepMid := 2
  stepSmall := 1
  stepDn := 1
  tachScale := 60
  warnThr := 1500
  failThr := 800
  recovThr := 1800
  nWarn := 4
  nFail := 6
  mOk := 2
  seqStartDelay := 3
  retryBudget := 0
  seqGateSwen := false
  enDly := ⟨2, 3, 3⟩
  disDly := ⟨4, 2, 1⟩

end Sys2Proof
end

