-- ==== Sys2Proof/Machine/Store.lean ====
section
/-! DEFINITION. The two kinds of store, each a list of (address, value) pairs in one canonical form
(strictly rising addresses): the RTE, 256 words of 16 bits (spec/10_state.md R21), whose unlisted words
read as the reset value 0; and a frame buffer, 64 bytes (R66), whose unlisted bytes have not been written
since reset and read as a free value (R71, R322; log entry 4). -/

namespace Sys2Proof.Machine

/-- The value listed at a key. -/
def cellGet? {α : Type} : List (Nat × α) → Nat → Option α
  | [], _ => none
  | c :: rest, k => if c.1 = k then some c.2 else cellGet? rest k

/-- The list without the cells at a key. -/
def cellErase {α : Type} (m : List (Nat × α)) (k : Nat) : List (Nat × α) :=
  m.filter (fun c => c.1 != k)

/-- A cell put before the first cell of a higher key. -/
def cellInsert {α : Type} (k : Nat) (v : α) : List (Nat × α) → List (Nat × α)
  | [] => [(k, v)]
  | c :: rest => if k < c.1 then (k, v) :: c :: rest else c :: cellInsert k v rest

/-- The list with `v` at key `k` and every other key as it was. -/
def cellPut {α : Type} (m : List (Nat × α)) (k : Nat) (v : α) : List (Nat × α) :=
  cellInsert k v (cellErase m k)

/-- The keys rise strictly. -/
abbrev CellsRising {α : Type} (m : List (Nat × α)) : Prop := m.Pairwise (fun c d => c.1 < d.1)

/-- The RTE as its listed words. -/
abbrev Rte := List (Nat × Word)

/-- What an RTE word reads as when it is not listed: 0, its reset contents (R75). -/
def rteDefault : Word := 0

/-- `RTE[a]` (R15). -/
def rteRead (m : Rte) (a : Addr) : Word := (cellGet? m a.toNat).getD rteDefault

/-- `RTE[a] <- v` (R15). Writing the value an unlisted word reads as removes the entry. -/
def rteWrite (m : Rte) (a : Addr) (v : Word) : Rte :=
  if v = rteDefault then cellErase m a.toNat else cellPut m a.toNat v

/-- The canonical form of the RTE: rising addresses below 256, no entry equal to the default. -/
def rteWf (m : Rte) : Bool :=
  decide (CellsRising m) && m.all (fun c => decide (c.1 < 256) && c.2 != rteDefault)

/-- A frame buffer as its bytes written since reset. -/
abbrev Buf := List Host.Cell

/-- `BUF[k] <- b` (R15). A buffer has no byte at or above BUF_MAX and no rule writes one (R87); such a
write is dropped (log entry 7). -/
def bufWrite (m : Buf) (k : Nat) (b : Byte) : Buf := if k < bufMax then cellPut m k b else m

/-- Consecutive bytes written from index `k` on. -/
def bufWriteBytes (m : Buf) (k : Nat) : List Byte → Buf
  | [] => m
  | b :: rest => bufWriteBytes (bufWrite m k b) (k + 1) rest

/-- The canonical form of a frame buffer: rising indices below BUF_MAX. -/
def bufWf (m : Buf) : Bool := decide (CellsRising m) && m.all (fun c => decide (c.1 < bufMax))

/-- The RTE after reset: every word 0 except the two liveness counters (R75, R140). -/
def rteReset (cfg : Config) : Rte :=
  rteWrite (rteWrite [] 0x61 cfg.liveReset.pri) 0x62 cfg.liveReset.sec

end Sys2Proof.Machine
end

