-- ==== Sys2Proof/Machine/State.lean ====
section
/-! DEFINITION. The state of the block (spec/10_state.md R20: the RTE store and the hidden framer state of
each link), with what the fixed form of `exec` and `step` needs beside it: the configuration, the operation
port, the result of the last operation and the number of resets (log entries 1 to 4). -/

namespace Sys2Proof.Machine

/-- The hidden framer state of one peer link (R70, R71, R72). -/
structure Link where
  /-- RX_CNT[p]: bytes of the frame being assembled, 0 while waiting for an address byte (R70). -/
  rxCnt : Nat
  /-- RX_EXP[p]: total length expected for that frame (R70). -/
  rxExp : Nat
  /-- RX_BC[p]: the frame being assembled is a broadcast frame (R70). -/
  rxBc : Bool
  /-- RX_SKIP[p]: bytes are discarded until the next RX_IDLE (R70). -/
  rxSkip : Bool
  /-- RXA[p]: the frame being assembled (R71). -/
  rxa : Buf
  /-- RXC[p]: the completed frame waiting to be drained (R71). -/
  rxc : Buf
  /-- RXC_BC[p]: its broadcast flag (R71). -/
  rxcBc : Bool
  /-- TXBUF[p]: the frame being sent (R71). -/
  txbuf : Buf
  /-- TX_LEN[p]: the length of the frame in TXBUF[p] (R72). -/
  txLen : Nat
  /-- TX_IDX[p]: the index of the next byte to send (R72). -/
  txIdx : Nat
  deriving DecidableEq, Repr

/-- The result an operation returns at the operation port (R110): REG_RD a word, TX_BYTE a byte or
nothing, every other operation nothing. -/
inductive Result where
  | none
  | word (w : Word)
  | byte (b : Byte)
  deriving DecidableEq, Repr

/-- The state of the machine. -/
structure State where
  /-- CFG, fixed before reset and written by no operation (R9); log entry 1. -/
  cfg : Config
  /-- The RTE, 256 words of 16 bits (R21). -/
  rte : Rte
  /-- Hidden framer state of link PRI. -/
  pri : Link
  /-- Hidden framer state of link SEC. -/
  sec : Link
  /-- The operation port: the command words the environment is about to present, the next first (R110);
  log entry 2. -/
  port : List Cmd
  /-- The result of the last operation (R110, R64); log entry 3. -/
  result : Result
  /-- How many RESET operations have run since power-on: the index of the free buffer contents; log
  entry 4. -/
  epoch : Nat
  deriving DecidableEq, Repr

/-- The faults of the block: none. "The block raises no exception, trap or fault of any kind" (R290), and
every operation is total (R8), so the type has no constructor: no run can end in a fault. -/
inductive Fault : Type
  deriving DecidableEq, Repr

/-- What the machine refuses to take a step for. -/
inductive Refusal where
  /-- Raised by an arm of `exec` for an operation without a meaning. No arm does. Safe. -/
  | notModelled (mnemonic : String)
  /-- Raised by the fetch for a command word that names no operation (R114: "A model refuses an illegal
  word as malformed input and takes no step for it"). Safe: the hardware ignores the word. -/
  | illegalWord (w : Cmd) (why : DecodeError)
  /-- Raised by TACH_PULSE, and by the fetch, for a fan index at or above NFAN (R114). Safe: the hardware
  ignores the word. -/
  | noSuchFan (i : Fin 4)
  /-- Raised by the fetch under a configuration that is not well-formed (R10: "a model refuses any
  other"). Safe. -/
  | illFormedConfig
  deriving DecidableEq, Repr

/-- The hidden framer state after reset (R70, R72); the buffers hold unspecified bytes (R71). -/
def Link.reset : Link where
  rxCnt := 0
  rxExp := 0
  rxBc := false
  rxSkip := false
  rxa := []
  rxc := []
  rxcBc := false
  txbuf := []
  txLen := 0
  txIdx := 0

/-- The state after power-on under a configuration (R75, R320): nothing presented at the port, no result
yet, no RESET operation so far. -/
def State.resetWith (cfg : Config) : State where
  cfg := cfg
  rte := rteReset cfg
  pri := Link.reset
  sec := Link.reset
  port := []
  result := .none
  epoch := 0

/-- The machine right after reset, configured with REFCFG (log entry 1). -/
def State.reset : State := State.resetWith refConfig

end Sys2Proof.Machine
end

