-- ==== Sys2Proof/Machine/Operands.lean ====
section
/-! DEFINITION. Reading and writing the state's operands: the named conversions of spec/00_scope.md R13,
words, bits and fields of the RTE (R12, R15), 32-bit values (spec/20_memory.md R88), the hidden link state
and the bytes of the frame buffers (spec/10_state.md R66). -/

namespace Sys2Proof.Machine

/-- `sat_u16(v)` = min(max(v, 0), 65535) (R13), for v that is never negative. -/
def satU16 (v : Nat) : Nat := min v 65535

/-- `s16(w)`: the signed reading of a word (R13). -/
def s16 (w : Word) : Int := w.toInt

/-- `u16(v)` = v mod 65536: the word that holds signed v (R13). -/
def u16 (v : Int) : Word := BitVec.ofInt 16 v

/-- `trunc16(v)` = v mod 65536 (R13). -/
def trunc16 (v : Nat) : Word := BitVec.ofNat 16 v

/-- The word `w` with bit `n` replaced by `b` and every other bit as it was (R15). -/
def putBit (w : Word) (n : Nat) (b : Bool) : Word :=
  if b then w ||| (1#16 <<< n) else w &&& ~~~(1#16 <<< n)

/-- The word whose bits `len` from `lo` are ones. -/
def fieldMask (lo len : Nat) : Word := (BitVec.allOnes 16 >>> (16 - len)) <<< lo

/-- The word `w` with its `len` bits from `lo` replaced by those of `v`, every other bit as it was (R15). -/
def putField (w : Word) (lo len : Nat) (v : Word) : Word :=
  (w &&& ~~~(fieldMask lo len)) ||| ((v <<< lo) &&& fieldMask lo len)

/-- `RTE[a]` (R15). -/
def State.rd (s : State) (a : Addr) : Word := rteRead s.rte a

/-- `RTE[a]` as an integer (R13). -/
def State.rdNat (s : State) (a : Addr) : Nat := (s.rd a).toNat

/-- `RTE[a][n]` (R12). -/
def State.bit (s : State) (a : Addr) (n : Nat) : Bool := (s.rd a).getLsbD n

/-- `RTE[a] <- v` (R15). -/
def State.wr (s : State) (a : Addr) (v : Word) : State := { s with rte := rteWrite s.rte a v }

/-- `RTE[a].F <- b` for a one-bit field at bit `n` (R15). -/
def State.wrBit (s : State) (a : Addr) (n : Nat) (b : Bool) : State := s.wr a (putBit (s.rd a) n b)

/-- `RTE[a][lo+len-1 : lo] <- v` (R15). -/
def State.wrField (s : State) (a : Addr) (lo len : Nat) (v : Word) : State :=
  s.wr a (putField (s.rd a) lo len v)

/-- `RTE32[a] = RTE[a] + 65536 * RTE[a+1]`: the low word at the lower address (R15, R88). -/
def State.rd32 (s : State) (a : Addr) : Nat := s.rdNat a + 65536 * s.rdNat (a + 1)

/-- The hidden framer state of link `p`. -/
def State.link (s : State) : Peer → Link
  | .pri => s.pri
  | .sec => s.sec

/-- The state with the hidden framer state of link `p` replaced. -/
def State.setLink (s : State) (p : Peer) (l : Link) : State :=
  match p with
  | .pri => { s with pri := l }
  | .sec => { s with sec := l }

/-- The three frame buffers of a link (R66, R71). -/
inductive BufName where
  | rxa
  | rxc
  | txbuf
  deriving DecidableEq, Repr

/-- The buffer a name stands for. -/
def Link.buf (l : Link) : BufName → Buf
  | .rxa => l.rxa
  | .rxc => l.rxc
  | .txbuf => l.txbuf

/-- The number of a buffer cell among the six buffers, so that no two cells share a free value. -/
def cellNumber (b : BufName) (p : Peer) (k : Nat) : Nat :=
  (match b with | .rxa => 0 | .rxc => 1 | .txbuf => 2) + 3 * p.index + 6 * k

/-- `BUF[k]`: byte `k` of a frame buffer of link `p`. A byte that no rule has written since the reset is
a free value (R71, R322; log entry 4). -/
def State.bufByte (s : State) (b : BufName) (p : Peer) (k : Nat) : Byte :=
  (cellGet? ((s.link p).buf b) k).getD (Config.freeBufferByte s.epoch (cellNumber b p k))

/-- `BUF[k .. k+n-1]`. -/
def State.bufBytes (s : State) (b : BufName) (p : Peer) (k : Nat) : Nat → List Byte
  | 0 => []
  | n + 1 => s.bufByte b p k :: State.bufBytes s b p (k + 1) n

/-- Every RTE list and buffer of the state is in its canonical form. -/
def Memory.wf (s : State) : Bool :=
  rteWf s.rte && bufWf s.pri.rxa && bufWf s.pri.rxc && bufWf s.pri.txbuf
    && bufWf s.sec.rxa && bufWf s.sec.rxc && bufWf s.sec.txbuf

end Sys2Proof.Machine
end

