-- ==== Sys2Proof/Machine/Flags.lean ====
section
/-! DEFINITION. The computations of status bits that several operations share: the fault latch rule
(spec/44_tmctrl.md R275), the enable conditions (R260), the link failure bits (spec/42_intcom.md R187,
R195, R196) and the fan judgments (spec/43_fanctrl.md R231, R232). -/

namespace Sys2Proof.Machine

/-- The latch rule on the three words: bits 3:0 become `raw OR (lat AND NOT clr)`, bits 15:4 stay
(R275). -/
def latchWord (raw out lat : Word) : Word :=
  putField lat 0 4 (raw ||| (lat &&& ~~~(out >>> 4)))

/-- `LatchUpdate()` (R275), applied at the end of every operation that writes the RTE, after its own writes
(R16; log entry 5). -/
def latchUpdate (s : State) : State := s.wr fltLat (latchWord (s.rd fltRaw) (s.rd seqOut) (s.rd fltLat))

/-- No fault is latched: `FLT_LAT[3:0] = 0` (R260). -/
def noFaultLatched (s : State) : Bool :=
  !s.bit fltLat bOvp && !s.bit fltLat bUvp && !s.bit fltLat bOcp && !s.bit fltLat bOpp

/-- The enable conditions `healthy` (R260). -/
def healthy (s : State) : Bool :=
  !s.bit gpioDb bHaltDb && s.bit gpioDb bBulkOkDb && noFaultLatched s
    && (!s.cfg.seqGateSwen || s.bit gpioDb bSwenDb)

/-- The bits a silent link sets: UART_FAIL[p] and NO_DATA[p], and COM_FAULT while VIN_OK is 1 (R195,
R196). -/
def reportSilent (p : Peer) (s : State) : State :=
  let s1 := (s.wrBit comStat (bUartFail p) true).wrBit comStat (bNoData p) true
  if s1.bit sysIn bVinOk then s1.wrBit comStat bComFault true else s1

/-- The bits a drained frame clears: UART_FAIL[p] and NO_DATA[p], and COM_FAULT when neither peer is
failed after that (R186, R187). -/
def clearSilent (p : Peer) (s : State) : State :=
  let s1 := (s.wrBit comStat (bUartFail p) false).wrBit comStat (bNoData p) false
  if !s1.bit comStat (bUartFail .pri) && !s1.bit comStat (bUartFail .sec) then
    s1.wrBit comStat bComFault false
  else s1

/-- A counter of consecutive windows: up by one, saturating, when the condition holds, else 0 (R232). -/
def countWindow (cond : Bool) (c : Word) : Word :=
  if cond then trunc16 (satU16 (c.toNat + 1)) else 0

/-- The effect of the three judgments on WARN and FAIL, from the counters just written, in a window with
INPUT_OK = 1: warn, fail, clear, in this order (R231, R232). -/
def judge (cfg : Config) (warnCnt failCnt okCnt stat : Word) : Word :=
  let st1 := if warnCnt.toNat ≥ cfg.nWarn.toNat then putBit stat bWarn true else stat
  let st2 := if failCnt.toNat ≥ cfg.nFail.toNat then putBit st1 bFail true else st1
  if okCnt.toNat ≥ cfg.mOk.toNat then putBit (putBit st2 bWarn false) bFail false else st2

end Sys2Proof.Machine
end

