-- ==== Sys2Proof/Machine/Ops.lean ====
section
/-! DEFINITION. The named operations that the meanings share: finishing an operation, the operation port
and its fetch (spec/30_encoding.md R110, R114), the serialisation of fields (spec/20_memory.md R83, R88,
R89) and the writes of frames into buffers. Taking an exception and returning from one have no operation
here: "There is no trap entry" (spec/60_exceptions.md R300) and "There is no trap return" (R301); an error
is a status bit (R290). -/

namespace Sys2Proof.Machine

/-- The outcomes of the block. -/
abbrev Outcome := Host.Outcome State Fault Refusal

/-- The state with the result an operation returns at the port (R110). -/
def State.withResult (s : State) (r : Result) : State := { s with result := r }

/-- The state with other words waiting at the port (R110). -/
def State.withPort (s : State) (ws : List Cmd) : State := { s with port := ws }

/-- An operation ends with its result and the state it leaves (R110). -/
def finish (r : Result) (s : State) : Outcome := .next (s.withResult r)

/-- What the operation port offers a step. -/
inductive Fetched where
  /-- Nothing is presented. -/
  | idle
  /-- A legal command word was taken from the port. -/
  | op (i : Instr) (s : State)
  /-- The machine takes no step. -/
  | refuse (r : Refusal)
  deriving DecidableEq, Repr

/-- Judge one presented command word: decode it, and check its fan operand against NFAN (R113, R114). -/
def acceptWord (w : Cmd) (s : State) : Fetched :=
  match decode w with
  | .error e => .refuse (.illegalWord w e)
  | .ok (.tachPulse i) =>
    if Instr.wf s.cfg (.tachPulse i) then .op (.tachPulse i) s else .refuse (.noSuchFan i)
  | .ok i => .op i s

/-- Take the next command word from the operation port (R110). The rules hold for well-formed
configurations only (R10). -/
def fetch (s : State) : Fetched :=
  if s.cfg.wf then
    match s.port with
    | [] => .idle
    | w :: rest => acceptWord w (s.withPort rest)
  else .refuse .illFormedConfig

/-- Present a command word at the operation port, before any other (R110). -/
def present (w : Cmd) (s : State) : State := s.withPort (w :: s.port)

/-- The little-endian bytes of a field value (R83). -/
def leBytes : Nat → Nat → List Byte
  | 0, _ => []
  | n + 1, v => BitVec.ofNat 8 (v % 256) :: leBytes n (v / 256)

/-- The value of little-endian bytes (R83). -/
def leValue : List Byte → Nat
  | [] => 0
  | b :: rest => b.toNat + 256 * leValue rest

/-- The value an entry's field has in the RTE: the word, or the word pair of a 32-bit field (R88, R89,
R190). -/
def entryValue (s : State) (e : Entry) : Nat :=
  match e.width with
  | .w32 => s.rd32 e.addr
  | _ => s.rdNat e.addr

/-- Store a field value in the RTE: a 32-bit value as two words, the low word first; any other value in
one word, an 8-bit one zero-extended (R88, R89, R181). -/
def storeEntry (s : State) (e : Entry) (v : Nat) : State :=
  match e.width with
  | .w32 => (s.wr e.addr (trunc16 (v % 65536))).wr (e.addr + 1) (trunc16 (v / 65536))
  | _ => s.wr e.addr (trunc16 v)

/-- The payload bytes of an outgoing frame (R190, R191). -/
def payloadBytes (s : State) : Layout → List Byte
  | [] => []
  | e :: rest => leBytes e.bytes (entryValue s e) ++ payloadBytes s rest

/-- The whole outgoing frame: address byte, payload, check bytes (R115, R190). -/
def outgoingFrame (s : State) (p : Peer) : List Byte :=
  let body := s.cfg.addrPeer.get p :: payloadBytes s (s.cfg.txLayout.get p)
  body ++ check s.cfg.chkKind body

/-- The layout that frames of link `p` are parsed with, by the broadcast flag (R116, R182). -/
def rxLayoutOf (cfg : Config) (p : Peer) (bc : Bool) : Layout :=
  if bc then cfg.rxbLayout.get p else cfg.rxLayout.get p

/-- Set a bit of FRM_STAT[p] to 1 (R62). -/
def frmSet (p : Peer) (n : Nat) (s : State) : State := s.wrBit (frmStat p) n true

/-- Clear a bit of FRM_STAT[p] (R62). -/
def frmClear (p : Peer) (n : Nat) (s : State) : State := s.wrBit (frmStat p) n false

end Sys2Proof.Machine
end

