-- ==== Sys2Proof/Machine/Access.lean ====
section
/-! DEFINITION. RESET, REG_RD and REG_WR (spec/40_rte_access.md R140 to R142). -/

namespace Sys2Proof.Machine

/-- The block after a reset: the RTE and the hidden framer state at their reset values, the contents of
every frame buffer unspecified again (R75, R140). The configuration and the words still waiting at the port
are not the block's state and stay (log entries 1, 2). -/
def resetBlock (s : State) : State :=
  { s with rte := rteReset s.cfg, pri := Link.reset, sec := Link.reset, epoch := s.epoch + 1 }

/-- RESET (R140). -/
def execReset (s : State) : Outcome := finish .none (latchUpdate (resetBlock s))

/-- REG_RD (R141): the result is the word, and no state changes. -/
def execRegRd (addr : Addr) (s : State) : Outcome := finish (.word (s.rd addr)) s

/-- REG_WR (R142). -/
def execRegWr (addr : Addr) (data : Word) (s : State) : Outcome :=
  finish .none (latchUpdate (s.wr addr data))

end Sys2Proof.Machine
end

