-- ==== Sys2Proof/Machine/Fanctrl.lean ====
section
/-! DEFINITION. The fan control loop: FAN_TICK, TACH_PULSE and FANSTAT_TICK (spec/43_fanctrl.md R210 to
R234). -/

namespace Sys2Proof.Machine

/-- `TempSelect()` (R212). -/
def tempSelect (s : State) : Int :=
  match s.cfg.fanTsrc with
  | .amb => s16 (s.rd tAmb)
  | .hot => s16 (s.rd tHot)
  | .diff => max (s16 (s.rd tHot) - s16 (s.rd tAmb)) 0

/-- The interpolation inside one stage (R213). -/
def stageSpeed (st : Stage) (t : Int) : Int :=
  (st.smin.toNat : Int)
    + ((t - s16 st.tmin) * ((st.smax.toNat : Int) - (st.smin.toNat : Int))) / (s16 st.tmax - s16 st.tmin)

/-- The loop of PWL from a stage on; `below` is the top speed of the stage before (R213). -/
def pwlFrom (below : Int) : List Stage → Int → Int
  | [], _ => below
  | st :: rest, t =>
    if t < s16 st.tmin then below
    else if t < s16 st.tmax then stageSpeed st t
    else pwlFrom st.smax.toNat rest t

/-- `PWL(tbl, t)`: the baseline speed (R213). -/
def pwl (tbl : List Stage) (t : Int) : Int :=
  match tbl with
  | [] => 0
  | st :: _ => if t ≤ s16 st.tmin then st.smin.toNat else pwlFrom st.smin.toNat tbl t

/-- The stage table for the detected line (R211). -/
def lineTable (s : State) : List Stage := if s.bit sysIn bLineHigh then s.cfg.stgHi else s.cfg.stgLo

/-- `LoadTerm()` (R214). -/
def loadTerm (s : State) : Nat :=
  if s.rdNat loadMeas > s.cfg.loadThr.toNat then
    ((s.rdNat loadMeas - s.cfg.loadThr.toNat) * s.cfg.loadSlope.toNat) / 2 ^ fanQ
  else 0

/-- `VinTerm()` (R215). -/
def vinTerm (s : State) : Nat :=
  if s.cfg.fanVinEn then (s.rdNat vinMeas * s.cfg.vinSlope.toNat) / 2 ^ fanQ else 0

/-- `ComputeTargetSpeed` (R211 step 1, R216). -/
def targetSpeed (s : State) : Nat :=
  (min (pwl (lineTable s) (tempSelect s) + (loadTerm s : Int) + (vinTerm s : Int))
    (s.cfg.fanRpmMax.toNat : Int)).toNat

/-- The override of fan `i` wins over the target: unlocked, and the commanded duty's speed exceeds the
target (R217, R218). -/
def overrideWins (s : State) (tgt : Nat) (i : Nat) : Bool :=
  s.bit sysIn bDbgUnlocked
    && decide (s.rdNat (fanAddr i .ovr) * s.cfg.fanRpmMax.toNat > tgt * s.cfg.dutyFull.toNat)

/-- `eff[i]`: the effective speed of fan `i` (R217, R218). -/
def effSpeed (s : State) (tgt : Nat) (i : Nat) : Nat :=
  if overrideWins s tgt i then
    satU16 ((s.rdNat (fanAddr i .ovr) * s.cfg.fanRpmMax.toNat) / s.cfg.dutyFull.toNat)
  else tgt

/-- Step 2 of FAN_TICK for one fan: OVR is discarded when locked, OVR_ACT and IO are written (R217 to
R219). -/
def arbitrateFan (tgt : Nat) (s : State) (i : Nat) : State :=
  let win := overrideWins s tgt i
  let s1 := if s.bit sysIn bDbgUnlocked then s else s.wr (fanAddr i .ovr) 0
  let s2 := s1.wrBit (fanAddr i .stat) bOvrAct win
  s2.wrBit (fanAddr i .stat) bIo (s2.bit tachLvl i)

/-- The fans of the configuration. -/
def fans (cfg : Config) : List Nat := List.range cfg.nfan

/-- `any_ovr`: some fan's override is active (R211 step 3, R222). -/
def anyOverride (s : State) : Bool := (fans s.cfg).any (fun i => s.bit (fanAddr i .stat) bOvrAct)

/-- `meas`: the largest measured speed over all fans (R220). -/
def maxSpeed (s : State) : Nat := (fans s.cfg).foldl (fun m i => max m (s.rdNat (fanAddr i .speed))) 0

/-- The step of the duty by the band of the error (R221). -/
def slewStep (cfg : Config) (err : Int) : Int :=
  if err > cfg.errBig.toNat then cfg.stepBig.toNat
  else if err > cfg.errMid.toNat then cfg.stepMid.toNat
  else if err > 0 then cfg.stepSmall.toNat
  else if err < 0 then -(cfg.stepDn.toNat : Int)
  else 0

/-- The slewed and clamped duty (R222). -/
def slewDuty (cfg : Config) (anyOvr : Bool) (duty : Nat) (err : Int) : Int :=
  min (max ((duty : Int) + slewStep cfg err) (if anyOvr then 0 else (cfg.dutyFloor.toNat : Int)))
    (cfg.dutyMax.toNat : Int)

/-- The duty written: forced in boot mode, else on AC loss, else the slewed one (R223). -/
def nextDuty (s : State) (anyOvr : Bool) (duty : Nat) (err : Int) : Word :=
  if s.bit sysIn bBootMode then s.cfg.dutyBoot
  else if s.bit sysIn bAcLoss then s.cfg.dutyAcloss
  else trunc16 (slewDuty s.cfg anyOvr duty err).toNat

/-- Step 3 of FAN_TICK for one fan, with its error already taken (R220 to R223). -/
def slewFan (anyOvr : Bool) (err : Nat → Int) (s : State) (i : Nat) : State :=
  s.wr (fanAddr i .duty) (nextDuty s anyOvr (s.rdNat (fanAddr i .duty)) (err i))

/-- FAN_TICK's own writes, from the state `s` at its start: target, arbitration of every fan, slew of
every fan (R211). -/
def fanTick (s : State) : State :=
  let tgt := targetSpeed s
  let s1 := s.wr fanTarget (trunc16 tgt)
  let s2 := (fans s.cfg).foldl (arbitrateFan tgt) s1
  let err := fun i => (effSpeed s tgt i : Int) - (maxSpeed s2 : Int)
  (fans s.cfg).foldl (slewFan (anyOverride s2) err) s2

/-- FAN_TICK (R211). -/
def execFanTick (s : State) : Outcome := finish .none (latchUpdate (fanTick s))

/-- TACH_PULSE (R230), for a fan that exists; any other fan index makes the command word illegal
(R114). -/
def execTachPulse (i : Fin 4) (s : State) : Outcome :=
  if i.val < s.cfg.nfan then
    finish .none
      (latchUpdate (s.wr (fanAddr i .pulse) (trunc16 (satU16 (s.rdNat (fanAddr i .pulse) + 1)))))
  else .refused (.noSuchFan i)

/-- The speed of a window: `sat_u16(PULSE * TACH_SCALE)` (R233). -/
def windowSpeed (cfg : Config) (pulses : Word) : Nat := satU16 (pulses.toNat * cfg.tachScale.toNat)

/-- FANSTAT_TICK for one fan (R231, R232). -/
def fanstatFan (s : State) (i : Nat) : State :=
  let spd := windowSpeed s.cfg (s.rd (fanAddr i .pulse))
  let w := countWindow (decide (spd < s.cfg.warnThr.toNat)) (s.rd (fanAddr i .warnCnt))
  let f := countWindow (decide (spd < s.cfg.failThr.toNat)) (s.rd (fanAddr i .failCnt))
  let k := countWindow (decide (spd > s.cfg.recovThr.toNat)) (s.rd (fanAddr i .okCnt))
  let s1 := ((((s.wr (fanAddr i .speed) (trunc16 spd)).wr (fanAddr i .pulse) 0).wr
    (fanAddr i .warnCnt) w).wr (fanAddr i .failCnt) f).wr (fanAddr i .okCnt) k
  if s1.bit sysIn bInputOk then
    s1.wr (fanAddr i .stat) (judge s.cfg w f k (s1.rd (fanAddr i .stat)))
  else s1

/-- FANSTAT_TICK (R231). -/
def execFanstatTick (s : State) : Outcome :=
  finish .none (latchUpdate ((fans s.cfg).foldl fanstatFan s))

end Sys2Proof.Machine
end

