-- ==== Sys2Proof/Machine/Framer.lean ====
section
/-! DEFINITION. The framer: RX_BYTE, RX_IDLE and TX_BYTE (spec/41_framer.md R155 to R169). -/

namespace Sys2Proof.Machine

/-- The first byte of a frame is accepted: the receiver starts a frame of the layout's length (R156). -/
def rxBegin (p : Peer) (byte : Byte) (bc : Bool) (s : State) : State :=
  let l := s.link p
  s.setLink p
    { l with rxBc := bc, rxExp := s.cfg.flen (rxLayoutOf s.cfg p bc), rxa := bufWrite l.rxa 0 byte, rxCnt := 1 }

/-- A byte that arrives while no frame is being assembled and the receiver does not skip (R156, R158). -/
def rxFirst (p : Peer) (byte : Byte) (s : State) : State :=
  if byte = s.cfg.addrOwn then rxBegin p byte false s
  else if byte = s.cfg.addrBcast then rxBegin p byte true s
  else (frmSet p bAddrErr s).setLink p { s.link p with rxSkip := true }

/-- The check bytes of the assembled frame match (R153, R156). -/
def rxCheckOk (p : Peer) (s : State) : Bool :=
  let n := (s.link p).rxExp
  let k := s.cfg.chkKind.len
  check s.cfg.chkKind (s.bufBytes .rxa p 0 (n - k)) == s.bufBytes .rxa p (n - k) k

/-- The assembled frame is copied to RXC[p] with its broadcast flag, and RX_PEND is set (R157). -/
def rxHandOver (p : Peer) (s : State) : State :=
  let l := s.link p
  frmSet p bRxPend
    (s.setLink p { l with rxc := bufWriteBytes l.rxc 0 (s.bufBytes .rxa p 0 l.rxExp), rxcBc := l.rxBc })

/-- The last byte of a frame has been stored: it is judged, handed over or dropped (R156, R157, R159,
R160). -/
def rxComplete (p : Peer) (s : State) : State :=
  if rxCheckOk p s then
    if s.bit (frmStat p) bRxPend then frmSet p bRxOvr s else rxHandOver p s
  else frmSet p bChkErr s

/-- The receiver waits for an address byte. -/
def rxToIdle (p : Peer) (s : State) : State := s.setLink p { s.link p with rxCnt := 0 }

/-- A byte that arrives inside a frame (R156). -/
def rxNext (p : Peer) (byte : Byte) (s : State) : State :=
  let l := s.link p
  let s1 := s.setLink p { l with rxa := bufWrite l.rxa l.rxCnt byte, rxCnt := l.rxCnt + 1 }
  if l.rxCnt + 1 = l.rxExp then rxToIdle p (rxComplete p s1) else s1

/-- The receiver ignores the byte: the link is sending (R155), or no frame is being assembled and bytes are
skipped until the next RX_IDLE (R158). -/
def rxIgnores (p : Peer) (s : State) : Bool :=
  s.bit (frmStat p) bTxBusy || ((s.link p).rxCnt == 0 && (s.link p).rxSkip)

/-- RX_BYTE with a byte that is not ignored (R156). -/
def rxAccept (p : Peer) (byte : Byte) (s : State) : State :=
  if (s.link p).rxCnt = 0 then rxFirst p byte s else rxNext p byte s

/-- RX_BYTE (R156), the latch rule at its end (R16, R275). An ignored byte changes nothing (log entry 5). -/
def execRxByte (p : Peer) (byte : Byte) (s : State) : Outcome :=
  finish .none (if rxIgnores p s then s else latchUpdate (rxAccept p byte s))

/-- A frame boundary: a partly assembled frame is abandoned, and the skipping ends (R162). -/
def rxBoundary (p : Peer) (s : State) : State :=
  let s1 := if (s.link p).rxCnt > 0 then rxToIdle p (frmSet p bRxAbort s) else s
  s1.setLink p { s1.link p with rxSkip := false }

/-- RX_IDLE (R162), the latch rule at its end (R16, R275). -/
def execRxIdle (p : Peer) (s : State) : Outcome := finish .none (latchUpdate (rxBoundary p s))

/-- The next byte of TXBUF[p] is handed over; TX_BUSY falls with the last (R168). -/
def txAdvance (p : Peer) (s : State) : State :=
  let l := s.link p
  let s1 := s.setLink p { l with txIdx := l.txIdx + 1 }
  if l.txIdx + 1 ≥ l.txLen then frmClear p bTxBusy s1 else s1

/-- TX_BYTE (R168), the latch rule at its end (R16, R275). "none when nothing is being sent (then no state
changes)". -/
def execTxByte (p : Peer) (s : State) : Outcome :=
  if s.bit (frmStat p) bTxBusy then
    if (s.link p).txIdx ≥ (s.link p).txLen then finish .none (latchUpdate (frmClear p bTxBusy s))
    else finish (.byte (s.bufByte .txbuf p (s.link p).txIdx)) (latchUpdate (txAdvance p s))
  else finish .none s

end Sys2Proof.Machine
end

