-- ==== Sys2Proof/Machine/Intcom.lean ====
section
/-! DEFINITION. The communication bridge: RX_DRAIN, TX_START and LIVE_TICK (spec/42_intcom.md R180 to
R199). -/

namespace Sys2Proof.Machine

/-- The clamp of a CAL field to its inclusive range, signed entries in two's complement (R184). -/
def clampCal (e : Entry) (v : Nat) : Nat :=
  if e.signed then (u16 (min (max (s16 (trunc16 v)) e.min) e.max)).toNat
  else (min (max (v : Int) e.min) e.max).toNat

/-- The value of an entry that RX_DRAIN stores: CAL fields clamped, every other field verbatim (R183,
R184, R185). -/
def drainedValue (e : Entry) (v : Nat) : Nat :=
  match e.kind with
  | .cal => clampCal e v
  | _ => v

/-- A VER field that differs from the word or word pair about to be overwritten sets its VERCHG flag
(R185). -/
def noteVersion (p : Peer) (e : Entry) (v : Nat) (s : State) : State :=
  match e.kind with
  | .ver => if entryValue s e ≠ v then s.wrBit comStat (bVerChg p e.img) true else s
  | _ => s

/-- One entry of a received frame whose field has the value `v` (R181). -/
def drainEntry (p : Peer) (e : Entry) (v : Nat) (s : State) : State :=
  storeEntry (noteVersion p e (drainedValue e v) s) e (drainedValue e v)

/-- The entries of a received frame in layout order, the first field at index `cur` of RXC[p] (R181). -/
def drainFields (p : Peer) (cur : Nat) : Layout → State → State
  | [], s => s
  | e :: rest, s =>
    drainFields p (cur + e.bytes) rest (drainEntry p e (leValue (s.bufBytes .rxc p cur e.bytes)) s)

/-- What follows the fields: liveness, the failure bits, RX_PEND and the latch rule (R181, R186, R187). -/
def drainFinish (p : Peer) (s : State) : State :=
  latchUpdate (frmClear p bRxPend (clearSilent p (s.wr (liveCnt p) (s.cfg.liveReset.get p))))

/-- RX_DRAIN (R181): "nothing waits: no state change" when no frame is pending. -/
def execRxDrain (p : Peer) (s : State) : Outcome :=
  finish .none
    (if s.bit (frmStat p) bRxPend then
      drainFinish p (drainFields p 1 (rxLayoutOf s.cfg p (s.link p).rxcBc) s)
    else s)

/-- The frame is built into TXBUF[p] and its transmission begins (R190). -/
def txBegin (p : Peer) (s : State) : State :=
  let l := s.link p
  let f := outgoingFrame s p
  frmSet p bTxBusy (s.setLink p { l with txbuf := bufWriteBytes l.txbuf 0 f, txLen := f.length, txIdx := 0 })

/-- TX_START is refused while the link sends or receives (R155, R192). -/
def txRefuses (p : Peer) (s : State) : Bool := s.bit (frmStat p) bTxBusy || decide ((s.link p).rxCnt > 0)

/-- TX_START (R190), refused with the sticky bit TX_REFUSED (R192), the latch rule at its end (R16, R275). -/
def execTxStart (p : Peer) (s : State) : Outcome :=
  finish .none (latchUpdate (if txRefuses p s then frmSet p bTxRefused s else txBegin p s))

/-- The liveness counter of peer `p` goes down by one and holds at 0 (R195). -/
def countDown (p : Peer) (s : State) : State :=
  if s.rd (liveCnt p) = 0 then s else s.wr (liveCnt p) (trunc16 (s.rdNat (liveCnt p) - 1))

/-- One step of the liveness counter of peer `p`, and the report of a counter that is now at 0 (R195,
R196). -/
def liveStep (p : Peer) (s : State) : State :=
  if (countDown p s).rd (liveCnt p) = 0 then reportSilent p (countDown p s) else countDown p s

/-- LIVE_TICK (R195): PRI, then SEC, the latch rule at its end (R16, R275). -/
def execLiveTick (s : State) : Outcome := finish .none (latchUpdate (liveStep .sec (liveStep .pri s)))

end Sys2Proof.Machine
end

