-- ==== Sys2Proof/Machine/Tmctrl.lean ====
section
/-! DEFINITION. Timing and sequencing control: GPIO_TICK and SEQ_TICK (spec/44_tmctrl.md R250 to R269). -/

namespace Sys2Proof.Machine

/-- The threshold that ends a disagreement: the disable-delay from 1 to 0, the enable-delay from 0 to 1
(R252, R253). -/
def debounceThr (cfg : Config) (g : Sig) (db : Bool) : Nat :=
  if db then (cfg.disDly.get g).toNat else (cfg.enDly.get g).toNat

/-- The debounce of one signal (R252). -/
def debounce (g : Sig) (s : State) : State :=
  let raw := s.bit gpioRaw g.index
  let db := s.bit gpioDb g.index
  let c := s.rdNat (gpioCnt g)
  if raw ≠ db then
    if c + 1 ≥ debounceThr s.cfg g db then (s.wrBit gpioDb g.index raw).wr (gpioCnt g) 0
    else s.wr (gpioCnt g) (trunc16 (c + 1))
  else if c > 0 then s.wr (gpioCnt g) (trunc16 (c - 1))
  else s

/-- GPIO_TICK (R252): HALT, SWEN, BULK. -/
def execGpioTick (s : State) : Outcome :=
  finish .none (latchUpdate (debounce .bulk (debounce .swen (debounce .halt s))))

/-- The INIT arm (R262). -/
def seqInitArm (s : State) : State :=
  let s1 := s.wrField seqOut 0 4 0
  if s1.rdNat seqDlyCnt ≥ s1.cfg.seqStartDelay.toNat then (s1.wr seqState stIdle).wr seqDlyCnt 0
  else s1.wr seqDlyCnt (trunc16 (s1.rdNat seqDlyCnt + 1))

/-- The first statement of the IDLE arm: a clear request or an input-voltage loss raises all four
latch-clear outputs and resets the retry counter (R263). -/
def seqRearm (s : State) : State :=
  if s.bit sysIn bFaultClrReq || s.bit sysIn bVinLoss then (s.wrField seqOut 4 4 0xF).wr seqRetryCnt 0
  else s

/-- The automatic clear is due: UVP or OCP latched, budget left, and not both requests raised already
(R264). -/
def autoClearDue (s : State) : Bool :=
  (s.bit fltLat bUvp || s.bit fltLat bOcp)
    && decide (s.rdNat seqRetryCnt < s.cfg.retryBudget.toNat)
    && !(s.bit seqOut bClrUvp && s.bit seqOut bClrOcp)

/-- The second statement of the IDLE arm: the automatic clear of UVP and OCP (R264). -/
def seqAutoClear (s : State) : State :=
  if autoClearDue s then
    ((s.wrBit seqOut bClrUvp true).wrBit seqOut bClrOcp true).wr seqRetryCnt
      (trunc16 (satU16 (s.rdNat seqRetryCnt + 1)))
  else s

/-- The IDLE arm, with the enable conditions of the operation's start (R263, R264). -/
def seqIdleArm (ok : Bool) (s : State) : State :=
  let s1 := seqAutoClear (seqRearm s)
  if ok then (s1.wrField seqOut 4 4 0).wr seqState stOn else s1

/-- The ON arm, with the enable conditions of the operation's start (R265). -/
def seqOnArm (ok : Bool) (s : State) : State :=
  if ok then
    let s1 := s.wrField seqOut 0 3 0x7
    if s1.bit sysIn bSyncStart then s1.wrBit seqOut bStageEn true else s1
  else (s.wrField seqOut 0 4 0).wr seqState stOff

/-- The OFF arm (R266). -/
def seqOffArm (s : State) : State := ((s.wrField seqOut 0 4 0).wr seqState stInit).wr seqDlyCnt 0

/-- The arm of the present state; an unrecognized value only resets SEQ_STATE to INIT (R261, R267). -/
def seqArm (s : State) : State :=
  if s.rd seqState = stInit then seqInitArm s
  else if s.rd seqState = stIdle then seqIdleArm (healthy s) s
  else if s.rd seqState = stOn then seqOnArm (healthy s) s
  else if s.rd seqState = stOff then seqOffArm s
  else s.wr seqState stInit

/-- SEQ_TICK (R261). -/
def execSeqTick (s : State) : Outcome := finish .none (latchUpdate (seqArm s))

end Sys2Proof.Machine
end

