-- ==== Sys2Proof/Machine/Dispatch.lean ====
section
/-! DEFINITION. The dispatch of an operation to its meaning, one arm per constructor of `Instr`. -/

namespace Sys2Proof.Machine

def exec (i : Instr) (s : State) : Host.Outcome State Fault Refusal :=
  match i with
  | .reset => Sys2Proof.Machine.execReset s
  | .regRd addr => Sys2Proof.Machine.execRegRd addr s
  | .regWr addr data => Sys2Proof.Machine.execRegWr addr data s
  | .gpioTick => Sys2Proof.Machine.execGpioTick s
  | .seqTick => Sys2Proof.Machine.execSeqTick s
  | .fanTick => Sys2Proof.Machine.execFanTick s
  | .tachPulse fan => Sys2Proof.Machine.execTachPulse fan s
  | .fanstatTick => Sys2Proof.Machine.execFanstatTick s
  | .liveTick => Sys2Proof.Machine.execLiveTick s
  | .rxByte p byte => Sys2Proof.Machine.execRxByte p byte s
  | .rxIdle p => Sys2Proof.Machine.execRxIdle p s
  | .rxDrain p => Sys2Proof.Machine.execRxDrain p s
  | .txStart p => Sys2Proof.Machine.execTxStart p s
  | .txByte p => Sys2Proof.Machine.execTxByte p s

end Sys2Proof.Machine
end

