-- ==== Sys2Proof/Machine/Step.lean ====
section
/-! DEFINITION. One step of the machine: the operation the port presents is performed (spec/00_scope.md
R7; spec/30_encoding.md R110). -/

namespace Sys2Proof.Machine

/-- One step: with nothing presented the block keeps its state (log entry 2); a legal command word is
taken from the port and its operation performed; anything else is refused (R10, R114). -/
def step (s : State) : Host.Outcome State Fault Refusal :=
  match fetch s with
  | .idle => .next s
  | .op i t => exec i t
  | .refuse r => .refused r

/-- The state with the command word whose low `nbits` bits are `w`, the rest 0, presented at the operation
port before any other: the next step performs it (log entry 2). -/
def State.withFetchWord (s : State) (nbits w : Nat) : State := present (BitVec.ofNat 32 (w % 2 ^ nbits)) s

end Sys2Proof.Machine
end

