-- ==== Sys2Proof/Machine/Environment.lean ====
section
/-! DEFINITION. What the spec says of the environment that issues operations: the pseudo-operations
(spec/30_encoding.md R126), the ownership convention (spec/10_state.md R23, spec/40_rte_access.md R143) and
the ordering rules of a conforming scheduler (spec/70_reset_and_hazards.md R331 to R333). None of them
constrains the machine, which is defined for every order of operations. -/

namespace Sys2Proof.Machine

/-- The operations of a list performed one after another, stopping at the first that is refused. -/
def perform : List Instr → State → Outcome
  | [], s => .next s
  | i :: rest, s =>
    match exec i s with
    | .next t => perform rest t
    | .fault r => .fault r
    | .refused r => .refused r

/-! ## Pseudo-operations (R126) -/

/-- `RX_FRAME p, b0 b1 ... bn`. -/
def rxFrame (p : Peer) (bs : List Byte) : List Instr := bs.map (Instr.rxByte p)

/-- `SEQ_STEP`. -/
def seqStep : List Instr := [.gpioTick, .seqTick]

/-- `REPEAT n: op`. -/
def repeatOp (n : Nat) (op : Instr) : List Instr := List.replicate n op

/-- `TICK_ALL`. -/
def tickAll : List Instr := [.fanTick, .gpioTick, .seqTick, .liveTick]

/-- The second operation of `SET_BIT` and `CLR_BIT`, once the REG_RD before it has returned `w`. -/
def writeBack (addr : Addr) (n : Nat) (b : Bool) (w : Word) : Instr := .regWr addr (putBit w n b)

/-- `TX_BYTE p` repeated while TX_BUSY, at most `fuel` times: the bytes returned and the state left. -/
def txBytes (p : Peer) : Nat → State → List Byte × State
  | 0, s => ([], s)
  | fuel + 1, s =>
    if s.bit (frmStat p) bTxBusy then
      match execTxByte p s with
      | .next t =>
        match t.result with
        | .byte b => (b :: (txBytes p fuel t).1, (txBytes p fuel t).2)
        | _ => txBytes p fuel t
      | _ => ([], s)
    else ([], s)

/-- `TX_FRAME p`: TX_START, then TX_BYTE while TX_BUSY, at most 64 times. -/
def txFrame (p : Peer) (s : State) : List Byte × State :=
  match execTxStart p s with
  | .next t => txBytes p 64 t
  | _ => ([], s)

/-! ## Ownership (R23, R143) -/

/-- The owners of R23. -/
inductive Owner where
  | env
  | framer
  | intcom
  | fanctrl
  | tmctrl
  | latch
  deriving DecidableEq, Repr

/-- The address lies in the record of a fan that exists (R22, R51). -/
def inFanRecord (cfg : Config) (a : Addr) : Bool :=
  decide (0x30 ≤ a.toNat) && decide (a.toNat < 0x30 + 8 * cfg.nfan)

/-- The owner of a word (the address map of spec/10_state.md section 4.1). General words and FAN[i].OVR
are the environment's; FAN[i].PULSE is counted through TACH_PULSE and is fanctrl's otherwise. -/
def ownerOf (cfg : Config) (a : Addr) : Owner :=
  if a = 0x18 then .latch
  else if 0x10 ≤ a.toNat ∧ a.toNat ≤ 0x17 then .tmctrl
  else if a = 0x20 then .fanctrl
  else if inFanRecord cfg a then (if a.toNat % 8 = 3 then .env else .fanctrl)
  else if 0x60 ≤ a.toNat ∧ a.toNat ≤ 0x62 then .intcom
  else if a = 0x63 ∨ a = 0x64 then .framer
  else .env

/-- A clearing write: `new` differs from `old` only in bits of the mask that it clears (R143). -/
def clearsOnly (mask old new : Word) : Bool :=
  (new &&& ~~~mask) == (old &&& ~~~mask) && (new &&& ~~~old) == 0

/-- The write is one the environment is expected to make: a word it owns, or a clearing write of the
sticky bits of FRM_STAT[p] or of COM_STAT.VERCHG (R143). -/
def writeConforms (s : State) (a : Addr) (d : Word) : Bool :=
  ownerOf s.cfg a == .env
    || ((a == frmStat .pri || a == frmStat .sec) && clearsOnly 0x1F00 (s.rd a) d)
    || (a == comStat && clearsOnly 0x0F00 (s.rd a) d)

/-- The words an entry of a received frame is stored in (R118). -/
def Entry.words (e : Entry) : List Addr :=
  match e.width with
  | .w32 => [e.addr, e.addr + 1]
  | _ => [e.addr]

/-- A layout of received frames names only words the environment owns (R121, R335). -/
def layoutConforms (cfg : Config) (l : Layout) : Bool :=
  l.all (fun e => (Entry.words e).all (fun a => ownerOf cfg a == .env))

/-- Every layout of received frames conforms. -/
def layoutsConform (cfg : Config) : Bool :=
  layoutConforms cfg cfg.rxLayout.pri && layoutConforms cfg cfg.rxLayout.sec
    && layoutConforms cfg cfg.rxbLayout.pri && layoutConforms cfg cfg.rxbLayout.sec

/-- The operation keeps the ownership convention in this state (R143). -/
def opConforms (s : State) : Instr → Bool
  | .regWr a d => writeConforms s a d
  | _ => true

/-! ## Ordering (R331 to R333) -/

/-- The place of a periodic operation within one scheduler tick (R331); the operations of the interrupts
and of the other modules have none and may fall anywhere (R330). -/
def tickRank : Instr → Option Nat
  | .fanstatTick => some 0
  | .fanTick => some 1
  | .gpioTick => some 2
  | .seqTick => some 3
  | .rxDrain _ => some 4
  | .liveTick => some 5
  | .txStart _ => some 6
  | _ => none

/-- The periodic operations of one tick stand in the order of R331, from rank `lo` on. -/
def inTickOrder (lo : Nat) : List Instr → Bool
  | [] => true
  | i :: rest =>
    match tickRank i with
    | some r => decide (lo ≤ r) && inTickOrder r rest
    | none => inTickOrder lo rest

/-! ### At most one frame per tick (R332) -/

/-- The deferred pattern: at most one RX_DRAIN of peer `p` in one scheduler tick (R332). -/
def drainsAtMostOnce (p : Peer) (ops : List Instr) : Bool := decide (ops.count (.rxDrain p) ≤ 1)

/-- The operation is an RX_BYTE of link `p` that set RX_PEND (R332). -/
def setsPend (p : Peer) (s : State) (i : Instr) (t : State) : Bool :=
  match i with
  | .rxByte q _ => q == p && !s.bit (frmStat p) bRxPend && t.bit (frmStat p) bRxPend
  | _ => false

/-- The immediate pattern: every RX_DRAIN of peer `p` stands right after the RX_BYTE that set RX_PEND, so once
for each such byte; `fresh` says that the operation before was one (R332). -/
def drainsImmediate (p : Peer) : Bool → List Instr → State → Bool
  | _, [], _ => true
  | fresh, i :: rest, s =>
    match exec i s with
    | .next t => (i != .rxDrain p || fresh) && drainsImmediate p (setsPend p s i t) rest t
    | _ => false

/-- RX_DRAIN of peer `p` is issued as R332 has it in the operations of one scheduler tick, begun in state `s`:
in the deferred or in the immediate pattern. -/
def drainDisciplined (p : Peer) (ops : List Instr) (s : State) : Bool :=
  drainsAtMostOnce p ops || drainsImmediate p false ops s

/-- The operation is an RX_BYTE of link `p` that loses a frame to RX_OVR: it raises the bit when the bit is
clear before it (R160, R332). -/
def losesFrame (p : Peer) (s : State) (i : Instr) : Bool :=
  match i, exec i (frmClear p bRxOvr s) with
  | .rxByte q _, .next t => q == p && t.bit (frmStat p) bRxOvr
  | _, _ => false

/-- RX_DRAIN of peer `p` is issued often enough: no frame of the run is lost to RX_OVR (R332). -/
def losesNoFrame (p : Peer) : List Instr → State → Bool
  | [], _ => true
  | i :: rest, s =>
    match exec i s with
    | .next t => !losesFrame p s i && losesNoFrame p rest t
    | _ => false

/-- LIVE_TICK is issued once in a tick of its band (R332). -/
def ticksLiveOnce (ops : List Instr) : Bool := ops.count .liveTick == 1

/-! ### Line discipline (R333) -/

/-- The bytes of the present frame of link `p` still to be fetched, after one operation from state `s` to
state `t`; none when the operation breaks the discipline. A TX_START that is not refused owes TX_LEN[p]
bytes, a refused one owes nothing and changes nothing owed, and RESET drops the frame (R140, R169). -/
def owedAfter (p : Peer) (owed : Nat) (s : State) (i : Instr) (t : State) : Option Nat :=
  match i with
  | .reset => some 0
  | .txStart q =>
    if q = p ∧ txRefuses p s = false then (if owed = 0 then some (t.link p).txLen else none) else some owed
  | .txByte q => if q = p then (if owed = 0 then none else some (owed - 1)) else some owed
  | _ => some owed

/-- In the run every TX_START of link `p` that was not refused is followed by exactly TX_LEN[p] operations
TX_BYTE before the next, `owed` bytes being still to be fetched at its start (R333). -/
def txDisciplined (p : Peer) : Nat → List Instr → State → Bool
  | owed, [], _ => owed == 0
  | owed, i :: rest, s =>
    match exec i s with
    | .next t =>
      match owedAfter p owed s i t with
      | some n => txDisciplined p n rest t
      | none => false
    | _ => false

/-- The bytes the environment puts on the line of link `p`: the result of each TX_BYTE, in order (R333). -/
def lineOut (p : Peer) : List Instr → State → List Byte
  | [], _ => []
  | i :: rest, s =>
    match exec i s with
    | .next t =>
      match i, t.result with
      | .txByte q, .byte b => if q = p then b :: lineOut p rest t else lineOut p rest t
      | _, _ => lineOut p rest t
    | _ => []

/-- What the UART of a link reports: a byte received, or the line idle for the platform's frame gap
`T_IDLE` (R163, R333). -/
inductive LineEvent where
  | byte (b : Byte)
  | gap
  deriving DecidableEq, Repr

/-- The event of link `p` that an operation reports to the block. -/
def reportOf (p : Peer) : Instr → Option LineEvent
  | .rxByte q b => if q = p then some (.byte b) else none
  | .rxIdle q => if q = p then some .gap else none
  | _ => none

/-- The operations report every event of the UART of link `p`, in order, and no other (R333). -/
def reportsLine (p : Peer) (events : List LineEvent) (ops : List Instr) : Bool :=
  ops.filterMap (reportOf p) == events

/-- No TX_START of link `p` is issued while the environment knows the peer is sending, which the flag beside
each operation says (R333). -/
def startsInTurn (p : Peer) (ops : List (Instr × Bool)) : Bool := ops.all fun x => x.1 != .txStart p || !x.2

end Sys2Proof.Machine
end

