-- ==== Sys2Proof/Machine/Pins.lean ====
section
/-! DEFINITION. The output pins: "Each output of the block is a copy, at all times, of RTE bits"
(spec/10_state.md R64). -/

namespace Sys2Proof.Machine

/-- The pins of R64 that are copies of RTE bits. The byte handed to a UART is the result of TX_BYTE
(`State.result`). -/
structure Pins where
  pwmEn : Bool
  acsEn : Bool
  oringEn : Bool
  stageEn : Bool
  clrOvp : Bool
  clrUvp : Bool
  clrOcp : Bool
  clrOpp : Bool
  /-- The duty handed to PWM channel i, for every fan i. -/
  duty : List Word
  deriving DecidableEq, Repr

/-- The pins of a state (R64). -/
def pins (s : State) : Pins where
  pwmEn := s.bit seqOut bPwmEn
  acsEn := s.bit seqOut bAcsEn
  oringEn := s.bit seqOut bOringEn
  stageEn := s.bit seqOut bStageEn
  clrOvp := s.bit seqOut 4
  clrUvp := s.bit seqOut bClrUvp
  clrOcp := s.bit seqOut bClrOcp
  clrOpp := s.bit seqOut 7
  duty := (List.range s.cfg.nfan).map (fun i => s.rd (fanAddr i .duty))

end Sys2Proof.Machine
end

