-- ==== Sys2Proof/Safety.lean ====
section
/-! DEFINITION. What counts as a good state and a safe run, in the terms the claims use. -/

namespace Sys2Proof.Machine

/-- The four enable outputs SEQ_OUT[3:0] (spec/10_state.md R41). -/
def enableOutputs (s : State) : Word := s.rd seqOut &&& 0x000F

/-- The fault latches agree with the latch rule: a present raw condition is latched, and a held clear
request leaves only latches whose raw condition is present (spec/44_tmctrl.md R276). -/
abbrev latchesAgree (s : State) : Prop :=
  ∀ k, k < 4 → (s.bit fltRaw k = true → s.bit fltLat k = true)
    ∧ (s.bit fltLat k = true → s.bit seqOut (4 + k) = true → s.bit fltRaw k = true)

/-- The cursors of one link keep their ranges (R70, R72): a frame being assembled is shorter than it is
expected to be, no length passes BUF_MAX, and the transmit cursor stays within the frame. -/
abbrev cursorsInRange (l : Link) : Prop :=
  (l.rxCnt = 0 ∨ l.rxCnt < l.rxExp) ∧ l.rxExp ≤ bufMax ∧ l.txLen ≤ bufMax ∧ l.txIdx ≤ l.txLen

/-- The enable outputs are raised in state ON only (spec/44_tmctrl.md R268). -/
abbrev enablesOnlyInOn (s : State) : Prop := s.rd seqState ≠ stOn → enableOutputs s = 0

/-- A sequencer state is one of the four of R40. -/
abbrev knownSeqState (s : State) : Prop := (s.rd seqState).toNat < 4

/-- Byte `k` of a buffer has been written since reset. -/
abbrev written (b : Buf) (k : Nat) : Prop := (cellGet? b k).isSome = true

/-- Every buffer byte that a rule may read next has been written since reset (spec/70_reset_and_hazards.md
R322): the part of RXA below RX_CNT, the whole frame in RXC while RX_PEND, the whole frame in TXBUF while
TX_BUSY. -/
abbrev readsWrittenBytes (s : State) (p : Peer) : Prop :=
  (∀ k, k < (s.link p).rxCnt → written (s.link p).rxa k)
    ∧ ((s.link p).rxCnt ≠ 0 → (s.link p).rxExp = s.cfg.flen (rxLayoutOf s.cfg p (s.link p).rxBc))
    ∧ (s.bit (frmStat p) bRxPend = true →
        ∀ k, k < s.cfg.flen (rxLayoutOf s.cfg p (s.link p).rxcBc) → written (s.link p).rxc k)
    ∧ (s.bit (frmStat p) bTxBusy = true → ∀ k, k < (s.link p).txLen → written (s.link p).txbuf k)

/-! ## Frames: what an operation leaves alone -/

/-- Every RTE word outside the list reads as before. -/
abbrev wordsKept (s t : State) (except : List Addr) : Prop := ∀ a, a ∉ except → t.rd a = s.rd a

/-- Every bit of the word outside the list reads as before. -/
abbrev bitsKept (s t : State) (a : Addr) (except : List Nat) : Prop := ∀ n, n ∉ except → t.bit a n = s.bit a n

/-- Nothing outside the RTE and the result changed: the configuration, the hidden state of both links, so
every byte of their buffers, and the words still waiting at the port. -/
abbrev outsideKept (s t : State) : Prop :=
  t.cfg = s.cfg ∧ t.pri = s.pri ∧ t.sec = s.sec ∧ t.port = s.port ∧ t.epoch = s.epoch

/-- Nothing outside the RTE, the result and the hidden state of link `p` changed. -/
abbrev outsideKeptBut (p : Peer) (s t : State) : Prop :=
  t.cfg = s.cfg ∧ (∀ q, q ≠ p → t.link q = s.link q) ∧ t.port = s.port ∧ t.epoch = s.epoch

/-- FLT_LAT of `t` is what the latch rule makes of the words of `s` (spec/44_tmctrl.md R275). -/
abbrev latchedFrom (s t : State) : Prop :=
  ∀ n, t.bit fltLat n = if n < 4 then s.bit fltRaw n || (s.bit fltLat n && !s.bit seqOut (4 + n)) else s.bit fltLat n

/-- A word the port presents is illegal: its `op` is not in the map, or a field its format requires to be
zero is not zero, or it names a fan at or above NFAN (spec/30_encoding.md R112, R114). -/
def wordIllegal (cfg : Config) (w : Cmd) : Prop :=
  let op := (opField w).toNat
  let a := (aField w).toNat
  let d := (dField w).toNat
  op ∉ [0x01, 0x10, 0x11, 0x20, 0x21, 0x30, 0x31, 0x32, 0x40, 0x41, 0x42, 0x43, 0x44, 0x45]
    ∨ (op ∈ [0x01, 0x20, 0x21, 0x30, 0x32, 0x40] ∧ (a ≠ 0 ∨ d ≠ 0))
    ∨ (op = 0x10 ∧ d ≠ 0)
    ∨ (op = 0x31 ∧ (cfg.nfan ≤ a ∨ 4 ≤ a ∨ d ≠ 0))
    ∨ (op ∈ [0x42, 0x43, 0x44, 0x45] ∧ (2 ≤ a ∨ d ≠ 0))
    ∨ (op = 0x41 ∧ (2 ≤ a ∨ 256 ≤ d))

/-- `f` is a valid frame for this block on link `p`, normal or broadcast: its address byte, its length and
its check bytes are right (spec/30_encoding.md R115, R116; spec/41_framer.md R153). -/
def validFrame (cfg : Config) (p : Peer) (bc : Bool) (f : List Byte) : Prop :=
  f.head? = some (if bc then cfg.addrBcast else cfg.addrOwn)
    ∧ f.length = cfg.flen (rxLayoutOf cfg p bc)
    ∧ f.drop (f.length - cfg.chkKind.len) = check cfg.chkKind (f.take (f.length - cfg.chkKind.len))

/-! ## Ownership (spec/10_state.md R23) -/

/-- The owners whose words an operation may change in a run that keeps the ownership convention: its unit's
own words; RX_DRAIN also writes the environment's words its layout names and clears RX_PEND; FAN_TICK also
discards the environment's override commands (spec/10_state.md R23, R55, R62). FLT_LAT follows the latch
rule in every operation that writes the RTE (spec/00_scope.md R16). -/
def mayWrite : Instr → Owner → Bool
  | .reset, _ => true
  | .regRd _, _ => false
  | .regWr _ _, o => o == .env || o == .framer || o == .intcom || o == .latch
  | .gpioTick, o => o == .tmctrl || o == .latch
  | .seqTick, o => o == .tmctrl || o == .latch
  | .fanTick, o => o == .fanctrl || o == .env || o == .latch
  | .tachPulse _, o => o == .fanctrl || o == .latch
  | .fanstatTick, o => o == .fanctrl || o == .latch
  | .liveTick, o => o == .intcom || o == .latch
  | .rxByte _ _, o => o == .framer || o == .latch
  | .rxIdle _, o => o == .framer || o == .latch
  | .rxDrain _, o => o == .intcom || o == .env || o == .framer || o == .latch
  | .txStart _, o => o == .framer || o == .latch
  | .txByte _, o => o == .framer || o == .latch

/-- The run keeps the ownership convention in this step: the layouts of received frames name only words the
environment owns, and a REG_WR presented next is one the environment is expected to make
(spec/40_rte_access.md R143, spec/70_reset_and_hazards.md R335). -/
def stepConforms (s : State) : Prop :=
  layoutsConform s.cfg = true
    ∧ ∀ w rest i, s.port = w :: rest → decode w = .ok i → opConforms s i = true

/-! ## Ranges the rules keep -/

/-- Every duty is in 0..DUTY_FULL (spec/10_state.md R54). -/
abbrev dutiesInRange (s : State) : Prop :=
  ∀ i, i < s.cfg.nfan → s.rdNat (fanAddr i .duty) ≤ s.cfg.dutyFull.toNat

/-- The counters with a limit keep to it (spec/60_exceptions.md R311), the retry counter to its budget
(spec/44_tmctrl.md R264), and FAN_TARGET to FAN_RPM_MAX (spec/10_state.md R50). -/
abbrev countersInRange (s : State) : Prop :=
  (∀ p, s.rdNat (liveCnt p) ≤ (s.cfg.liveReset.get p).toNat)
    ∧ s.rdNat seqDlyCnt ≤ s.cfg.seqStartDelay.toNat
    ∧ s.rdNat seqRetryCnt ≤ s.cfg.retryBudget.toNat
    ∧ (∀ g : Sig, s.rdNat (gpioCnt g) < (if s.bit gpioDb g.index then s.cfg.disDly.get g else s.cfg.enDly.get g).toNat)
    ∧ s.rdNat fanTarget ≤ s.cfg.fanRpmMax.toNat

/-- The two failure bits of each peer are equal (spec/42_intcom.md R198). -/
abbrev failureBitsAgree (s : State) : Prop := ∀ p, s.bit comStat (bUartFail p) = s.bit comStat (bNoData p)

/-- A safe run of `n` steps ends in no refusal: every presented word is legal under a well-formed
configuration. The block has no fault (R290). -/
def runsSafely (n : Nat) (s : State) : Prop := ∃ t, Sys2Proof.core.run n s = .next t

end Sys2Proof.Machine
end

