-- ==== Sys2Proof/Certificates/Slice0/Obligations.lean ====
section
/-! DEFINITION. The statements for the provers, one `def Obligations.<Name> : Prop` each. Those about an
operation say that it answers a next state, what that state holds and what it leaves as it was; a
configuration is required to be well-formed only where a rule needs it (spec/00_scope.md R10). -/

section

open Sys2Proof Sys2Proof.Machine

/-! ## Command words and the step -/

/-- Decoding the word of any operation, every operand at every value, gives the operation back
(R111 to R113). -/
def Obligations.DecodeOfEncode : Prop := ∀ i : Instr, decode (encode i) = .ok i

/-- Two words that decode to the same operation are the same word: no bit of a word is dropped (R111,
R114: "every unused field is checked"). -/
def Obligations.EncodeOfDecode : Prop := ∀ (w : Cmd) (i : Instr), decode w = .ok i → encode i = w

/-- A word decodes exactly when a row of the opcode map covers it, the row is the only one that does, and
its mnemonic is the operation's (R113). -/
def Obligations.WordsDecodeByTheirRow : Prop :=
  (∀ w : Cmd, (∃ i, decode w = .ok i) ↔ ∃ r ∈ opcodeMap, r.covers w = true)
    ∧ ∀ (w : Cmd) (i : Instr), decode w = .ok i →
        ∀ r ∈ opcodeMap, (r.covers w = true ↔ r.mnemonic = i.mnemonic)

/-- Words written out from the opcode map and the formats decode to the operations they stand for. -/
def Obligations.SampleWordsDecode : Prop :=
  decode 0x01000000 = .ok .reset
    ∧ decode 0x10600000 = .ok (.regRd 0x60)
    ∧ decode 0x11020009 = .ok (.regWr 0x02 0x0009)
    ∧ decode 0x21000000 = .ok .seqTick
    ∧ decode 0x31010000 = .ok (.tachPulse 1)
    ∧ decode 0x40000000 = .ok .liveTick
    ∧ decode 0x410100FF = .ok (.rxByte .sec 0xFF)
    ∧ decode 0x44010000 = .ok (.txStart .sec)

/-- The model takes no step for an illegal word and for no other word (R112, R114). -/
def Obligations.IllegalWordsAreRefused : Prop :=
  ∀ (s : State) (w : Cmd) (rest : List Cmd), s.cfg.wf = true → s.port = w :: rest →
    ((∃ r, step s = .refused r) ↔ wordIllegal s.cfg w)

/-- A step performs the operation that the presented word decodes to, the words behind it still waiting
(R24, R110); the word of any legal operation presented by `withFetchWord` is performed in the state given;
with nothing presented the state stays; and under a configuration that is not well-formed every step is
refused, the idle step included (R10: "a model refuses any other"). The idle step and `withFetchWord` are
the model's (log entry 2), and so is that the refusal is the step's (log entry 9). -/
def Obligations.StepRunsPresentedOperation : Prop :=
  (∀ (s : State) (w : Cmd) (rest : List Cmd) (i : Instr), s.cfg.wf = true → s.port = w :: rest →
      decode w = .ok i → Instr.wf s.cfg i = true → step s = exec i (s.withPort rest))
    ∧ (∀ (s : State) (i : Instr), s.cfg.wf = true → Instr.wf s.cfg i = true →
        step (s.withFetchWord 32 (encode i).toNat) = exec i s)
    ∧ (∀ s : State, s.cfg.wf = true → s.port = [] → step s = .next s)
    ∧ ∀ s : State, s.cfg.wf = false → step s = .refused .illFormedConfig

/-- Every operation that is legal under the configuration ends with a next state, whatever the state; only
REG_RD and TX_BYTE return a value; none writes the configuration (R8, R9, R110). -/
def Obligations.EveryLegalOperationCompletes : Prop :=
  ∀ (i : Instr) (s : State), Instr.wf s.cfg i = true →
    ∃ t, exec i s = .next t ∧ t.cfg = s.cfg ∧ t.port = s.port
      ∧ (t.result ≠ .none → (∃ a, i = .regRd a) ∨ ∃ p, i = .txByte p)

/-- No step writes the configuration, and a step takes at most the first word of the port (R9; the port is
the model's, log entry 2). -/
def Obligations.ConfigurationIsNeverWritten : Prop :=
  ∀ s t : State, step s = .next t → t.cfg = s.cfg ∧ t.port = s.port.tail

/-! ## RESET, REG_RD, REG_WR -/

/-- REG_RD returns the word and changes nothing (R141). -/
def Obligations.RegRdReturnsWord : Prop :=
  ∀ (s : State) (a : Addr), exec (.regRd a) s = .next (s.withResult (.word (s.rd a)))

/-- REG_WR stores all sixteen bits at any address, applies the latch rule to what is then in FLT_RAW,
SEQ_OUT and FLT_LAT, and changes nothing else (R142). -/
def Obligations.RegWrStoresWord : Prop :=
  ∀ (s : State) (a : Addr) (d : Word), ∃ t, exec (.regWr a d) s = .next t
    ∧ t.result = .none ∧ outsideKept s t
    ∧ (∀ b, b ≠ fltLat → t.rd b = if b = a then d else s.rd b)
    ∧ ∀ n, t.bit fltLat n =
        let held := fun b => (if b = a then d else s.rd b).getLsbD
        if n < 4 then held fltRaw n || (held fltLat n && !held seqOut (4 + n)) else held fltLat n

/-- RESET: every word 0 but the two liveness counters, every hidden counter and flag 0, no buffer byte
written since; the latch rule then changes nothing (R140). -/
def Obligations.ResetClearsState : Prop :=
  ∀ s : State, ∃ t, exec .reset s = .next t
    ∧ t.result = .none ∧ t.cfg = s.cfg ∧ t.port = s.port
    ∧ (∀ a, t.rd a = if a = liveCnt .pri then s.cfg.liveReset.pri
        else if a = liveCnt .sec then s.cfg.liveReset.sec else 0)
    ∧ (∀ p, t.link p = Link.reset)
    ∧ (Link.reset.rxCnt = 0 ∧ Link.reset.rxExp = 0 ∧ Link.reset.rxBc = false ∧ Link.reset.rxSkip = false
        ∧ Link.reset.rxcBc = false ∧ Link.reset.txLen = 0 ∧ Link.reset.txIdx = 0)
    ∧ ∀ a, (latchUpdate t).rd a = t.rd a

/-- The state after power-on, under every configuration: every word 0 but the two liveness counters, and
every hidden counter and flag 0 (R70, R72, R75). -/
def Obligations.PowerOnState : Prop :=
  ∀ cfg : Config,
    (∀ a, (State.resetWith cfg).rd a = if a = liveCnt .pri then cfg.liveReset.pri
        else if a = liveCnt .sec then cfg.liveReset.sec else 0)
    ∧ (∀ p, ((State.resetWith cfg).link p).rxCnt = 0 ∧ ((State.resetWith cfg).link p).rxExp = 0
        ∧ ((State.resetWith cfg).link p).rxBc = false ∧ ((State.resetWith cfg).link p).rxSkip = false
        ∧ ((State.resetWith cfg).link p).rxcBc = false ∧ ((State.resetWith cfg).link p).txLen = 0
        ∧ ((State.resetWith cfg).link p).txIdx = 0)
    ∧ (State.resetWith cfg).cfg = cfg

/-- After RESET every byte of every buffer is the free value of its own cell and of this reset, whatever
the buffers held before; two cells never share a free value's argument. Free values are the model's form
of the unspecified contents (R71, R322; log entry 4). -/
def Obligations.BuffersAreFreeAfterReset : Prop :=
  (∀ s t : State, exec .reset s = .next t →
      ∀ b p k, t.bufByte b p k = Config.freeBufferByte (s.epoch + 1) (cellNumber b p k))
    ∧ ∀ b p k b' p' k', cellNumber b p k = cellNumber b' p' k' → b = b' ∧ p = p' ∧ k = k'

/-! ## Memory -/

/-- The RTE and all six buffers keep their canonical form in every step (R21, R66). -/
def Obligations.MemoryStaysCanonical : Prop :=
  ∀ s t : State, Memory.wf s = true → step s = .next t → Memory.wf t = true

/-- Little-endian fields: byte `k` of a serialised value is `v / 256^k mod 256`, and reading the bytes
back gives the value (R83). -/
def Obligations.FieldsAreLittleEndian : Prop :=
  (∀ n v k, k < n → (leBytes n v)[k]? = some (BitVec.ofNat 8 (v / 256 ^ k % 256)))
    ∧ (∀ n v, (leBytes n v).length = n)
    ∧ (∀ n v, v < 256 ^ n → leValue (leBytes n v) = v)
    ∧ ∀ bs : List Byte, leBytes bs.length (leValue bs) = bs

/-! ## The fault latch, the debounce and the sequencer -/

/-- The latch rule: per fault, raw or (latched and not cleared); bits 15:4 and every other word stay; it
is idempotent (R275). -/
def Obligations.LatchRule : Prop :=
  ∀ s : State, latchedFrom s (latchUpdate s) ∧ wordsKept s (latchUpdate s) [fltLat]
    ∧ outsideKept s (latchUpdate s)
    ∧ ∀ a, (latchUpdate (latchUpdate s)).rd a = (latchUpdate s).rd a

/-- The latch rule holds after every operation, those that change no state and do not apply it included, from
every state in which it held before (R16, R275; which operations apply it is log entry 5). -/
def Obligations.LatchRuleHoldsAfterEveryOperation : Prop :=
  ∀ (i : Instr) (s t : State), latchesAgree s → exec i s = .next t →
    ∀ a, (latchUpdate t).rd a = t.rd a

/-- Every step keeps the latches in agreement with the raw conditions and the clear requests (R276). -/
def Obligations.LatchesStayConsistent : Prop :=
  ∀ s t : State, latchesAgree s → step s = .next t → latchesAgree t

/-- The enable conditions: HALT inactive, bulk voltage OK, no fault latched, and switch-enable if it gates
(R260). -/
def Obligations.EnableConditions : Prop :=
  ∀ s : State, healthy s = true ↔
    s.bit gpioDb bHaltDb = false ∧ s.bit gpioDb bBulkOkDb = true ∧ (∀ k, k < 4 → s.bit fltLat k = false)
      ∧ (s.cfg.seqGateSwen = false ∨ s.bit gpioDb bSwenDb = true)

/-- GPIO_TICK, for each of the three signals by itself (R252). -/
def Obligations.GpioTickDebounces : Prop :=
  ∀ s : State, ∃ t, exec .gpioTick s = .next t ∧ t.result = .none ∧ outsideKept s t
    ∧ (∀ g : Sig,
        let raw := s.bit gpioRaw g.index
        let db := s.bit gpioDb g.index
        let c := s.rdNat (gpioCnt g)
        let thr := (if db then s.cfg.disDly.get g else s.cfg.enDly.get g).toNat
        t.bit gpioDb g.index = (if raw ≠ db ∧ thr ≤ c + 1 then raw else db)
          ∧ t.rdNat (gpioCnt g) = (if raw ≠ db then (if thr ≤ c + 1 then 0 else c + 1) else c - 1))
    ∧ bitsKept s t gpioDb [bHaltDb, bSwenDb, bBulkOkDb] ∧ latchedFrom s t
    ∧ wordsKept s t [gpioDb, gpioCnt .halt, gpioCnt .swen, gpioCnt .bulk, fltLat]

/-- A raw input that disagrees for as many GPIO_TICKs in a row as the threshold, from a zero counter,
flips the debounced value in the last of them and not before (R253). -/
def Obligations.DebounceFlipsAtTheThreshold : Prop :=
  ∀ (s : State) (g : Sig) (n : Nat), s.bit gpioRaw g.index ≠ s.bit gpioDb g.index → s.rdNat (gpioCnt g) = 0 →
    let thr := (if s.bit gpioDb g.index then s.cfg.disDly.get g else s.cfg.enDly.get g).toNat
    1 ≤ thr → n ≤ thr →
      ∃ t, perform (repeatOp n .gpioTick) s = .next t
        ∧ t.bit gpioDb g.index = (if n < thr then s.bit gpioDb g.index else s.bit gpioRaw g.index)
        ∧ t.rdNat (gpioCnt g) = (if n < thr then n else 0)

/-- SEQ_TICK in INIT: the enable outputs fall, and the delay is counted or, when it is over, left for IDLE
(R262). -/
def Obligations.SeqTickInInit : Prop :=
  ∀ s : State, s.rd seqState = stInit → ∃ t, exec .seqTick s = .next t ∧ t.result = .none ∧ outsideKept s t
    ∧ enableOutputs t = 0 ∧ bitsKept s t seqOut [bPwmEn, bAcsEn, bOringEn, bStageEn]
    ∧ (if s.cfg.seqStartDelay.toNat ≤ s.rdNat seqDlyCnt then t.rd seqState = stIdle ∧ t.rdNat seqDlyCnt = 0
        else t.rd seqState = stInit ∧ t.rdNat seqDlyCnt = s.rdNat seqDlyCnt + 1)
    ∧ latchedFrom s t ∧ wordsKept s t [seqState, seqOut, seqDlyCnt, fltLat]

/-- SEQ_TICK in IDLE: the re-arm by a clear request or an input-voltage loss, the automatic clear of UVP
and OCP while budget remains, the move to ON with every clear request taken away, and the latch rule with
the clear requests just written (R263, R264). -/
def Obligations.SeqTickInIdle : Prop :=
  ∀ s : State, s.rd seqState = stIdle →
    let rearm := s.bit sysIn bFaultClrReq || s.bit sysIn bVinLoss
    let used := if rearm then 0 else s.rdNat seqRetryCnt
    let raised := rearm || (s.bit seqOut bClrUvp && s.bit seqOut bClrOcp)
    let auto := (s.bit fltLat bUvp || s.bit fltLat bOcp) && decide (used < s.cfg.retryBudget.toNat) && !raised
    ∃ t, exec .seqTick s = .next t ∧ t.result = .none ∧ outsideKept s t
      ∧ t.rd seqState = (if healthy s then stOn else stIdle)
      ∧ (∀ k, k < 4 → t.bit seqOut (4 + k) =
          (!healthy s && (s.bit seqOut (4 + k) || rearm || (auto && (k == bUvp || k == bOcp)))))
      ∧ t.rdNat seqRetryCnt = (if auto then used + 1 else used)
      ∧ bitsKept s t seqOut [4, bClrUvp, bClrOcp, 7]
      ∧ (∀ k, k < 4 → t.bit fltLat k = (s.bit fltRaw k || (s.bit fltLat k && !t.bit seqOut (4 + k))))
      ∧ bitsKept s t fltLat [bOvp, bUvp, bOcp, bOpp]
      ∧ wordsKept s t [seqState, seqOut, seqRetryCnt, fltLat]

/-- SEQ_TICK in ON: while healthy the three enables are raised, STAGE_EN with them once SYNC_START is seen;
otherwise all four fall and the state is OFF, in the same operation (R265). -/
def Obligations.SeqTickInOn : Prop :=
  ∀ s : State, s.rd seqState = stOn → ∃ t, exec .seqTick s = .next t ∧ t.result = .none ∧ outsideKept s t
    ∧ (if healthy s then
        t.rd seqState = stOn ∧ t.bit seqOut bPwmEn = true ∧ t.bit seqOut bAcsEn = true
          ∧ t.bit seqOut bOringEn = true
          ∧ t.bit seqOut bStageEn = (s.bit seqOut bStageEn || s.bit sysIn bSyncStart)
      else t.rd seqState = stOff ∧ enableOutputs t = 0)
    ∧ bitsKept s t seqOut [bPwmEn, bAcsEn, bOringEn, bStageEn]
    ∧ latchedFrom s t ∧ wordsKept s t [seqState, seqOut, fltLat]

/-- SEQ_TICK in OFF: the enable outputs fall, the delay counter is zeroed and INIT follows, whatever the
inputs are; in an unrecognized state INIT is written, and nothing else but what the latch rule gives
(R266, R267). -/
def Obligations.SeqTickInOffAndUnrecognized : Prop :=
  (∀ s : State, s.rd seqState = stOff → ∃ t, exec .seqTick s = .next t ∧ t.result = .none ∧ outsideKept s t
    ∧ enableOutputs t = 0 ∧ t.rd seqState = stInit ∧ t.rd seqDlyCnt = 0
    ∧ bitsKept s t seqOut [bPwmEn, bAcsEn, bOringEn, bStageEn]
    ∧ latchedFrom s t ∧ wordsKept s t [seqState, seqOut, seqDlyCnt, fltLat])
  ∧ ∀ s : State, 4 ≤ s.rdNat seqState → ∃ t, exec .seqTick s = .next t ∧ t.result = .none ∧ outsideKept s t
    ∧ t.rd seqState = stInit ∧ latchedFrom s t ∧ wordsKept s t [seqState, fltLat]

/-- In a run that keeps the ownership convention each operation changes only words of the owners it acts
for; so no other operation writes a word of tmctrl (R23, R143, R250). -/
def Obligations.OnlyOwnersWrite : Prop :=
  ∀ (i : Instr) (s t : State) (a : Addr), s.cfg.wf = true → layoutsConform s.cfg = true →
    opConforms s i = true → exec i s = .next t → t.rd a ≠ s.rd a → mayWrite i (ownerOf s.cfg a) = true

/-- In a run that keeps the ownership convention the sequencer state is one of the four, and the enable
outputs are raised in ON only (R268). -/
def Obligations.EnablesOnlyInOn : Prop :=
  ∀ (s t : State), stepConforms s →
    knownSeqState s ∧ enablesOnlyInOn s → step s = .next t → knownSeqState t ∧ enablesOnlyInOn t

/-- The state changes a SEQ_TICK can make: never from IDLE to OFF, nor from OFF to ON (R268). -/
def Obligations.SequencerTransitions : Prop :=
  ∀ s t : State, exec .seqTick s = .next t →
    (s.rd seqState = stInit ∧ (t.rd seqState = stInit ∨ t.rd seqState = stIdle))
      ∨ (s.rd seqState = stIdle ∧ (t.rd seqState = stIdle ∨ t.rd seqState = stOn))
      ∨ (s.rd seqState = stOn ∧ (t.rd seqState = stOn ∨ t.rd seqState = stOff))
      ∨ (s.rd seqState = stOff ∧ t.rd seqState = stInit)
      ∨ (4 ≤ s.rdNat seqState ∧ t.rd seqState = stInit)

/-! ## The fan control loop -/

/-- The baseline of a well-formed stage table: the first stage's minimum at and below its temperature, the
interpolation inside a stage, the lower stage's maximum in a gap, the last stage's maximum at and above its
temperature (R213). -/
def Obligations.BaselineSpeed : Prop :=
  ∀ (tbl : List Stage) (t : Int), stagesWf tbl = true →
    (∀ st rest, tbl = st :: rest → t ≤ s16 st.tmin → pwl tbl t = st.smin.toNat)
      ∧ (∀ st ∈ tbl, s16 st.tmin ≤ t → t < s16 st.tmax →
          pwl tbl t = st.smin.toNat
            + ((t - s16 st.tmin) * ((st.smax.toNat : Int) - st.smin.toNat)) / (s16 st.tmax - s16 st.tmin))
      ∧ (∀ l a b r, tbl = l ++ a :: b :: r → s16 a.tmax ≤ t → t < s16 b.tmin → pwl tbl t = a.smax.toNat)
      ∧ ∀ l st, tbl = l ++ [st] → s16 st.tmax ≤ t → pwl tbl t = st.smax.toNat

/-- The baseline of a well-formed stage table never falls when the temperature rises, over the whole range
of temperatures (R216). -/
def Obligations.BaselineSpeedIsMonotone : Prop :=
  ∀ (tbl : List Stage) (t u : Int), stagesWf tbl = true → t ≤ u → pwl tbl t ≤ pwl tbl u

/-- FAN_TICK stores the target: baseline for the detected line and the selected temperature, load term above
its threshold and line-voltage term, both Q12, clamped to the maximum RPM (R212, R214, R215, R216). -/
def Obligations.FanTickStoresTarget : Prop :=
  ∀ s : State, s.cfg.wf = true → ∃ t, exec .fanTick s = .next t
    ∧ (let temp := match s.cfg.fanTsrc with
        | .amb => s16 (s.rd tAmb)
        | .hot => s16 (s.rd tHot)
        | .diff => max (s16 (s.rd tHot) - s16 (s.rd tAmb)) 0
      let table := if s.bit sysIn bLineHigh then s.cfg.stgHi else s.cfg.stgLo
      let load := if s.rdNat loadMeas > s.cfg.loadThr.toNat then
          ((s.rdNat loadMeas - s.cfg.loadThr.toNat) * s.cfg.loadSlope.toNat) >>> 12 else 0
      let vin := if s.cfg.fanVinEn then (s.rdNat vinMeas * s.cfg.vinSlope.toNat) >>> 12 else 0
      (t.rdNat fanTarget : Int) = min (pwl table temp + load + vin) s.cfg.fanRpmMax.toNat)

/-- FAN_TICK, for every fan: the override word, the two status bits, the effective speed, the error against
the fastest fan, the step of its band, the clamp and the forced duties; and everything it leaves alone
(R211, R217 to R223). -/
def Obligations.FanTickDrivesEveryFan : Prop :=
  ∀ (s : State) (meas : Nat), s.cfg.wf = true →
    (∀ k, k < s.cfg.nfan → s.rdNat (fanAddr k .speed) ≤ meas) →
    (∃ k, k < s.cfg.nfan ∧ s.rdNat (fanAddr k .speed) = meas) →
    ∃ t, exec .fanTick s = .next t ∧ t.result = .none ∧ outsideKept s t ∧ latchedFrom s t
      ∧ (∀ a, a ≠ fanTarget → a ≠ fltLat →
          (∀ i, i < s.cfg.nfan → a ≠ fanAddr i .ovr ∧ a ≠ fanAddr i .stat ∧ a ≠ fanAddr i .duty) →
          t.rd a = s.rd a)
      ∧ ∀ i, i < s.cfg.nfan →
        let tgt := t.rdNat fanTarget
        let o := s.rdNat (fanAddr i .ovr)
        let wins := s.bit sysIn bDbgUnlocked && decide (o * s.cfg.fanRpmMax.toNat > tgt * s.cfg.dutyFull.toNat)
        let eff := if wins then min (o * s.cfg.fanRpmMax.toNat / s.cfg.dutyFull.toNat) 65535 else tgt
        let err : Int := (eff : Int) - meas
        let d : Int :=
          if err > s.cfg.errBig.toNat then s.cfg.stepBig.toNat
          else if err > s.cfg.errMid.toNat then s.cfg.stepMid.toNat
          else if err > 0 then s.cfg.stepSmall.toNat
          else if err < 0 then -(s.cfg.stepDn.toNat : Int)
          else 0
        let lo : Int := if (∃ k, k < s.cfg.nfan ∧ t.bit (fanAddr k .stat) bOvrAct = true) then 0
          else s.cfg.dutyFloor.toNat
        t.rd (fanAddr i .ovr) = (if s.bit sysIn bDbgUnlocked then s.rd (fanAddr i .ovr) else 0)
          ∧ t.bit (fanAddr i .stat) bOvrAct = wins
          ∧ t.bit (fanAddr i .stat) bIo = s.bit tachLvl i
          ∧ bitsKept s t (fanAddr i .stat) [bOvrAct, bIo]
          ∧ (if s.bit sysIn bBootMode then t.rd (fanAddr i .duty) = s.cfg.dutyBoot
            else if s.bit sysIn bAcLoss then t.rd (fanAddr i .duty) = s.cfg.dutyAcloss
            else (t.rdNat (fanAddr i .duty) : Int)
              = min (max ((s.rdNat (fanAddr i .duty) : Int) + d) lo) s.cfg.dutyMax.toNat)

/-- In a run that keeps the ownership convention every duty stays in 0..DUTY_FULL (R54, R222). -/
def Obligations.DutiesStayInRange : Prop :=
  ∀ (s t : State), stepConforms s →
    dutiesInRange s → step s = .next t → dutiesInRange t

/-- TACH_PULSE counts one pulse of a fan that exists, saturating, and leaves everything else; a fan that
does not exist makes the word illegal (R114, R230). -/
def Obligations.TachPulseCounts : Prop :=
  ∀ (s : State) (i : Fin 4),
    (i.val < s.cfg.nfan → ∃ t, exec (.tachPulse i) s = .next t ∧ t.result = .none ∧ outsideKept s t
      ∧ t.rdNat (fanAddr i .pulse) = min (s.rdNat (fanAddr i .pulse) + 1) 65535
      ∧ latchedFrom s t ∧ wordsKept s t [fanAddr i .pulse, fltLat])
    ∧ (s.cfg.nfan ≤ i.val → exec (.tachPulse i) s = .refused (.noSuchFan i))

/-- FANSTAT_TICK, for every fan: the speed of the window, the pulse count cleared, the three counters, and
the status bits while INPUT_OK; and everything it leaves alone (R231, R232, R233). -/
def Obligations.FanstatTickJudgesEveryFan : Prop :=
  ∀ s : State, s.cfg.wf = true → ∃ t, exec .fanstatTick s = .next t ∧ t.result = .none ∧ outsideKept s t
    ∧ latchedFrom s t
    ∧ (∀ a, a ≠ fltLat →
        (∀ i, i < s.cfg.nfan → a ≠ fanAddr i .pulse ∧ a ≠ fanAddr i .speed ∧ a ≠ fanAddr i .warnCnt
          ∧ a ≠ fanAddr i .failCnt ∧ a ≠ fanAddr i .okCnt ∧ a ≠ fanAddr i .stat) → t.rd a = s.rd a)
    ∧ ∀ i, i < s.cfg.nfan →
      let spd := min (s.rdNat (fanAddr i .pulse) * s.cfg.tachScale.toNat) 65535
      let w := if spd < s.cfg.warnThr.toNat then min (s.rdNat (fanAddr i .warnCnt) + 1) 65535 else 0
      let f := if spd < s.cfg.failThr.toNat then min (s.rdNat (fanAddr i .failCnt) + 1) 65535 else 0
      let k := if spd > s.cfg.recovThr.toNat then min (s.rdNat (fanAddr i .okCnt) + 1) 65535 else 0
      t.rdNat (fanAddr i .speed) = spd ∧ t.rdNat (fanAddr i .pulse) = 0
        ∧ t.rdNat (fanAddr i .warnCnt) = w ∧ t.rdNat (fanAddr i .failCnt) = f ∧ t.rdNat (fanAddr i .okCnt) = k
        ∧ bitsKept s t (fanAddr i .stat) [bWarn, bFail]
        ∧ t.bit (fanAddr i .stat) bWarn =
            (if s.bit sysIn bInputOk then
              !decide (s.cfg.mOk.toNat ≤ k) && (s.bit (fanAddr i .stat) bWarn || decide (s.cfg.nWarn.toNat ≤ w))
            else s.bit (fanAddr i .stat) bWarn)
        ∧ t.bit (fanAddr i .stat) bFail =
            (if s.bit sysIn bInputOk then
              !decide (s.cfg.mOk.toNat ≤ k) && (s.bit (fanAddr i .stat) bFail || decide (s.cfg.nFail.toNat ≤ f))
            else s.bit (fanAddr i .stat) bFail)

/-- In one window a set and the clear never fire together: a recovered window has zeroed the other two
counters, so the order of the three judgments is immaterial (R232). -/
def Obligations.JudgmentsAreExclusive : Prop :=
  ∀ (s t : State) (i : Nat), s.cfg.wf = true → i < s.cfg.nfan → exec .fanstatTick s = .next t →
    s.cfg.mOk.toNat ≤ t.rdNat (fanAddr i .okCnt) →
      t.rdNat (fanAddr i .warnCnt) < s.cfg.nWarn.toNat ∧ t.rdNat (fanAddr i .failCnt) < s.cfg.nFail.toNat

/-- A failed fan does not stop the loops. In two states that differ only in status words and judgment counters
FAN_TICK leaves every other word the same, and the same OVR_ACT and IO bits of the status words. In two
states that differ only inside the fan records SEQ_TICK leaves every word outside them the same (R234). -/
def Obligations.FanHealthDoesNotReachControl : Prop :=
  ∀ s u : State, s.cfg = u.cfg → s.cfg.wf = true →
    ((∀ a, (∀ i, i < s.cfg.nfan → a ≠ fanAddr i .stat ∧ a ≠ fanAddr i .warnCnt ∧ a ≠ fanAddr i .failCnt
          ∧ a ≠ fanAddr i .okCnt) → s.rd a = u.rd a) →
      ∃ t v, exec .fanTick s = .next t ∧ exec .fanTick u = .next v
        ∧ (∀ a, (∀ i, i < s.cfg.nfan → a ≠ fanAddr i .stat ∧ a ≠ fanAddr i .warnCnt ∧ a ≠ fanAddr i .failCnt
          ∧ a ≠ fanAddr i .okCnt) → t.rd a = v.rd a)
        ∧ ∀ i, i < s.cfg.nfan → t.bit (fanAddr i .stat) bOvrAct = v.bit (fanAddr i .stat) bOvrAct
          ∧ t.bit (fanAddr i .stat) bIo = v.bit (fanAddr i .stat) bIo)
    ∧ ((∀ a, inFanRecord s.cfg a = false → s.rd a = u.rd a) →
      ∃ t v, exec .seqTick s = .next t ∧ exec .seqTick u = .next v
        ∧ ∀ a, inFanRecord s.cfg a = false → t.rd a = v.rd a)

/-! ## Liveness -/

/-- LIVE_TICK: each counter down by one and holding at 0; a counter at 0 after that sets its peer's two
bits, and COM_FAULT while VIN_OK; no bit of COM_STAT is cleared; then the latch rule (R16, R195, R196). -/
def Obligations.LiveTickCountsDown : Prop :=
  ∀ s : State, ∃ t, exec .liveTick s = .next t ∧ t.result = .none ∧ outsideKept s t
    ∧ (∀ p, t.rdNat (liveCnt p) = s.rdNat (liveCnt p) - 1
        ∧ t.bit comStat (bUartFail p) = (s.bit comStat (bUartFail p) || decide (t.rdNat (liveCnt p) = 0))
        ∧ t.bit comStat (bNoData p) = (s.bit comStat (bNoData p) || decide (t.rdNat (liveCnt p) = 0)))
    ∧ (t.bit comStat bComFault = true ↔ s.bit comStat bComFault = true
        ∨ (s.bit sysIn bVinOk = true ∧ ∃ p, t.rdNat (liveCnt p) = 0))
    ∧ bitsKept s t comStat [bUartFail .pri, bNoData .pri, bUartFail .sec, bNoData .sec, bComFault]
    ∧ latchedFrom s t ∧ wordsKept s t [comStat, liveCnt .pri, liveCnt .sec, fltLat]

/-- With the counter at N and no frame drained, the N-th LIVE_TICK reports the peer failed; before it the
two bits are as they were (R197). -/
def Obligations.SilentPeerIsReportedAtTheNthTick : Prop :=
  ∀ (s : State) (p : Peer) (n : Nat), ∃ t, perform (repeatOp n .liveTick) s = .next t
    ∧ t.rdNat (liveCnt p) = s.rdNat (liveCnt p) - n
    ∧ (n < s.rdNat (liveCnt p) → t.bit comStat (bUartFail p) = s.bit comStat (bUartFail p)
        ∧ t.bit comStat (bNoData p) = s.bit comStat (bNoData p))
    ∧ (1 ≤ n → s.rdNat (liveCnt p) ≤ n →
        t.bit comStat (bUartFail p) = true ∧ t.bit comStat (bNoData p) = true)

/-- In a run that keeps the ownership convention LIVE_CNT, SEQ_DLY_CNT and the debounce counters keep to their
limits (R311), SEQ_RETRY_CNT to RETRY_BUDGET (R264), FAN_TARGET to FAN_RPM_MAX (R50, R216), and the two
failure bits of each peer stay equal (R198). -/
def Obligations.CountersStayInRange : Prop :=
  ∀ (s t : State), stepConforms s →
    countersInRange s ∧ failureBitsAgree s → step s = .next t → countersInRange t ∧ failureBitsAgree t

/-! ## Frames out -/

/-- A TX_START on a link that is sending or receiving sets TX_REFUSED and changes nothing else (R192); the
latch rule at its end (R16) changes FLT_LAT in no state in which the latches agree with it. -/
def Obligations.TxStartIsRefused : Prop :=
  ∀ (s : State) (p : Peer), s.bit (frmStat p) bTxBusy = true ∨ 0 < (s.link p).rxCnt →
    ∃ t, exec (.txStart p) s = .next t ∧ t.result = .none ∧ outsideKept s t
      ∧ t.bit (frmStat p) bTxRefused = true ∧ bitsKept s t (frmStat p) [bTxRefused]
      ∧ latchedFrom s t ∧ (latchesAgree s → t.rd fltLat = s.rd fltLat) ∧ wordsKept s t [frmStat p, fltLat]

/-- A TX_START on a quiet link puts the outgoing frame into TXBUF[p], sets its length, zeroes the cursor and
raises TX_BUSY; nothing else changes but what the latch rule gives (R16, R190). -/
def Obligations.TxStartBuildsFrame : Prop :=
  ∀ (s : State) (p : Peer), s.cfg.wf = true → s.bit (frmStat p) bTxBusy = false → (s.link p).rxCnt = 0 →
    ∃ t, exec (.txStart p) s = .next t ∧ t.result = .none ∧ outsideKeptBut p s t
      ∧ (t.link p).txLen = s.cfg.flen (s.cfg.txLayout.get p) ∧ (t.link p).txIdx = 0
      ∧ t.bufBytes .txbuf p 0 (t.link p).txLen = outgoingFrame s p
      ∧ (∀ k, (t.link p).txLen ≤ k → t.bufByte .txbuf p k = s.bufByte .txbuf p k)
      ∧ { t.link p with txbuf := (s.link p).txbuf, txLen := (s.link p).txLen, txIdx := (s.link p).txIdx }
          = s.link p
      ∧ t.bit (frmStat p) bTxBusy = true ∧ bitsKept s t (frmStat p) [bTxBusy]
      ∧ latchedFrom s t ∧ wordsKept s t [frmStat p, fltLat]

/-- The outgoing frame: the peer's address, then every field of the layout little-endian at its offset
without padding, then the check bytes over all of that (R115, R153, R190). -/
def Obligations.OutgoingFrameShape : Prop :=
  ∀ (s : State) (p : Peer),
    let f := outgoingFrame s p
    let l := s.cfg.txLayout.get p
    f.length = 1 + l.pay + s.cfg.chkKind.len
      ∧ f.head? = some (s.cfg.addrPeer.get p)
      ∧ (∀ l1 e l2, l = l1 ++ e :: l2 → (f.drop (1 + Layout.pay l1)).take e.bytes =
          leBytes e.bytes (match e.width with | .w32 => s.rd32 e.addr | _ => s.rdNat e.addr))
      ∧ f.drop (1 + l.pay) = check s.cfg.chkKind (f.take (1 + l.pay))

/-- TX_BYTE changes nothing while nothing is sent. Otherwise: past the end the bit is cleared and nothing handed
over, before it the next byte is handed over, the cursor moves on and TX_BUSY is cleared with the last byte;
then the latch rule (R16, R168). -/
def Obligations.TxByteHandsOverTheNextByte : Prop :=
  (∀ (s : State) (p : Peer), s.bit (frmStat p) bTxBusy = false →
    exec (.txByte p) s = .next (s.withResult .none))
  ∧ ∀ (s : State) (p : Peer), s.bit (frmStat p) bTxBusy = true →
    ∃ t, exec (.txByte p) s = .next t ∧ outsideKeptBut p s t
      ∧ latchedFrom s t ∧ wordsKept s t [frmStat p, fltLat] ∧ bitsKept s t (frmStat p) [bTxBusy]
      ∧ (if (s.link p).txLen ≤ (s.link p).txIdx then
        t.result = .none ∧ t.link p = s.link p ∧ t.bit (frmStat p) bTxBusy = false
      else
        t.result = .byte (s.bufByte .txbuf p (s.link p).txIdx)
          ∧ t.link p = { s.link p with txIdx := (s.link p).txIdx + 1 }
          ∧ t.bit (frmStat p) bTxBusy = decide ((s.link p).txIdx + 1 < (s.link p).txLen))

/-- A transmission hands over exactly the frame built at its TX_START, and then TX_BUSY is 0 (R167). -/
def Obligations.TransmissionSendsTheFrame : Prop :=
  ∀ (s : State) (p : Peer), s.cfg.wf = true → s.bit (frmStat p) bTxBusy = false → (s.link p).rxCnt = 0 →
    (txFrame p s).1 = outgoingFrame s p ∧ ((txFrame p s).2).bit (frmStat p) bTxBusy = false

/-! ## Frames in -/

/-- RX_BYTE is ignored while the link sends and while the receiver skips. Between frames the two address
bytes start a frame of their layout's length; any other byte is an address error; the latch rule follows
(R16, R155, R156, R158). -/
def Obligations.RxByteBetweenFrames : Prop :=
  (∀ (s : State) (p : Peer) (b : Byte),
    s.bit (frmStat p) bTxBusy = true ∨ ((s.link p).rxCnt = 0 ∧ (s.link p).rxSkip = true) →
      exec (.rxByte p b) s = .next (s.withResult .none))
  ∧ ∀ (s : State) (p : Peer) (b : Byte), s.bit (frmStat p) bTxBusy = false → (s.link p).rxCnt = 0 →
    (s.link p).rxSkip = false →
    ∃ t, exec (.rxByte p b) s = .next t ∧ t.result = .none ∧ outsideKeptBut p s t
      ∧ latchedFrom s t ∧ wordsKept s t [frmStat p, fltLat] ∧ bitsKept s t (frmStat p) [bAddrErr]
      ∧ (if b = s.cfg.addrOwn ∨ b = s.cfg.addrBcast then
          t.link p = { s.link p with
              rxCnt := 1, rxBc := decide (b ≠ s.cfg.addrOwn),
              rxExp := s.cfg.flen (if b = s.cfg.addrOwn then s.cfg.rxLayout.get p else s.cfg.rxbLayout.get p),
              rxa := bufWrite (s.link p).rxa 0 b }
            ∧ t.bufByte .rxa p 0 = b ∧ t.bit (frmStat p) bAddrErr = s.bit (frmStat p) bAddrErr
        else t.link p = { s.link p with rxSkip := true } ∧ t.bit (frmStat p) bAddrErr = true)

/-- RX_BYTE inside a frame that it does not complete stores the byte and moves the cursor; the latch rule
follows (R16, R156). -/
def Obligations.RxByteInsideFrame : Prop :=
  ∀ (s : State) (p : Peer) (b : Byte), s.bit (frmStat p) bTxBusy = false → 0 < (s.link p).rxCnt →
    (s.link p).rxCnt + 1 < (s.link p).rxExp → (s.link p).rxExp ≤ bufMax →
    ∃ t, exec (.rxByte p b) s = .next t ∧ t.result = .none ∧ outsideKeptBut p s t
      ∧ latchedFrom s t ∧ wordsKept s t [fltLat]
      ∧ t.link p = { s.link p with
          rxCnt := (s.link p).rxCnt + 1, rxa := bufWrite (s.link p).rxa (s.link p).rxCnt b }
      ∧ t.bufByte .rxa p (s.link p).rxCnt = b
      ∧ ∀ k, k ≠ (s.link p).rxCnt → t.bufByte .rxa p k = s.bufByte .rxa p k

/-- RX_BYTE that completes a frame: a wrong check value drops it with CHK_ERR, a right one is handed over
with RX_PEND or, while one is pending, dropped with RX_OVR; the receiver waits for an address byte again,
and the latch rule follows (R16, R156, R157, R159, R160). -/
def Obligations.RxByteCompletesFrame : Prop :=
  ∀ (s : State) (p : Peer) (b : Byte), s.bit (frmStat p) bTxBusy = false → 0 < (s.link p).rxCnt →
    (s.link p).rxCnt + 1 = (s.link p).rxExp → (s.link p).rxExp ≤ bufMax →
    ∃ t, exec (.rxByte p b) s = .next t ∧ t.result = .none ∧ outsideKeptBut p s t
      ∧ latchedFrom s t ∧ wordsKept s t [frmStat p, fltLat]
      ∧ (let f := s.bufBytes .rxa p 0 (s.link p).rxCnt ++ [b]
        let body := f.length - s.cfg.chkKind.len
        let stored : Link := { s.link p with rxCnt := 0, rxa := bufWrite (s.link p).rxa (s.link p).rxCnt b }
        if check s.cfg.chkKind (f.take body) = f.drop body then
          if s.bit (frmStat p) bRxPend then
            t.link p = stored ∧ t.bit (frmStat p) bRxOvr = true ∧ bitsKept s t (frmStat p) [bRxOvr]
          else
            t.link p = { stored with rxc := bufWriteBytes (s.link p).rxc 0 f, rxcBc := (s.link p).rxBc }
              ∧ t.bufBytes .rxc p 0 f.length = f
              ∧ t.bit (frmStat p) bRxPend = true ∧ bitsKept s t (frmStat p) [bRxPend]
        else t.link p = stored ∧ t.bit (frmStat p) bChkErr = true ∧ bitsKept s t (frmStat p) [bChkErr])

/-- RX_IDLE abandons a partly assembled frame with RX_ABORT, ends the skipping and leaves the rest but for
what the latch rule gives (R16, R162). -/
def Obligations.RxIdleMarksABoundary : Prop :=
  ∀ (s : State) (p : Peer), ∃ t, exec (.rxIdle p) s = .next t ∧ t.result = .none ∧ outsideKeptBut p s t
    ∧ t.link p = { s.link p with rxCnt := 0, rxSkip := false }
    ∧ t.bit (frmStat p) bRxAbort = (s.bit (frmStat p) bRxAbort || decide (0 < (s.link p).rxCnt))
    ∧ bitsKept s t (frmStat p) [bRxAbort] ∧ latchedFrom s t ∧ wordsKept s t [frmStat p, fltLat]

/-- Whatever the receiver was doing, an RX_IDLE and then a whole valid frame, while nothing is sent and no
frame is pending, leave that frame pending (R165). -/
def Obligations.ReceiverResynchronises : Prop :=
  ∀ (s : State) (p : Peer) (bc : Bool) (f : List Byte), s.cfg.wf = true →
    s.bit (frmStat p) bTxBusy = false → s.bit (frmStat p) bRxPend = false → validFrame s.cfg p bc f →
    ∃ t, perform (.rxIdle p :: rxFrame p f) s = .next t
      ∧ t.bit (frmStat p) bRxPend = true ∧ t.bufBytes .rxc p 0 f.length = f ∧ (t.link p).rxcBc = bc
      ∧ (t.link p).rxCnt = 0 ∧ outsideKeptBut p s t ∧ latchedFrom s t ∧ wordsKept s t [frmStat p, fltLat]

/-- The two links are independent: RX_BYTE, RX_IDLE, TX_START and TX_BYTE of one link leave the other's
hidden state and every word but their own FRM_STAT and, in a state in which the latches do not agree with
the latch rule, FLT_LAT (R16); and what RX_BYTE, RX_IDLE and TX_BYTE do on a link depends on that link's
state alone (R150). -/
def Obligations.LinksAreIndependent : Prop :=
  (∀ (s t : State) (p : Peer) (i : Instr), i = .rxIdle p ∨ i = .txStart p ∨ i = .txByte p ∨ (∃ b, i = .rxByte p b) →
      exec i s = .next t → outsideKeptBut p s t ∧ wordsKept s t [frmStat p, fltLat]
        ∧ (latchesAgree s → t.rd fltLat = s.rd fltLat))
    ∧ ∀ (s u : State) (p : Peer) (i : Instr), i = .rxIdle p ∨ i = .txByte p ∨ (∃ b, i = .rxByte p b) →
        s.cfg = u.cfg → s.epoch = u.epoch → s.link p = u.link p → s.rd (frmStat p) = u.rd (frmStat p) →
        ∃ t v, exec i s = .next t ∧ exec i u = .next v
          ∧ t.link p = v.link p ∧ t.rd (frmStat p) = v.rd (frmStat p) ∧ t.result = v.result

/-- The check functions: a frame's bytes sum to 0 modulo 256 with their SUM8 byte, and the CRC16 over bytes
with their own check bytes behind them is 0 (R151, R152). -/
def Obligations.CheckValuesClose : Prop :=
  (∀ bs : List Byte, byteSum (bs ++ check .sum8 bs) % 256 = 0)
    ∧ (∀ bs : List Byte, (check .sum8 bs).length = 1 ∧ (check .crc16 bs).length = 2)
    ∧ ∀ bs : List Byte, crc16 (bs ++ check .crc16 bs) = 0

/-! ## Draining a frame -/

/-- RX_DRAIN changes nothing when nothing is pending. Of a pending frame, after the fields: the liveness
counter is full, UART_FAIL[p] and NO_DATA[p] are clear, COM_FAULT is as the fields left it but clear unless
the other peer is failed, RX_PEND is clear and the latch rule is applied; every other word is as the fields
left it (R181, R186, R187). -/
def Obligations.RxDrainCreditsThePeer : Prop :=
  ∀ (s : State) (p : Peer),
    (s.bit (frmStat p) bRxPend = false → exec (.rxDrain p) s = .next (s.withResult .none))
    ∧ (s.bit (frmStat p) bRxPend = true →
    let u := drainFields p 1 (if (s.link p).rxcBc then s.cfg.rxbLayout.get p else s.cfg.rxLayout.get p) s
    ∃ t, exec (.rxDrain p) s = .next t ∧ t.result = .none ∧ outsideKept s t
      ∧ t.rd (liveCnt p) = s.cfg.liveReset.get p
      ∧ t.bit comStat (bUartFail p) = false ∧ t.bit comStat (bNoData p) = false
      ∧ (t.bit comStat bComFault = true ↔
          u.bit comStat bComFault = true ∧ ∃ q, q ≠ p ∧ u.bit comStat (bUartFail q) = true)
      ∧ bitsKept u t comStat [bUartFail p, bNoData p, bComFault]
      ∧ t.bit (frmStat p) bRxPend = false ∧ bitsKept u t (frmStat p) [bRxPend]
      ∧ latchedFrom u t ∧ wordsKept u t [liveCnt p, comStat, frmStat p, fltLat])

/-- RX_DRAIN of a pending frame stores each field, little-endian, at its entry's address, unless a later
entry names the address too; a 32-bit field fills two words, the low one first; words the layout does not
name stay. The words the operation itself ends by writing are left to `RxDrainCreditsThePeer` (R181, R183,
R88, R89). -/
def Obligations.RxDrainStoresFields : Prop :=
  ∀ (s : State) (p : Peer), s.cfg.wf = true → s.bit (frmStat p) bRxPend = true →
    let l := if (s.link p).rxcBc then s.cfg.rxbLayout.get p else s.cfg.rxLayout.get p
    let own := [liveCnt p, comStat, frmStat p, fltLat]
    ∃ t, exec (.rxDrain p) s = .next t
      ∧ (∀ a, a ∉ own → a ∉ l.flatMap Entry.words → t.rd a = s.rd a)
      ∧ ∀ l1 e l2, l = l1 ++ e :: l2 →
        let v := drainedValue e (leValue (s.bufBytes .rxc p (1 + Layout.pay l1) e.bytes))
        (e.addr ∉ own → e.addr ∉ l2.flatMap Entry.words →
            t.rdNat e.addr = if e.width = .w32 then v % 65536 else v)
          ∧ (e.width = .w32 → e.addr + 1 ∉ own → e.addr + 1 ∉ l2.flatMap Entry.words →
            t.rdNat (e.addr + 1) = v / 65536)

/-- A VER field that differs from the words it is about to overwrite sets VERCHG for its image, no drained
frame clears one, and no other bit of the flags moves (R185). The layout does not name COM_STAT itself.
Under a layout that names a version word twice the later entry is compared with what the earlier one
left, which is the model's reading of R185 against R95 (log entry 6). -/
def Obligations.RxDrainFlagsVersionChanges : Prop :=
  ∀ (s : State) (p : Peer) (g : Img), s.bit (frmStat p) bRxPend = true →
    let l := if (s.link p).rxcBc then s.cfg.rxbLayout.get p else s.cfg.rxLayout.get p
    comStat ∉ l.flatMap Entry.words →
    ∃ t, exec (.rxDrain p) s = .next t
      ∧ (t.bit comStat (bVerChg p g) = true ↔
          s.bit comStat (bVerChg p g) = true ∨
            ∃ l1 e l2, l = l1 ++ e :: l2 ∧ e.kind = .ver ∧ e.img = g
              ∧ entryValue (drainFields p 1 l1 s) e ≠ leValue (s.bufBytes .rxc p (1 + Layout.pay l1) e.bytes))
      ∧ ∀ q, q ≠ p → t.bit comStat (bVerChg q g) = s.bit comStat (bVerChg q g)

/-- A CAL field is clamped to its inclusive range, as an unsigned or as a two's complement value; every
other field is stored as received (R183, R184). -/
def Obligations.CalibrationIsClamped : Prop :=
  ∀ (e : Entry) (w : Word),
    (e.kind ≠ .cal → drainedValue e w.toNat = w.toNat)
      ∧ (e.kind = .cal → e.rangeOk = true →
          (e.signed = false →
            ((drainedValue e w.toNat : Nat) : Int) = min (max (w.toNat : Int) e.min) e.max)
          ∧ (e.signed = true →
            s16 (trunc16 (drainedValue e w.toNat)) = min (max (s16 w) e.min) e.max
              ∧ drainedValue e w.toNat < 65536))

/-! ## Invariants of the hidden state -/

/-- Every step keeps the receive and transmit cursors of both links in their ranges (R70, R72, R87). -/
def Obligations.CursorsStayInRange : Prop :=
  ∀ s t : State, cursorsInRange s.pri ∧ cursorsInRange s.sec → step s = .next t →
    cursorsInRange t.pri ∧ cursorsInRange t.sec

/-- In a run that keeps the ownership convention every buffer byte a rule may read next has been written
since reset (R322). -/
def Obligations.OnlyWrittenBytesAreRead : Prop :=
  ∀ (s t : State), stepConforms s →
    (∀ p, cursorsInRange (s.link p) ∧ readsWrittenBytes s p) → step s = .next t →
    ∀ p, readsWrittenBytes t p

/-- The reset state, and the state after power-on under every well-formed configuration, meet every
invariant stated here. -/
def Obligations.ResetMeetsTheInvariants : Prop :=
  ∀ cfg : Config, cfg.wf = true →
    let s := State.resetWith cfg
    Memory.wf s = true ∧ latchesAgree s ∧ knownSeqState s ∧ enablesOnlyInOn s ∧ dutiesInRange s
      ∧ countersInRange s ∧ failureBitsAgree s ∧ cursorsInRange s.pri ∧ cursorsInRange s.sec
      ∧ (∀ p, readsWrittenBytes s p) ∧ State.reset = State.resetWith refConfig ∧ refConfig.wf = true

/-- The enable, clear and duty pins are copies of the bits of SEQ_OUT and of the fans' DUTY words (R64). -/
def Obligations.PinsMirrorTheWords : Prop :=
  ∀ s : State,
    (pins s).pwmEn = s.bit seqOut 0 ∧ (pins s).acsEn = s.bit seqOut 1 ∧ (pins s).oringEn = s.bit seqOut 2
      ∧ (pins s).stageEn = s.bit seqOut 3 ∧ (pins s).clrOvp = s.bit seqOut 4 ∧ (pins s).clrUvp = s.bit seqOut 5
      ∧ (pins s).clrOcp = s.bit seqOut 6 ∧ (pins s).clrOpp = s.bit seqOut 7
      ∧ (pins s).duty.length = s.cfg.nfan
      ∧ ∀ i, i < s.cfg.nfan → (pins s).duty[i]? = some (s.rd (fanAddr i .duty))

end
end

