-- ==== Sys2Proof/Laws/Bits.lean ====
section
/-! SUPPORT. Laws of bits and fields of words (spec/00_scope.md R12, R15), bit by bit. -/

namespace Sys2Proof.Machine

/-- Writing bit `n` changes bit `n` and no other (R15). -/
theorem getLsbD_putBit (w : Word) (n j : Nat) (b : Bool) (hn : n < 16) :
    (putBit w n b).getLsbD j = if j = n then b else w.getLsbD j := by
  unfold putBit
  by_cases hj : j < 16
  · by_cases hjn : j = n
    · subst hjn
      cases b <;> simp [hj]
    · rcases Nat.lt_or_ge j n with h | h
      · cases b <;> simp [hj, hjn, h]
      · have h1 : ¬ j < n := by omega
        have h2 : ¬ j - n = 0 := by omega
        cases b <;> simp [hj, hjn, h1, h2]
  · have hjn : ¬ j = n := by omega
    have : w.getLsbD j = false := BitVec.getLsbD_of_ge _ _ (by omega)
    cases b <;> simp [hj, hjn, this]

/-- The mask of a field has ones exactly in the field. -/
theorem getLsbD_fieldMask (lo len j : Nat) (hlen : len ≤ 16) :
    (fieldMask lo len).getLsbD j = decide (j < 16 ∧ lo ≤ j ∧ j < lo + len) := by
  unfold fieldMask
  simp only [BitVec.getLsbD_shiftLeft, BitVec.getLsbD_ushiftRight, BitVec.getLsbD_allOnes]
  by_cases h1 : j < 16 <;> by_cases h2 : lo ≤ j <;> by_cases h3 : j < lo + len <;>
    simp [h1, h2, h3] <;> omega

/-- Writing a field changes the field's bits and no other (R15). -/
theorem getLsbD_putField (w v : Word) (lo len j : Nat) (h : lo + len ≤ 16) :
    (putField w lo len v).getLsbD j =
      if lo ≤ j ∧ j < lo + len then v.getLsbD (j - lo) else w.getLsbD j := by
  unfold putField
  simp only [BitVec.getLsbD_or, BitVec.getLsbD_and, BitVec.getLsbD_not, BitVec.getLsbD_shiftLeft,
    getLsbD_fieldMask lo len j (by omega)]
  by_cases h1 : j < 16
  · by_cases h2 : lo ≤ j
    · by_cases h3 : j < lo + len <;> simp [h1, h2, h3]
    · simp [h1, h2]
  · have : ¬ (lo ≤ j ∧ j < lo + len) := by omega
    have hw : w.getLsbD j = false := BitVec.getLsbD_of_ge _ _ (by omega)
    simp [h1, this, hw]

/-- Two words with the same sixteen bits are the same word. -/
theorem word_eq_of_bits {w v : Word} (h : ∀ j, j < 16 → w.getLsbD j = v.getLsbD j) : w = v :=
  BitVec.eq_of_getLsbD_eq (fun j hj => h j hj)

/-- The latch rule per bit: bits 3:0 are `raw OR (lat AND NOT clr)`, the others stay (R275). -/
theorem getLsbD_latchWord (raw out lat : Word) (j : Nat) :
    (latchWord raw out lat).getLsbD j =
      if j < 4 then raw.getLsbD j || (lat.getLsbD j && !out.getLsbD (4 + j)) else lat.getLsbD j := by
  unfold latchWord
  rw [getLsbD_putField _ _ _ _ _ (by omega)]
  by_cases h : j < 4
  · simp [h, show j < 16 by omega]
  · simp [h]

/-- The latch rule is idempotent (R275). -/
theorem latchWord_idem (raw out lat : Word) :
    latchWord raw out (latchWord raw out lat) = latchWord raw out lat := by
  apply word_eq_of_bits
  intro j _
  simp only [getLsbD_latchWord]
  by_cases h : j < 4
  · simp only [h, if_true]
    cases raw.getLsbD j <;> cases lat.getLsbD j <;> cases out.getLsbD (4 + j) <;> rfl
  · simp [h]

end Sys2Proof.Machine
end

