-- ==== Sys2Proof/Laws/Config.lean ====
section
/-! SUPPORT. What a well-formed configuration gives (spec/00_scope.md R10): the bounds later proofs use, taken from
`Config.wf` once. -/

namespace Sys2Proof.Machine

/-- There are one to four fans (section 5.1). -/
theorem Config.nfan_bounds {cfg : Config} (h : cfg.wf = true) : 1 ≤ cfg.nfan ∧ cfg.nfan ≤ 4 := by
  simp only [Config.wf, Config.rangesOk, Bool.and_eq_true, decide_eq_true_eq] at h
  exact ⟨h.1.1.1.1.1.1.1.1.1.1, h.1.1.1.1.1.1.1.1.1.2⟩

/-- Both stage tables are well-formed (WF3 to WF5). -/
theorem Config.wf_tables {cfg : Config} (h : cfg.wf = true) : stagesWf cfg.stgLo = true ∧ stagesWf cfg.stgHi
    = true := by
  simp only [Config.wf, Config.tablesOk, tableWf, Bool.and_eq_true] at h
  exact ⟨h.1.1.2.1.2, h.1.1.2.2.2⟩

/-- The thresholds and the duties are in order (WF7 to WF9). -/
theorem Config.wf_orders {cfg : Config} (h : cfg.wf = true) : cfg.errMid.toNat ≤ cfg.errBig.toNat
    ∧ cfg.failThr.toNat ≤ cfg.warnThr.toNat ∧ cfg.warnThr.toNat ≤ cfg.recovThr.toNat
        ∧ cfg.dutyFloor.toNat ≤ cfg.dutyMax.toNat ∧ cfg.dutyMax.toNat ≤ cfg.dutyFull.toNat
            ∧ cfg.dutyBoot.toNat ≤ cfg.dutyFull.toNat ∧ cfg.dutyAcloss.toNat ≤ cfg.dutyFull.toNat := by
  simp only [Config.wf, Config.ordersOk, Bool.and_eq_true, decide_eq_true_eq] at h
  have := h.1.2
  exact ⟨this.1.1.1.1.1.1, this.1.1.1.1.1.2, this.1.1.1.1.2, this.1.1.1.2, this.1.1.2, this.1.2, this.2⟩

/-- The counts and delays of WF10 are at least 1. -/
theorem Config.wf_counts {cfg : Config} (h : cfg.wf = true) : 1 ≤ cfg.nWarn.toNat ∧ 1 ≤ cfg.nFail.toNat
    ∧ 1 ≤ cfg.mOk.toNat ∧ (∀ p, 1 ≤ (cfg.liveReset.get p).toNat) ∧ (∀ g, 1 ≤ (cfg.enDly.get g).toNat
        ∧ 1 ≤ (cfg.disDly.get g).toNat) := by
  have nz : ∀ w : Word, w ≠ 0 → 1 ≤ w.toNat := by
    intro w h
    by_contra hc
    exact h (BitVec.eq_of_toNat_eq (by simp at hc; simp [hc]))
  simp only [Config.wf, Config.countsOk, PerPeer.positive, PerSig.positive, Bool.and_eq_true, bne_iff_ne] at h
  obtain ⟨-, h⟩ := h
  obtain ⟨⟨⟨⟨⟨h1, h2⟩, h3⟩, h4⟩, h5⟩, h6⟩ := h
  refine ⟨nz _ h4, nz _ h5, nz _ h6, ?_, ?_⟩
  · intro p; cases p
    · exact nz _ h1.1
    · exact nz _ h1.2
  · intro g; cases g
    · exact ⟨nz _ h2.1.1, nz _ h3.1.1⟩
    · exact ⟨nz _ h2.1.2, nz _ h3.1.2⟩
    · exact ⟨nz _ h2.2, nz _ h3.2⟩

/-- A frame has an address byte and a check byte at least (R153). -/
theorem two_le_flen (cfg : Config) (l : Layout) : 2 ≤ cfg.flen l := by
  unfold Config.flen; have : 1 ≤ cfg.chkKind.len := by cases cfg.chkKind <;> decide
  omega

/-- An outgoing frame fits its buffer (L3). -/
theorem flen_tx_le {cfg : Config} (h : cfg.wf = true) (p : Peer) : cfg.flen (cfg.txLayout.get p) ≤ bufMax := by
  simp only [Config.wf, Config.layoutsOk, Layout.wf, Bool.and_eq_true, decide_eq_true_eq] at h
  obtain ⟨⟨⟨⟨-, h⟩, -⟩, -⟩, -⟩ := h
  obtain ⟨⟨⟨⟨⟨h1, h2⟩, -⟩, -⟩, -⟩, -⟩ := h
  cases p
  · exact h1.1.2
  · exact h2.1.2

/-- The layouts of received frames meet L1 to L5 (WF2). -/
theorem rxLayoutOf_wf {cfg : Config} (h : cfg.wf = true) (p : Peer) (bc : Bool) :
    Layout.rxWf cfg.chkKind (rxLayoutOf cfg p bc) = true := by
  simp only [Config.wf, Config.layoutsOk, Layout.rxbWf, Bool.and_eq_true] at h
  obtain ⟨⟨⟨⟨-, h⟩, -⟩, -⟩, -⟩ := h
  obtain ⟨⟨⟨⟨⟨-, -⟩, h1⟩, h2⟩, h3⟩, h4⟩ := h
  cases p <;> cases bc <;> simp [rxLayoutOf, PerPeer.get, h1, h2, h3.1, h4.1]

/-- A received frame fits its buffer (L3). -/
theorem flen_rx_le {cfg : Config} (h : cfg.wf = true) (p : Peer) (bc : Bool) :
    cfg.flen (rxLayoutOf cfg p bc) ≤ bufMax := by
  have := rxLayoutOf_wf h p bc
  simp only [Layout.rxWf, Layout.wf, Bool.and_eq_true, decide_eq_true_eq] at this
  exact this.1.1.2

/-- The own address is not the broadcast address (WF1). -/
theorem Config.addrOwn_ne_addrBcast {cfg : Config} (h : cfg.wf = true) : cfg.addrOwn ≠ cfg.addrBcast := by
  simp only [Config.wf, Config.rangesOk, Bool.and_eq_true, bne_iff_ne] at h
  exact h.1.1.1.1.2

end Sys2Proof.Machine
end

