-- ==== Sys2Proof/Laws/Decode.lean ====
section
/-! SUPPORT. Laws of command words: their fields, and peers (spec/30_encoding.md R111, R112). -/

namespace Sys2Proof

/-- The bits of a command word: `d`, then `a`, then `op` (R111). -/
theorem getLsbD_cmdWord (o a : BitVec 8) (d : BitVec 16) (j : Nat) :
    (cmdWord o a d).getLsbD j =
      if j < 16 then d.getLsbD j else if j < 24 then a.getLsbD (j - 16) else o.getLsbD (j - 24) := by
  have h : (cmdWord o a d).getLsbD j = ((o ++ a) ++ d).getLsbD j := rfl
  rw [h, BitVec.getLsbD_append, BitVec.getLsbD_append]
  by_cases h1 : j < 16
  · simp [h1]
  · by_cases h2 : j < 24
    · simp [h1, h2, show j - 16 < 8 by omega]
    · simp [h1, h2, show ¬ j - 16 < 8 by omega, show j - 16 - 8 = j - 24 by omega]

/-- The fields of a command word are the ones it was made of (R111). -/
theorem opField_cmdWord (o a : BitVec 8) (d : BitVec 16) : opField (cmdWord o a d) = o := by
  apply BitVec.eq_of_getLsbD_eq
  intro i hi
  simp [opField, getLsbD_cmdWord, hi, show ¬ 24 + i < 16 by omega]

theorem aField_cmdWord (o a : BitVec 8) (d : BitVec 16) : aField (cmdWord o a d) = a := by
  apply BitVec.eq_of_getLsbD_eq
  intro i hi
  simp [aField, getLsbD_cmdWord, hi, show 16 + i < 24 by omega]

theorem dField_cmdWord (o a : BitVec 8) (d : BitVec 16) : dField (cmdWord o a d) = d := by
  apply BitVec.eq_of_getLsbD_eq
  intro i hi
  simp [dField, getLsbD_cmdWord, hi]

/-- A command word is made of its fields (R111). -/
theorem cmdWord_fields (w : Cmd) : cmdWord (opField w) (aField w) (dField w) = w := by
  apply BitVec.eq_of_getLsbD_eq
  intro i hi
  rw [getLsbD_cmdWord]
  unfold opField aField dField
  simp only [BitVec.getLsbD_extractLsb']
  by_cases h1 : i < 16
  · simp [h1]
  · by_cases h2 : i < 24
    · simp [h1, h2, show i - 16 < 8 by omega, show 16 + (i - 16) = i by omega]
    · simp [h1, h2, show i - 24 < 8 by omega, show 24 + (i - 24) = i by omega]

theorem peerOf_field (p : Peer) : peerOf p.field = .ok p := by cases p <;> rfl

theorem peerOf_ok {a : BitVec 8} {p : Peer} (h : peerOf a = .ok p) : a = p.field := by
  unfold peerOf at h
  split at h
  · injection h with h; subst h; exact BitVec.eq_of_toNat_eq (by assumption)
  · injection h with h; subst h; exact BitVec.eq_of_toNat_eq (by assumption)
  · cases h

/-- A word with a known operation code, from its fields. -/
theorem word_of_opField {w : Cmd} {o : Nat} (ho : (opField w).toNat = o) :
    w = cmdWord (BitVec.ofNat 8 o) (aField w) (dField w) := by
  subst ho; rw [BitVec.ofNat_toNat, BitVec.setWidth_eq, cmdWord_fields]

/-- The common bits of two command words, field by field. -/
theorem cmdWord_and (o o' a a' : BitVec 8) (d d' : BitVec 16) :
    cmdWord o a d &&& cmdWord o' a' d' = cmdWord (o &&& o') (a &&& a') (d &&& d') := by
  apply BitVec.eq_of_getLsbD_eq
  intro i hi
  simp only [BitVec.getLsbD_and, getLsbD_cmdWord]
  split
  · rfl
  · split <;> rfl

/-- A command word is told by its fields (R111). -/
theorem cmdWord_inj (o o' a a' : BitVec 8) (d d' : BitVec 16) :
    cmdWord o a d = cmdWord o' a' d' ↔ o = o' ∧ a = a' ∧ d = d' := by
  constructor
  · intro h
    exact ⟨by rw [← opField_cmdWord o a d, h, opField_cmdWord], by rw [← aField_cmdWord o a d, h,
        aField_cmdWord],
     by rw [← dField_cmdWord o a d, h, dField_cmdWord]⟩
  · rintro ⟨rfl, rfl, rfl⟩; rfl

/-- A row of the opcode map covers a word when every field, under its mask, is the row's (R113). -/
theorem covers_iff (m : String) (o mo a ma : BitVec 8) (d md : BitVec 16) (w : Cmd) :
    OpRow.covers ⟨m, cmdWord o a d, cmdWord mo ma md⟩ w = true ↔
      opField w &&& mo = o ∧ aField w &&& ma = a ∧ dField w &&& md = d := by
  unfold OpRow.covers
  rw [beq_iff_eq]
  show w &&& _ = _ ↔ _
  conv => lhs; lhs; rw [← cmdWord_fields w]
  rw [cmdWord_and, cmdWord_inj]

end Sys2Proof
end

