-- ==== Sys2Proof/Laws/Store.lean ====
section
/-! SUPPORT. Laws of the two stores: reading after writing, and the canonical forms that every write
keeps. -/

namespace Sys2Proof.Machine

theorem cellGet?_erase {α : Type} (m : List (Nat × α)) (k j : Nat) :
    cellGet? (cellErase m k) j = if j = k then none else cellGet? m j := by
  induction m with
  | nil => simp [cellErase, cellGet?]
  | cons c m ih =>
    simp only [cellErase] at ih ⊢
    by_cases hc : c.1 = k
    · rw [List.filter_cons_of_neg (by simp [hc]), ih]
      by_cases hj : j = k
      · simp [hj]
      · simp [hj, cellGet?, hc, Ne.symm hj]
    · rw [List.filter_cons_of_pos (by simp [hc])]
      simp only [cellGet?, ih]
      by_cases hj : j = k
      · subst hj; simp [hc]
      · simp [hj]

theorem cellGet?_insert {α : Type} (m : List (Nat × α)) (k j : Nat) (v : α)
    (h : cellGet? m k = none) :
    cellGet? (cellInsert k v m) j = if j = k then some v else cellGet? m j := by
  induction m with
  | nil =>
    by_cases hj : j = k
    · simp [cellInsert, cellGet?, hj]
    · simp [cellInsert, cellGet?, hj, Ne.symm hj]
  | cons c m ih =>
    simp only [cellGet?] at h
    by_cases hc : c.1 = k
    · simp [hc] at h
    · simp only [hc, if_false] at h
      by_cases hk : k < c.1
      · simp only [cellInsert, hk, if_true, cellGet?]
        by_cases hj : j = k
        · simp [hj]
        · simp [hj, Ne.symm hj]
      · simp only [cellInsert, hk, if_false, cellGet?, ih h]
        by_cases hj : j = k
        · simp [hj, hc]
        · simp [hj]

/-- Reading a key after `cellPut`: the value put there, or what the key held before. -/
theorem cellGet?_put {α : Type} (m : List (Nat × α)) (k j : Nat) (v : α) :
    cellGet? (cellPut m k v) j = if j = k then some v else cellGet? m j := by
  unfold cellPut
  rw [cellGet?_insert _ _ _ _ (by rw [cellGet?_erase]; simp), cellGet?_erase]
  by_cases hj : j = k <;> simp [hj]

theorem mem_of_mem_cellErase {α : Type} {m : List (Nat × α)} {k : Nat} {c : Nat × α}
    (h : c ∈ cellErase m k) : c ∈ m ∧ c.1 ≠ k := by
  simpa [cellErase] using h

theorem mem_cellInsert {α : Type} {m : List (Nat × α)} {k : Nat} {v : α} {c : Nat × α} :
    c ∈ cellInsert k v m ↔ c = (k, v) ∨ c ∈ m := by
  induction m with
  | nil => simp [cellInsert]
  | cons d m ih =>
    by_cases hk : k < d.1
    · simp [cellInsert, hk]
    · simp only [cellInsert, hk, if_false, List.mem_cons, ih]
      tauto

theorem cellsRising_erase {α : Type} {m : List (Nat × α)} (k : Nat) (h : CellsRising m) :
    CellsRising (cellErase m k) := List.Pairwise.filter _ h

theorem cellsRising_insert {α : Type} {m : List (Nat × α)} {k : Nat} (v : α) (h : CellsRising m)
    (hk : ∀ c ∈ m, c.1 ≠ k) : CellsRising (cellInsert k v m) := by
  induction m with
  | nil => simp [cellInsert]
  | cons c m ih =>
    have hc := List.pairwise_cons.mp h
    by_cases hlt : k < c.1
    · simp only [cellInsert, hlt, if_true]
      refine List.pairwise_cons.mpr ⟨?_, h⟩
      intro d hd
      rcases List.mem_cons.mp hd with rfl | hd
      · exact hlt
      · exact Nat.lt_trans hlt (hc.1 d hd)
    · simp only [cellInsert, hlt, if_false]
      refine List.pairwise_cons.mpr ⟨?_, ih hc.2 (fun d hd => hk d (List.mem_cons_of_mem _ hd))⟩
      intro d hd
      rcases mem_cellInsert.mp hd with rfl | hd
      · have := hk c (List.mem_cons_self ..)
        simp only
        omega
      · exact hc.1 d hd

theorem cellsRising_put {α : Type} {m : List (Nat × α)} (k : Nat) (v : α) (h : CellsRising m) :
    CellsRising (cellPut m k v) :=
  cellsRising_insert v (cellsRising_erase k h) (fun _ hc => (mem_of_mem_cellErase hc).2)

/-- Read after write in the RTE, at every address and in every state (R15, R21). -/
theorem rteRead_rteWrite (m : Rte) (a b : Addr) (v : Word) :
    rteRead (rteWrite m a v) b = if b = a then v else rteRead m b := by
  unfold rteRead rteWrite
  by_cases hv : v = rteDefault
  · by_cases hb : b = a
    · simp [hv, hb, cellGet?_erase]
    · have : b.toNat ≠ a.toNat := fun h => hb (BitVec.eq_of_toNat_eq h)
      simp [hv, hb, cellGet?_erase, this]
  · by_cases hb : b = a
    · simp [hv, hb, cellGet?_put]
    · have : b.toNat ≠ a.toNat := fun h => hb (BitVec.eq_of_toNat_eq h)
      simp [hv, hb, cellGet?_put, this]

theorem rteWf_iff (m : Rte) :
    rteWf m = true ↔ CellsRising m ∧ ∀ c ∈ m, c.1 < 256 ∧ c.2 ≠ rteDefault := by
  simp [rteWf, List.all_eq_true]

/-- A write keeps the canonical form of the RTE. -/
theorem rteWf_rteWrite {m : Rte} (a : Addr) (v : Word) (h : rteWf m = true) :
    rteWf (rteWrite m a v) = true := by
  obtain ⟨hr, hm⟩ := (rteWf_iff m).mp h
  refine (rteWf_iff _).mpr ?_
  unfold rteWrite
  by_cases hv : v = rteDefault
  · simp only [hv, if_true]
    exact ⟨cellsRising_erase _ hr, fun c hc => hm c (mem_of_mem_cellErase hc).1⟩
  · simp only [hv, if_false]
    refine ⟨cellsRising_put _ _ hr, fun c hc => ?_⟩
    rcases mem_cellInsert.mp hc with rfl | hc
    · exact ⟨a.isLt, hv⟩
    · exact hm c (mem_of_mem_cellErase hc).1

/-- Read after write in a frame buffer. -/
theorem cellGet?_bufWrite (m : Buf) (k j : Nat) (b : Byte) :
    cellGet? (bufWrite m k b) j = if j = k ∧ k < bufMax then some b else cellGet? m j := by
  unfold bufWrite
  by_cases hk : k < bufMax
  · simp [hk, cellGet?_put]
  · simp [hk]

/-- Read after a run of writes in a frame buffer that fits: the bytes written, or what stood there. -/
theorem cellGet?_bufWriteBytes (bs : List Byte) (m : Buf) (k j : Nat) (h : k + bs.length ≤ bufMax) :
    cellGet? (bufWriteBytes m k bs) j =
      if k ≤ j ∧ j < k + bs.length then bs[j - k]? else cellGet? m j := by
  induction bs generalizing m k with
  | nil =>
    have : ¬ (k ≤ j ∧ j < k + ([] : List Byte).length) := by simp
    rw [if_neg this]; rfl
  | cons b bs ih =>
    simp only [List.length_cons] at h
    simp only [bufWriteBytes]
    rw [ih _ _ (by omega), cellGet?_bufWrite]
    by_cases hj : j = k
    · subst hj
      have h1 : ¬ (j + 1 ≤ j ∧ j < j + 1 + bs.length) := by omega
      have h2 : j < bufMax := by omega
      have h3 : j ≤ j ∧ j < j + (b :: bs).length := by simp
      rw [if_neg h1, if_pos ⟨rfl, h2⟩, if_pos h3]
      simp
    · by_cases hin : k + 1 ≤ j ∧ j < k + 1 + bs.length
      · have h3 : k ≤ j ∧ j < k + (b :: bs).length := by simp only [List.length_cons]; omega
        rw [if_pos hin, if_pos h3]
        obtain ⟨n, hn⟩ : ∃ n, j - k = n + 1 := ⟨j - k - 1, by omega⟩
        have : j - (k + 1) = n := by omega
        simp [hn, this]
      · have h3 : ¬ (k ≤ j ∧ j < k + (b :: bs).length) := by simp only [List.length_cons]; omega
        rw [if_neg hin, if_neg h3, if_neg (by tauto)]

theorem bufWf_iff (m : Buf) : bufWf m = true ↔ CellsRising m ∧ ∀ c ∈ m, c.1 < bufMax := by
  simp [bufWf, List.all_eq_true]

/-- A write keeps the canonical form of a frame buffer. -/
theorem bufWf_bufWrite {m : Buf} (k : Nat) (b : Byte) (h : bufWf m = true) :
    bufWf (bufWrite m k b) = true := by
  obtain ⟨hr, hm⟩ := (bufWf_iff m).mp h
  unfold bufWrite
  by_cases hk : k < bufMax
  · simp only [hk, if_true]
    refine (bufWf_iff _).mpr ⟨cellsRising_put _ _ hr, fun c hc => ?_⟩
    rcases mem_cellInsert.mp hc with rfl | hc
    · exact hk
    · exact hm c (mem_of_mem_cellErase hc).1
  · simpa only [hk, if_false] using h

theorem bufWf_bufWriteBytes (bs : List Byte) {m : Buf} (k : Nat) (h : bufWf m = true) :
    bufWf (bufWriteBytes m k bs) = true := by
  induction bs generalizing m k with
  | nil => exact h
  | cons b bs ih => exact ih (k + 1) (bufWf_bufWrite k b h)

/-- The reset contents of the RTE (R75). -/
theorem rteRead_rteReset (cfg : Config) (a : Addr) :
    rteRead (rteReset cfg) a =
      if a = 0x62 then cfg.liveReset.sec else if a = 0x61 then cfg.liveReset.pri else 0 := by
  unfold rteReset
  rw [rteRead_rteWrite, rteRead_rteWrite]
  rfl

theorem rteWf_rteReset (cfg : Config) : rteWf (rteReset cfg) = true :=
  rteWf_rteWrite _ _ (rteWf_rteWrite _ _ rfl)

end Sys2Proof.Machine
end

