-- ==== Sys2Proof/Laws/State.lean ====
section
/-! SUPPORT. What each update of the state does to each field: one small lemma per field per update, so
that no later proof unfolds an update. -/

namespace Sys2Proof.Machine

/-! ## Writing an RTE word -/

@[simp] theorem State.wr_cfg (s : State) (a : Addr) (v : Word) : (s.wr a v).cfg = s.cfg := rfl

@[simp] theorem State.wr_pri (s : State) (a : Addr) (v : Word) : (s.wr a v).pri = s.pri := rfl

@[simp] theorem State.wr_sec (s : State) (a : Addr) (v : Word) : (s.wr a v).sec = s.sec := rfl

@[simp] theorem State.wr_port (s : State) (a : Addr) (v : Word) : (s.wr a v).port = s.port := rfl

@[simp] theorem State.wr_result (s : State) (a : Addr) (v : Word) : (s.wr a v).result = s.result := rfl

@[simp] theorem State.wr_epoch (s : State) (a : Addr) (v : Word) : (s.wr a v).epoch = s.epoch := rfl

@[simp] theorem State.wrBit_cfg (s : State) (a : Addr) (n : Nat) (b : Bool) : (s.wrBit a n b).cfg = s.cfg := rfl

@[simp] theorem State.wrBit_pri (s : State) (a : Addr) (n : Nat) (b : Bool) : (s.wrBit a n b).pri = s.pri := rfl

@[simp] theorem State.wrBit_sec (s : State) (a : Addr) (n : Nat) (b : Bool) : (s.wrBit a n b).sec = s.sec := rfl

@[simp] theorem State.wrBit_port (s : State) (a : Addr) (n : Nat) (b : Bool) : (s.wrBit a n b).port = s.port := rfl

@[simp] theorem State.wrBit_result (s : State) (a : Addr) (n : Nat) (b : Bool) : (s.wrBit a n b).result = s.result := rfl

@[simp] theorem State.wrBit_epoch (s : State) (a : Addr) (n : Nat) (b : Bool) : (s.wrBit a n b).epoch = s.epoch := rfl

@[simp] theorem State.wrField_cfg (s : State) (a : Addr) (lo len : Nat) (v : Word) : (s.wrField a lo len v).cfg = s.cfg := rfl

@[simp] theorem State.wrField_pri (s : State) (a : Addr) (lo len : Nat) (v : Word) : (s.wrField a lo len v).pri = s.pri := rfl

@[simp] theorem State.wrField_sec (s : State) (a : Addr) (lo len : Nat) (v : Word) : (s.wrField a lo len v).sec = s.sec := rfl

@[simp] theorem State.wrField_port (s : State) (a : Addr) (lo len : Nat) (v : Word) : (s.wrField a lo len v).port = s.port := rfl

@[simp] theorem State.wrField_result (s : State) (a : Addr) (lo len : Nat) (v : Word) : (s.wrField a lo len v).result = s.result := rfl

@[simp] theorem State.wrField_epoch (s : State) (a : Addr) (lo len : Nat) (v : Word) : (s.wrField a lo len v).epoch = s.epoch := rfl

@[simp] theorem latchUpdate_cfg (s : State) : (latchUpdate s).cfg = s.cfg := rfl

@[simp] theorem latchUpdate_pri (s : State) : (latchUpdate s).pri = s.pri := rfl

@[simp] theorem latchUpdate_sec (s : State) : (latchUpdate s).sec = s.sec := rfl

@[simp] theorem latchUpdate_port (s : State) : (latchUpdate s).port = s.port := rfl

@[simp] theorem latchUpdate_result (s : State) : (latchUpdate s).result = s.result := rfl

@[simp] theorem latchUpdate_epoch (s : State) : (latchUpdate s).epoch = s.epoch := rfl

@[simp] theorem State.wr_rte (s : State) (a : Addr) (v : Word) : (s.wr a v).rte = rteWrite s.rte a v := rfl

/-- Read after write: every address, every state (R15, R21). -/
theorem State.rd_wr (s : State) (a b : Addr) (v : Word) :
    (s.wr a v).rd b = if b = a then v else s.rd b := rteRead_rteWrite s.rte a b v

@[simp] theorem State.rd_wr_self (s : State) (a : Addr) (v : Word) : (s.wr a v).rd a = v := by
  rw [State.rd_wr, if_pos rfl]

theorem State.rd_wr_ne (s : State) {a b : Addr} (v : Word) (h : b ≠ a) : (s.wr a v).rd b = s.rd b := by
  rw [State.rd_wr, if_neg h]

theorem State.rd_wrBit (s : State) (a b : Addr) (n : Nat) (v : Bool) :
    (s.wrBit a n v).rd b = if b = a then putBit (s.rd a) n v else s.rd b := State.rd_wr ..

theorem State.rd_wrField (s : State) (a b : Addr) (lo len : Nat) (v : Word) :
    (s.wrField a lo len v).rd b = if b = a then putField (s.rd a) lo len v else s.rd b := State.rd_wr ..

theorem State.bit_wr (s : State) (a b : Addr) (v : Word) (j : Nat) :
    (s.wr a v).bit b j = if b = a then v.getLsbD j else s.bit b j := by
  unfold State.bit; rw [State.rd_wr]; split <;> rfl

/-- A one-bit field write changes that bit of that word and nothing else of the RTE (R15). -/
theorem State.bit_wrBit (s : State) (a b : Addr) (n j : Nat) (v : Bool) (hn : n < 16) :
    (s.wrBit a n v).bit b j = if b = a ∧ j = n then v else s.bit b j := by
  unfold State.bit
  rw [State.rd_wrBit]
  by_cases hb : b = a
  · subst hb; simp [getLsbD_putBit _ _ _ _ hn]
  · simp [hb]

/-- A field write changes the field's bits of that word and nothing else of the RTE (R15). -/
theorem State.bit_wrField (s : State) (a b : Addr) (lo len j : Nat) (v : Word) (h : lo + len ≤ 16) :
    (s.wrField a lo len v).bit b j =
      if b = a ∧ lo ≤ j ∧ j < lo + len then v.getLsbD (j - lo) else s.bit b j := by
  unfold State.bit
  rw [State.rd_wrField]
  by_cases hb : b = a
  · subst hb; simp [getLsbD_putField _ _ _ _ _ h]
  · simp [hb]

theorem State.rdNat_wr (s : State) (a b : Addr) (v : Word) :
    (s.wr a v).rdNat b = if b = a then v.toNat else s.rdNat b := by
  unfold State.rdNat; rw [State.rd_wr]; split <;> rfl

/-! ## The hidden link state -/

@[simp] theorem State.wr_link (s : State) (a : Addr) (v : Word) (p : Peer) : (s.wr a v).link p = s.link p := by
  cases p <;> rfl

@[simp] theorem State.wrBit_link (s : State) (a : Addr) (n : Nat) (b : Bool) (p : Peer) : (s.wrBit a n b).link p = s.link p := by
  cases p <;> rfl

@[simp] theorem State.wrField_link (s : State) (a : Addr) (lo len : Nat) (v : Word) (p : Peer) : (s.wrField a lo len v).link p = s.link p := by
  cases p <;> rfl

@[simp] theorem latchUpdate_link (s : State) (p : Peer) : (latchUpdate s).link p = s.link p := by
  cases p <;> rfl

@[simp] theorem State.setLink_cfg (s : State) (p : Peer) (l : Link) : (s.setLink p l).cfg = s.cfg := by
  cases p <;> rfl

@[simp] theorem State.setLink_rte (s : State) (p : Peer) (l : Link) : (s.setLink p l).rte = s.rte := by
  cases p <;> rfl

@[simp] theorem State.setLink_port (s : State) (p : Peer) (l : Link) : (s.setLink p l).port = s.port := by
  cases p <;> rfl

@[simp] theorem State.setLink_result (s : State) (p : Peer) (l : Link) : (s.setLink p l).result = s.result := by
  cases p <;> rfl

@[simp] theorem State.setLink_epoch (s : State) (p : Peer) (l : Link) : (s.setLink p l).epoch = s.epoch := by
  cases p <;> rfl

theorem State.link_setLink (s : State) (p q : Peer) (l : Link) :
    (s.setLink p l).link q = if q = p then l else s.link q := by
  cases p <;> cases q <;> rfl

@[simp] theorem State.link_setLink_self (s : State) (p : Peer) (l : Link) : (s.setLink p l).link p = l := by
  cases p <;> rfl

@[simp] theorem State.rd_setLink (s : State) (p : Peer) (l : Link) (a : Addr) :
    (s.setLink p l).rd a = s.rd a := by cases p <;> rfl

@[simp] theorem State.bit_setLink (s : State) (p : Peer) (l : Link) (a : Addr) (n : Nat) :
    (s.setLink p l).bit a n = s.bit a n := by cases p <;> rfl

/-- A state is told by its fields, its two links read through `State.link`. -/
theorem State.ext_links {s t : State} (hc : s.cfg = t.cfg) (hm : s.rte = t.rte)
    (hl : ∀ p, s.link p = t.link p) (hp : s.port = t.port) (hr : s.result = t.result)
    (he : s.epoch = t.epoch) : s = t := by
  cases s; cases t
  simp only [State.mk.injEq]
  exact ⟨hc, hm, hl .pri, hl .sec, hp, hr, he⟩

/-! ## The result and the port -/

@[simp] theorem withResult_cfg (s : State) (r : Result) : (s.withResult r).cfg = s.cfg := rfl

@[simp] theorem withResult_rte (s : State) (r : Result) : (s.withResult r).rte = s.rte := rfl

@[simp] theorem withResult_pri (s : State) (r : Result) : (s.withResult r).pri = s.pri := rfl

@[simp] theorem withResult_sec (s : State) (r : Result) : (s.withResult r).sec = s.sec := rfl

@[simp] theorem withResult_port (s : State) (r : Result) : (s.withResult r).port = s.port := rfl

@[simp] theorem withResult_epoch (s : State) (r : Result) : (s.withResult r).epoch = s.epoch := rfl

@[simp] theorem withResult_rd (s : State) (r : Result) (a : Addr) :
    (s.withResult r).rd a = s.rd a := rfl

@[simp] theorem withResult_bit (s : State) (r : Result) (a : Addr) (n : Nat) :
    (s.withResult r).bit a n = s.bit a n := rfl

@[simp] theorem withResult_link (s : State) (r : Result) (p : Peer) :
    (s.withResult r).link p = s.link p := by cases p <;> rfl

@[simp] theorem withResult_result (s : State) (r : Result) : (s.withResult r).result = r := rfl

@[simp] theorem withResult_rdNat (s : State) (r : Result) (a : Addr) :
    (s.withResult r).rdNat a = s.rdNat a := rfl

@[simp] theorem withResult_bufByte (s : State) (r : Result) (b : BufName) (p : Peer) (k : Nat) :
    (s.withResult r).bufByte b p k = s.bufByte b p k := by cases p <;> rfl

@[simp] theorem withPort_cfg (s : State) (ws : List Cmd) : (s.withPort ws).cfg = s.cfg := rfl

@[simp] theorem withPort_rte (s : State) (ws : List Cmd) : (s.withPort ws).rte = s.rte := rfl

@[simp] theorem withPort_pri (s : State) (ws : List Cmd) : (s.withPort ws).pri = s.pri := rfl

@[simp] theorem withPort_sec (s : State) (ws : List Cmd) : (s.withPort ws).sec = s.sec := rfl

@[simp] theorem withPort_result (s : State) (ws : List Cmd) : (s.withPort ws).result = s.result := rfl

@[simp] theorem withPort_epoch (s : State) (ws : List Cmd) : (s.withPort ws).epoch = s.epoch := rfl

@[simp] theorem withPort_port (s : State) (ws : List Cmd) : (s.withPort ws).port = ws := rfl

@[simp] theorem withPort_bit (s : State) (ws : List Cmd) (a : Addr) (n : Nat) :
    (s.withPort ws).bit a n = s.bit a n := rfl

@[simp] theorem withPort_rd (s : State) (ws : List Cmd) (a : Addr) :
    (s.withPort ws).rd a = s.rd a := rfl

@[simp] theorem withPort_link (s : State) (ws : List Cmd) (p : Peer) :
    (s.withPort ws).link p = s.link p := by cases p <;> rfl

/-- `finish` answers a next state, the given one with the result put in. -/
theorem finish_eq_next {r : Result} {s t : State} : finish r s = .next t ↔ t = s.withResult r := by
  unfold finish
  constructor
  · intro h; injection h with h; exact h.symm
  · intro h; rw [h]

/-! ## The latch rule and the peers' words -/

/-- What the latch rule does to every word: FLT_LAT is latched, every other word stays (R275). -/
theorem State.rd_latchUpdate (s : State) (a : Addr) :
    (latchUpdate s).rd a =
      if a = fltLat then latchWord (s.rd fltRaw) (s.rd seqOut) (s.rd fltLat) else s.rd a := State.rd_wr ..

theorem State.rd_latchUpdate_ne (s : State) {a : Addr} (h : a ≠ fltLat) :
    (latchUpdate s).rd a = s.rd a := State.rd_wr_ne s _ h

/-- The latch rule per bit of FLT_LAT (R275). -/
theorem State.bit_latchUpdate_fltLat (s : State) (j : Nat) :
    (latchUpdate s).bit fltLat j =
      if j < 4 then s.bit fltRaw j || (s.bit fltLat j && !s.bit seqOut (4 + j)) else s.bit fltLat j := by
  unfold State.bit
  rw [State.rd_latchUpdate, if_pos rfl, getLsbD_latchWord]

theorem State.bit_latchUpdate_ne (s : State) {a : Addr} (h : a ≠ fltLat) (j : Nat) :
    (latchUpdate s).bit a j = s.bit a j := by unfold State.bit; rw [State.rd_latchUpdate_ne s h]

@[simp] theorem State.rd_frmSet (s : State) (p : Peer) (n : Nat) (a : Addr) :
    (frmSet p n s).rd a = if a = frmStat p then putBit (s.rd (frmStat p)) n true else s.rd a :=
  State.rd_wrBit ..

@[simp] theorem State.rd_frmClear (s : State) (p : Peer) (n : Nat) (a : Addr) :
    (frmClear p n s).rd a = if a = frmStat p then putBit (s.rd (frmStat p)) n false else s.rd a :=
  State.rd_wrBit ..

@[simp] theorem frmSet_cfg (s : State) (p : Peer) (n : Nat) : (frmSet p n s).cfg = s.cfg := rfl

@[simp] theorem frmSet_pri (s : State) (p : Peer) (n : Nat) : (frmSet p n s).pri = s.pri := rfl

@[simp] theorem frmSet_sec (s : State) (p : Peer) (n : Nat) : (frmSet p n s).sec = s.sec := rfl

@[simp] theorem frmSet_port (s : State) (p : Peer) (n : Nat) : (frmSet p n s).port = s.port := rfl

@[simp] theorem frmSet_result (s : State) (p : Peer) (n : Nat) : (frmSet p n s).result = s.result := rfl

@[simp] theorem frmSet_epoch (s : State) (p : Peer) (n : Nat) : (frmSet p n s).epoch = s.epoch := rfl

@[simp] theorem frmSet_link (s : State) (p q : Peer) (n : Nat) : (frmSet p n s).link q = s.link q := by
  cases q <;> rfl

@[simp] theorem frmClear_cfg (s : State) (p : Peer) (n : Nat) : (frmClear p n s).cfg = s.cfg := rfl

@[simp] theorem frmClear_pri (s : State) (p : Peer) (n : Nat) : (frmClear p n s).pri = s.pri := rfl

@[simp] theorem frmClear_sec (s : State) (p : Peer) (n : Nat) : (frmClear p n s).sec = s.sec := rfl

@[simp] theorem frmClear_port (s : State) (p : Peer) (n : Nat) : (frmClear p n s).port = s.port := rfl

@[simp] theorem frmClear_result (s : State) (p : Peer) (n : Nat) : (frmClear p n s).result = s.result := rfl

@[simp] theorem frmClear_epoch (s : State) (p : Peer) (n : Nat) : (frmClear p n s).epoch = s.epoch := rfl

@[simp] theorem frmClear_link (s : State) (p q : Peer) (n : Nat) : (frmClear p n s).link q = s.link q := by
  cases q <;> rfl

/-! ## Bytes of the frame buffers -/

@[simp] theorem State.bufByte_wr (s : State) (a : Addr) (v : Word) (b : BufName) (p : Peer) (k : Nat) :
    (s.wr a v).bufByte b p k = s.bufByte b p k := by cases p <;> rfl

@[simp] theorem State.bufBytes_length (s : State) (b : BufName) (p : Peer) (k n : Nat) :
    (s.bufBytes b p k n).length = n := by
  induction n generalizing k with
  | zero => rfl
  | succ n ih => simp [State.bufBytes, ih]

theorem State.bufBytes_getElem? (s : State) (b : BufName) (p : Peer) (k n j : Nat) (h : j < n) :
    (s.bufBytes b p k n)[j]? = some (s.bufByte b p (k + j)) := by
  induction n generalizing k j with
  | zero => omega
  | succ n ih =>
    cases j with
    | zero => rfl
    | succ j =>
      simp only [State.bufBytes, List.getElem?_cons_succ]
      rw [ih _ _ (by omega)]
      congr 2; omega

/-- Bytes of a buffer depend only on its bytes one by one. -/
theorem State.bufBytes_congr {s t : State} {b : BufName} {p : Peer} {k n : Nat}
    (h : ∀ j, k ≤ j → j < k + n → s.bufByte b p j = t.bufByte b p j) :
    s.bufBytes b p k n = t.bufBytes b p k n := by
  induction n generalizing k with
  | zero => rfl
  | succ n ih =>
    simp only [State.bufBytes]
    rw [h k (Nat.le_refl _) (by omega), ih (fun j h1 h2 => h j (by omega) (by omega))]

/-- A buffer byte after a write of one buffer byte. -/
theorem bufByte_of_bufWrite (m : Buf) (k j : Nat) (b d : Byte) :
    (cellGet? (bufWrite m k b) j).getD d = if j = k ∧ k < bufMax then b else (cellGet? m j).getD d := by
  rw [cellGet?_bufWrite]; split <;> rfl

end Sys2Proof.Machine
end

