-- ==== Sys2Proof/Laws/Ops.lean ====
section
/-! SUPPORT. What each shared operation can do, said once: its effect on every word, and what it leaves
alone. -/

namespace Sys2Proof.Machine

/-- The named words used together are at different addresses. -/
theorem comStat_ne_frmStat (p : Peer) : comStat ≠ frmStat p := by cases p <;> decide
theorem comStat_ne_liveCnt (p : Peer) : comStat ≠ liveCnt p := by cases p <;> decide
theorem frmStat_ne_liveCnt (p q : Peer) : frmStat p ≠ liveCnt q := by cases p <;> cases q <;> decide
theorem frmStat_ne_fltLat (p : Peer) : frmStat p ≠ fltLat := by cases p <;> decide
theorem liveCnt_ne_fltLat (p : Peer) : liveCnt p ≠ fltLat := by cases p <;> decide
theorem comStat_ne_fltLat : comStat ≠ fltLat := by decide
theorem frmStat_inj {p q : Peer} : frmStat p = frmStat q ↔ p = q := by
  cases p <;> cases q <;> simp [frmStat]
theorem liveCnt_inj {p q : Peer} : liveCnt p = liveCnt q ↔ p = q := by
  cases p <;> cases q <;> simp [liveCnt]

/-! ## The operations that touch only the RTE -/

/-- `t` differs from `s` in RTE words only. -/
structure RteOnly (s t : State) : Prop where
  cfg : t.cfg = s.cfg
  pri : t.pri = s.pri
  sec : t.sec = s.sec
  port : t.port = s.port
  result : t.result = s.result
  epoch : t.epoch = s.epoch

namespace RteOnly

theorem refl (s : State) : RteOnly s s := ⟨rfl, rfl, rfl, rfl, rfl, rfl⟩

theorem trans {s t u : State} (h : RteOnly s t) (k : RteOnly t u) : RteOnly s u :=
  ⟨k.cfg.trans h.cfg, k.pri.trans h.pri, k.sec.trans h.sec, k.port.trans h.port,
    k.result.trans h.result, k.epoch.trans h.epoch⟩

theorem wr (s : State) (a : Addr) (v : Word) : RteOnly s (s.wr a v) := ⟨rfl, rfl, rfl, rfl, rfl, rfl⟩

theorem link {s t : State} (h : RteOnly s t) (p : Peer) : t.link p = s.link p := by
  cases p
  · exact h.pri
  · exact h.sec

theorem bufByte {s t : State} (h : RteOnly s t) (b : BufName) (p : Peer) (k : Nat) :
    t.bufByte b p k = s.bufByte b p k := by
  unfold State.bufByte; rw [h.link, h.epoch]

theorem ite {s t u : State} {c : Prop} [Decidable c] (h : RteOnly s t) (k : RteOnly s u) :
    RteOnly s (if c then t else u) := by split <;> assumption

theorem foldl {α : Type} {f : State → α → State} (hf : ∀ s x, RteOnly s (f s x)) (l : List α) (s : State) :
    RteOnly s (l.foldl f s) := by
  induction l generalizing s with
  | nil => exact refl s
  | cons x l ih => exact (hf s x).trans (ih _)

end RteOnly

theorem latchUpdate_rteOnly (s : State) : RteOnly s (latchUpdate s) := RteOnly.wr ..

theorem reportSilent_rteOnly (p : Peer) (s : State) : RteOnly s (reportSilent p s) := by
  unfold reportSilent
  exact ((RteOnly.wr ..).trans (RteOnly.wr ..)).trans (RteOnly.ite (RteOnly.wr ..) (RteOnly.refl _))

theorem clearSilent_rteOnly (p : Peer) (s : State) : RteOnly s (clearSilent p s) := by
  unfold clearSilent
  exact ((RteOnly.wr ..).trans (RteOnly.wr ..)).trans (RteOnly.ite (RteOnly.wr ..) (RteOnly.refl _))

theorem storeEntry_rteOnly (s : State) (e : Entry) (v : Nat) : RteOnly s (storeEntry s e v) := by
  unfold storeEntry
  split
  · exact (RteOnly.wr ..).trans (RteOnly.wr ..)
  · exact RteOnly.wr ..

theorem noteVersion_rteOnly (p : Peer) (e : Entry) (v : Nat) (s : State) :
    RteOnly s (noteVersion p e v s) := by
  unfold noteVersion
  split
  · exact RteOnly.ite (RteOnly.wr ..) (RteOnly.refl _)
  · exact RteOnly.refl _

theorem drainEntry_rteOnly (p : Peer) (e : Entry) (v : Nat) (s : State) :
    RteOnly s (drainEntry p e v s) := (noteVersion_rteOnly ..).trans (storeEntry_rteOnly ..)

theorem drainFields_rteOnly (p : Peer) (l : Layout) (cur : Nat) (s : State) :
    RteOnly s (drainFields p cur l s) := by
  induction l generalizing cur s with
  | nil => exact RteOnly.refl s
  | cons e l ih => exact (drainEntry_rteOnly ..).trans (ih _ _)

theorem drainFinish_rteOnly (p : Peer) (s : State) : RteOnly s (drainFinish p s) :=
  (((RteOnly.wr ..).trans (clearSilent_rteOnly ..)).trans (RteOnly.wr ..)).trans (latchUpdate_rteOnly _)

theorem countDown_rteOnly (p : Peer) (s : State) : RteOnly s (countDown p s) :=
  RteOnly.ite (RteOnly.refl _) (RteOnly.wr ..)

theorem liveStep_rteOnly (p : Peer) (s : State) : RteOnly s (liveStep p s) :=
  RteOnly.ite ((countDown_rteOnly p s).trans (reportSilent_rteOnly ..)) (countDown_rteOnly p s)

theorem debounce_rteOnly (g : Sig) (s : State) : RteOnly s (debounce g s) := by
  unfold debounce
  exact RteOnly.ite (RteOnly.ite ((RteOnly.wr ..).trans (RteOnly.wr ..)) (RteOnly.wr ..))
    (RteOnly.ite (RteOnly.wr ..) (RteOnly.refl _))

theorem seqArm_rteOnly (s : State) : RteOnly s (seqArm s) := by
  have init : RteOnly s (seqInitArm s) := by
    unfold seqInitArm
    exact (RteOnly.wr ..).trans (RteOnly.ite ((RteOnly.wr ..).trans (RteOnly.wr ..)) (RteOnly.wr ..))
  have rearm : RteOnly s (seqRearm s) := by
    unfold seqRearm
    exact RteOnly.ite ((RteOnly.wr ..).trans (RteOnly.wr ..)) (RteOnly.refl _)
  have auto : ∀ u, RteOnly u (seqAutoClear u) := by
    intro u
    unfold seqAutoClear
    exact RteOnly.ite (((RteOnly.wr ..).trans (RteOnly.wr ..)).trans (RteOnly.wr ..)) (RteOnly.refl _)
  have idle : ∀ ok, RteOnly s (seqIdleArm ok s) := by
    intro ok
    unfold seqIdleArm
    exact (rearm.trans (auto _)).trans
      (RteOnly.ite ((RteOnly.wr ..).trans (RteOnly.wr ..)) (RteOnly.refl _))
  have on : ∀ ok, RteOnly s (seqOnArm ok s) := by
    intro ok
    unfold seqOnArm
    exact RteOnly.ite ((RteOnly.wr ..).trans (RteOnly.ite (RteOnly.wr ..) (RteOnly.refl _)))
      ((RteOnly.wr ..).trans (RteOnly.wr ..))
  have off : RteOnly s (seqOffArm s) :=
    ((RteOnly.wr ..).trans (RteOnly.wr ..)).trans (RteOnly.wr ..)
  unfold seqArm
  exact RteOnly.ite init (RteOnly.ite (idle _) (RteOnly.ite (on _) (RteOnly.ite off (RteOnly.wr ..))))

/-! ## Words they leave alone -/

/-- The silent-link report writes COM_STAT only. -/
theorem reportSilent_rd_ne (p : Peer) (s : State) {a : Addr} (h : a ≠ comStat) :
    (reportSilent p s).rd a = s.rd a := by
  simp only [reportSilent]
  split <;> simp [State.rd_wrBit, h]

/-- The report sets UART_FAIL[p] and NO_DATA[p], and COM_FAULT while VIN_OK; every other bit of COM_STAT
stays (R195, R196). -/
theorem reportSilent_bit (p : Peer) (s : State) (j : Nat) :
    (reportSilent p s).bit comStat j =
      (s.bit comStat j || decide (j = bUartFail p) || decide (j = bNoData p)
        || (decide (j = bComFault) && s.bit sysIn bVinOk)) := by
  have hu : bUartFail p < 16 := by cases p <;> decide
  have hn : bNoData p < 16 := by cases p <;> decide
  have hs : ((s.wrBit comStat (bUartFail p) true).wrBit comStat (bNoData p) true).bit sysIn bVinOk
      = s.bit sysIn bVinOk := by
    rw [State.bit_wrBit _ _ _ _ _ _ hn, State.bit_wrBit _ _ _ _ _ _ hu]
    simp [show sysIn ≠ comStat by decide]
  simp only [reportSilent, hs]
  by_cases hv : s.bit sysIn bVinOk = true
  · simp only [hv, if_true]
    rw [State.bit_wrBit _ _ _ _ _ _ (by decide), State.bit_wrBit _ _ _ _ _ _ hn,
      State.bit_wrBit _ _ _ _ _ _ hu]
    by_cases h1 : j = bComFault <;> by_cases h2 : j = bNoData p <;> by_cases h3 : j = bUartFail p <;>
      simp_all
  · simp only [hv]
    rw [if_neg (by simp), State.bit_wrBit _ _ _ _ _ _ hn, State.bit_wrBit _ _ _ _ _ _ hu]
    by_cases h2 : j = bNoData p <;> by_cases h3 : j = bUartFail p <;> simp_all

/-- Clearing the failure bits writes COM_STAT only. -/
theorem clearSilent_rd_ne (p : Peer) (s : State) {a : Addr} (h : a ≠ comStat) :
    (clearSilent p s).rd a = s.rd a := by
  simp only [clearSilent]
  split <;> simp [State.rd_wrBit, h]

/-- The peer that is not `p`. -/
def otherPeer : Peer → Peer
  | .pri => .sec
  | .sec => .pri

/-- Clearing: UART_FAIL[p] and NO_DATA[p] fall, and COM_FAULT unless the other peer is failed; every other
bit of COM_STAT stays (R186, R187). -/
theorem clearSilent_bit (p : Peer) (s : State) (j : Nat) :
    (clearSilent p s).bit comStat j =
      (s.bit comStat j && !decide (j = bUartFail p) && !decide (j = bNoData p)
        && !(decide (j = bComFault) && !s.bit comStat (bUartFail (otherPeer p)))) := by
  have hn : bNoData p < 16 := by cases p <;> decide
  have hu : bUartFail p < 16 := by cases p <;> decide
  have key : ∀ i, ((s.wrBit comStat (bUartFail p) false).wrBit comStat (bNoData p) false).bit comStat i
      = (s.bit comStat i && !decide (i = bUartFail p) && !decide (i = bNoData p)) := by
    intro i
    rw [State.bit_wrBit _ _ _ _ _ _ hn, State.bit_wrBit _ _ _ _ _ _ hu]
    by_cases h2 : i = bNoData p <;> by_cases h3 : i = bUartFail p <;> simp_all
  have cond : (!((s.wrBit comStat (bUartFail p) false).wrBit comStat (bNoData p) false).bit comStat
        (bUartFail .pri)
      && !((s.wrBit comStat (bUartFail p) false).wrBit comStat (bNoData p) false).bit comStat
        (bUartFail .sec)) = !s.bit comStat (bUartFail (otherPeer p)) := by
    rw [key, key]; cases p <;> simp [bUartFail, bNoData, otherPeer]
  simp only [clearSilent, cond]
  by_cases ho : s.bit comStat (bUartFail (otherPeer p)) = true
  · simp [ho, key]
  · simp only [Bool.not_eq_true] at ho
    simp only [ho, Bool.not_false, if_true, Bool.and_true]
    rw [State.bit_wrBit _ _ _ _ _ _ (by decide), key]
    by_cases h1 : j = bComFault <;> simp [h1]

/-- The words an entry is stored in. -/
theorem storeEntry_rd (s : State) (e : Entry) (v : Nat) (a : Addr) :
    (storeEntry s e v).rd a =
      match e.width with
      | .w32 => if a = e.addr + 1 then trunc16 (v / 65536)
                else if a = e.addr then trunc16 (v % 65536) else s.rd a
      | _ => if a = e.addr then trunc16 v else s.rd a := by
  unfold storeEntry
  cases e.width <;> simp only [State.rd_wr]

theorem noteVersion_rd_ne (p : Peer) (e : Entry) (v : Nat) (s : State) {a : Addr} (h : a ≠ comStat) :
    (noteVersion p e v s).rd a = s.rd a := by
  unfold noteVersion
  split
  · split
    · simp [State.rd_wrBit, h]
    · rfl
  · rfl

/-- An address that no word of the entry has keeps its value when the entry is drained, unless it is
COM_STAT. -/
theorem drainEntry_rd_ne (p : Peer) (e : Entry) (v : Nat) (s : State) {a : Addr} (hc : a ≠ comStat)
    (h0 : a ≠ e.addr) (h1 : e.width = .w32 → a ≠ e.addr + 1) :
    (drainEntry p e v s).rd a = s.rd a := by
  unfold drainEntry
  rw [storeEntry_rd]
  cases hw : e.width
  · simp [h0, noteVersion_rd_ne _ _ _ _ hc]
  · simp [h0, noteVersion_rd_ne _ _ _ _ hc]
  · simp only [if_neg (h1 hw), if_neg h0, noteVersion_rd_ne _ _ _ _ hc]

/-- The layout names the address: it is a word of one of its entries. -/
def layoutNames (l : Layout) (a : Addr) : Prop :=
  ∃ e ∈ l, a = e.addr ∨ (e.width = .w32 ∧ a = e.addr + 1)

/-- Draining the fields leaves every word that the layout does not name, but for COM_STAT. -/
theorem drainFields_rd_ne (p : Peer) (l : Layout) (cur : Nat) (s : State) {a : Addr} (hc : a ≠ comStat)
    (h : ¬ layoutNames l a) : (drainFields p cur l s).rd a = s.rd a := by
  induction l generalizing cur s with
  | nil => rfl
  | cons e l ih =>
    simp only [drainFields]
    rw [ih _ _ (fun ⟨d, hd, k⟩ => h ⟨d, List.mem_cons_of_mem _ hd, k⟩)]
    exact drainEntry_rd_ne p e _ s hc (fun k => h ⟨e, List.mem_cons_self .., .inl k⟩)
      (fun hw k => h ⟨e, List.mem_cons_self .., .inr ⟨hw, k⟩⟩)

/-- What `drainFinish` does to every word (R181, R186, R187). -/
theorem drainFinish_rd_ne (p : Peer) (s : State) {a : Addr} (h1 : a ≠ liveCnt p) (h2 : a ≠ comStat)
    (h3 : a ≠ frmStat p) (h4 : a ≠ fltLat) : (drainFinish p s).rd a = s.rd a := by
  unfold drainFinish
  rw [State.rd_latchUpdate_ne _ h4, State.rd_frmClear, if_neg h3, clearSilent_rd_ne _ _ h2,
    State.rd_wr_ne _ _ h1]

theorem countDown_rd_ne (p : Peer) (s : State) {a : Addr} (h : a ≠ liveCnt p) :
    (countDown p s).rd a = s.rd a := by
  unfold countDown
  split
  · rfl
  · exact State.rd_wr_ne _ _ h

/-- The counter after it counted down (R195). -/
theorem countDown_counter (p : Peer) (s : State) :
    (countDown p s).rdNat (liveCnt p) = s.rdNat (liveCnt p) - 1 := by
  unfold countDown
  split
  · rename_i h
    simp [State.rdNat, h]
  · have := (s.rd (liveCnt p)).isLt
    simp only [State.rdNat, State.rd_wr_self, trunc16, BitVec.toNat_ofNat]
    omega

theorem rd_eq_zero_iff (s : State) (a : Addr) : s.rd a = 0 ↔ s.rdNat a = 0 :=
  ⟨fun h => by simp [State.rdNat, h], fun h => BitVec.eq_of_toNat_eq (by simpa [State.rdNat] using h)⟩

/-- One liveness step touches the peer's counter and COM_STAT only (R195). -/
theorem liveStep_rd_ne (p : Peer) (s : State) {a : Addr} (h1 : a ≠ liveCnt p) (h2 : a ≠ comStat) :
    (liveStep p s).rd a = s.rd a := by
  unfold liveStep
  split
  · rw [reportSilent_rd_ne _ _ h2, countDown_rd_ne _ _ h1]
  · exact countDown_rd_ne _ _ h1

/-- The counter after one liveness step: down by one, holding at 0 (R195). -/
theorem liveStep_counter (p : Peer) (s : State) :
    (liveStep p s).rdNat (liveCnt p) = s.rdNat (liveCnt p) - 1 := by
  have hne : liveCnt p ≠ comStat := (comStat_ne_liveCnt p).symm
  unfold liveStep
  split
  · unfold State.rdNat
    rw [reportSilent_rd_ne _ _ hne]
    exact countDown_counter p s
  · exact countDown_counter p s

/-- COM_STAT after one liveness step (R195, R196). -/
theorem liveStep_comStat (p : Peer) (s : State) (j : Nat) :
    (liveStep p s).bit comStat j =
      (s.bit comStat j || (decide (s.rdNat (liveCnt p) ≤ 1) &&
        (decide (j = bUartFail p) || decide (j = bNoData p)
          || (decide (j = bComFault) && s.bit sysIn bVinOk)))) := by
  have hb : ∀ a, a ≠ liveCnt p → ∀ i, (countDown p s).bit a i = s.bit a i := by
    intro a h i; unfold State.bit; rw [countDown_rd_ne _ _ h]
  have hsys : sysIn ≠ liveCnt p := by cases p <;> decide
  have hz : (countDown p s).rd (liveCnt p) = 0 ↔ s.rdNat (liveCnt p) ≤ 1 := by
    rw [rd_eq_zero_iff, countDown_counter]; omega
  unfold liveStep
  by_cases h : s.rdNat (liveCnt p) ≤ 1
  · rw [if_pos (hz.2 h), reportSilent_bit, hb _ (comStat_ne_liveCnt p), hb _ hsys]
    simp [h, Bool.or_assoc]
  · rw [if_neg (fun k => h (hz.1 k)), hb _ (comStat_ne_liveCnt p)]
    simp [h]

end Sys2Proof.Machine
end

