-- ==== Sys2Proof/Laws/Fans.lean ====
section
/-! SUPPORT. The fan records do not overlap each other or any named word, and an operation over all fans
does to each record what it does to that fan alone (spec/10_state.md R51). -/

namespace Sys2Proof.Machine

theorem FanWord.offset_lt (x : FanWord) : x.offset < 8 := by cases x <;> decide

theorem FanWord.offset_inj {x y : FanWord} : x.offset = y.offset ↔ x = y := by
  cases x <;> cases y <;> decide

/-- The address of a fan word as a number (R51). -/
theorem fanAddr_toNat {i : Nat} (hi : i < 4) (x : FanWord) : (fanAddr i x).toNat = 0x30 + 8 * i + x.offset := by
  have := x.offset_lt
  unfold fanAddr
  rw [BitVec.toNat_ofNat]
  omega

/-- Two fan words of fans that can exist are at the same address only when they are the same. -/
theorem fanAddr_inj {i j : Nat} (hi : i < 4) (hj : j < 4) {x y : FanWord} :
    fanAddr i x = fanAddr j y ↔ i = j ∧ x = y := by
  constructor
  · intro h
    have h := congrArg BitVec.toNat h
    rw [fanAddr_toNat hi, fanAddr_toNat hj] at h
    have := x.offset_lt
    have := y.offset_lt
    obtain rfl : i = j := by omega
    exact ⟨rfl, FanWord.offset_inj.mp (by omega)⟩
  · rintro ⟨rfl, rfl⟩; rfl

/-- A word outside 0x30..0x4F is no fan word. -/
theorem ne_fanAddr {a : Addr} {i : Nat} (hi : i < 4) (x : FanWord) (ha : a.toNat < 0x30 ∨ 0x50 ≤ a.toNat) :
    a ≠ fanAddr i x := by
  rintro rfl
  rw [fanAddr_toNat hi] at ha
  have := x.offset_lt
  omega

/-- `a` is a word of the record of fan `j`. -/
def inRecord (j : Nat) (a : Addr) : Prop := ∃ x, a = fanAddr j x

theorem not_inRecord_of_ne {i j : Nat} (hi : i < 4) (hj : j < 4) (h : j ≠ i) (x : FanWord) :
    ¬ inRecord j (fanAddr i x) := by
  rintro ⟨y, hy⟩
  exact h ((fanAddr_inj hi hj).mp hy).1.symm

theorem not_inRecord {a : Addr} {j : Nat} (hj : j < 4) (ha : a.toNat < 0x30 ∨ 0x50 ≤ a.toNat) :
    ¬ inRecord j a := fun ⟨x, hx⟩ => ne_fanAddr hj x ha hx

/-- An operation over a list of fans leaves every word that none of them touches. -/
theorem foldl_rd_ne {T : Nat → Addr → Prop} {f : State → Nat → State}
    (touch : ∀ s j a, ¬ T j a → (f s j).rd a = s.rd a) {l : List Nat} (s : State) {a : Addr}
    (h : ∀ j ∈ l, ¬ T j a) : (l.foldl f s).rd a = s.rd a := by
  induction l generalizing s with
  | nil => rfl
  | cons j l ih =>
    rw [List.foldl_cons, ih _ (fun k hk => h k (List.mem_cons_of_mem _ hk)), touch _ _ _ (h j (List.mem_cons_self ..))]

/-- An operation over a list of fans does to the words of fan `i` what it does to them in a state that
differs from the first only in words of the other fans. -/
theorem foldl_at {T : Nat → Addr → Prop} {f : State → Nat → State} (only : ∀ s j, RteOnly s (f s j))
    (touch : ∀ s j a, ¬ T j a → (f s j).rd a = s.rd a) {l : List Nat} (hn : l.Nodup) {i : Nat} (hi : i ∈ l)
    (s : State) :
    ∃ u, RteOnly s u ∧ ∀ a, (∀ j ∈ l, j ≠ i → ¬ T j a) → u.rd a = s.rd a ∧ (l.foldl f s).rd a = (f u i).rd a := by
  obtain ⟨l1, l2, rfl⟩ := List.append_of_mem hi
  have h1 : i ∉ l1 := fun h => by simp [List.nodup_append] at hn; exact hn.2.2 i h |>.1 rfl
  have h2 : i ∉ l2 := fun h => by simp [List.nodup_append] at hn; exact hn.2.1.1 h
  refine ⟨l1.foldl f s, RteOnly.foldl only l1 s, fun a ha => ⟨?_, ?_⟩⟩
  · exact foldl_rd_ne touch s (fun j hj => ha j (by simp [hj]) (fun e => h1 (e ▸ hj)))
  · rw [List.foldl_append, List.foldl_cons,
      foldl_rd_ne touch _ (fun j hj => ha j (by simp [hj]) (fun e => h2 (e ▸ hj)))]

theorem mem_fans {cfg : Config} {i : Nat} : i ∈ fans cfg ↔ i < cfg.nfan := List.mem_range

theorem fans_nodup (cfg : Config) : (fans cfg).Nodup := List.nodup_range

theorem arbitrateFan_rteOnly (tgt : Nat) (s : State) (i : Nat) : RteOnly s (arbitrateFan tgt s i) := by
  unfold arbitrateFan
  exact ((RteOnly.ite (RteOnly.refl _) (RteOnly.wr ..)).trans (RteOnly.wr ..)).trans (RteOnly.wr ..)

theorem slewFan_rteOnly (o : Bool) (e : Nat → Int) (s : State) (i : Nat) : RteOnly s (slewFan o e s i) :=
  RteOnly.wr ..

theorem fanstatFan_rteOnly (s : State) (i : Nat) : RteOnly s (fanstatFan s i) := by
  unfold fanstatFan
  exact RteOnly.ite ((((((RteOnly.wr ..).trans (RteOnly.wr ..)).trans (RteOnly.wr ..)).trans
    (RteOnly.wr ..)).trans (RteOnly.wr ..)).trans (RteOnly.wr ..))
    (((((RteOnly.wr ..).trans (RteOnly.wr ..)).trans (RteOnly.wr ..)).trans (RteOnly.wr ..)).trans
      (RteOnly.wr ..))

/-- Arbitration writes the override and the status word of its fan only (R217 to R219). -/
theorem arbitrateFan_rd_ne (tgt : Nat) (s : State) (i : Nat) {a : Addr} (h1 : a ≠ fanAddr i .ovr)
    (h2 : a ≠ fanAddr i .stat) : (arbitrateFan tgt s i).rd a = s.rd a := by
  unfold arbitrateFan
  simp only
  rw [State.rd_wrBit, if_neg h2, State.rd_wrBit, if_neg h2]
  split
  · rfl
  · rw [State.rd_wr_ne _ _ h1]

/-- The slew writes the duty of its fan only (R222, R223). -/
theorem slewFan_rd_ne (o : Bool) (e : Nat → Int) (s : State) (i : Nat) {a : Addr} (h : a ≠ fanAddr i .duty) :
    (slewFan o e s i).rd a = s.rd a := State.rd_wr_ne _ _ h

/-- FANSTAT_TICK writes six words of each fan's record (R231). -/
theorem fanstatFan_rd_ne (s : State) (i : Nat) {a : Addr} (h1 : a ≠ fanAddr i .speed) (h2 : a ≠ fanAddr i .pulse)
    (h3 : a ≠ fanAddr i .warnCnt) (h4 : a ≠ fanAddr i .failCnt) (h5 : a ≠ fanAddr i .okCnt)
    (h6 : a ≠ fanAddr i .stat) : (fanstatFan s i).rd a = s.rd a := by
  unfold fanstatFan
  simp only
  split
  · rw [State.rd_wr_ne _ _ h6, State.rd_wr_ne _ _ h5, State.rd_wr_ne _ _ h4, State.rd_wr_ne _ _ h3,
      State.rd_wr_ne _ _ h2, State.rd_wr_ne _ _ h1]
  · rw [State.rd_wr_ne _ _ h5, State.rd_wr_ne _ _ h4, State.rd_wr_ne _ _ h3, State.rd_wr_ne _ _ h2,
      State.rd_wr_ne _ _ h1]

end Sys2Proof.Machine
end

