-- ==== Sys2Proof/Laws/Framer.lean ====
section
/-! SUPPORT. What the framer's operations can touch: the hidden state of one link and that link's FRM_STAT
word (spec/41_framer.md R150), and FLT_LAT by the latch rule at their end (spec/00_scope.md R16). -/

namespace Sys2Proof.Machine

/-- `t` differs from `s` in the hidden state of link `p` and in FRM_STAT[p] only. -/
structure LinkOnly (p : Peer) (s t : State) : Prop where
  cfg : t.cfg = s.cfg
  rd : ∀ a, a ≠ frmStat p → t.rd a = s.rd a
  link : ∀ q, q ≠ p → t.link q = s.link q
  port : t.port = s.port
  result : t.result = s.result
  epoch : t.epoch = s.epoch

namespace LinkOnly

theorem refl (p : Peer) (s : State) : LinkOnly p s s :=
  ⟨rfl, fun _ _ => rfl, fun _ _ => rfl, rfl, rfl, rfl⟩

theorem trans {p : Peer} {s t u : State} (h : LinkOnly p s t) (k : LinkOnly p t u) : LinkOnly p s u :=
  ⟨k.cfg.trans h.cfg, fun a ha => (k.rd a ha).trans (h.rd a ha), fun q hq => (k.link q hq).trans (h.link q hq),
    k.port.trans h.port, k.result.trans h.result, k.epoch.trans h.epoch⟩

theorem setLink (p : Peer) (s : State) (l : Link) : LinkOnly p s (s.setLink p l) :=
  ⟨by simp, fun _ _ => by simp, fun q hq => by rw [State.link_setLink, if_neg hq], by simp, by simp, by simp⟩

theorem frmSet (p : Peer) (n : Nat) (s : State) : LinkOnly p s (frmSet p n s) :=
  ⟨rfl, fun a ha => by simp [ha], fun q _ => by simp, rfl, rfl, rfl⟩

theorem frmClear (p : Peer) (n : Nat) (s : State) : LinkOnly p s (frmClear p n s) :=
  ⟨rfl, fun a ha => by simp [ha], fun q _ => by simp, rfl, rfl, rfl⟩

theorem ite {p : Peer} {s t u : State} {c : Prop} [Decidable c] (h : LinkOnly p s t) (k : LinkOnly p s u) :
    LinkOnly p s (if c then t else u) := by split <;> assumption

theorem bit {p : Peer} {s t : State} (h : LinkOnly p s t) {a : Addr} (ha : a ≠ frmStat p) (n : Nat) :
    t.bit a n = s.bit a n := by unfold State.bit; rw [h.rd a ha]

end LinkOnly

/-- `t` differs from `s` in the hidden state of link `p`, in FRM_STAT[p] and in FLT_LAT only. -/
structure LinkTouch (p : Peer) (s t : State) : Prop where
  cfg : t.cfg = s.cfg
  rd : ∀ a, a ≠ frmStat p → a ≠ fltLat → t.rd a = s.rd a
  link : ∀ q, q ≠ p → t.link q = s.link q
  port : t.port = s.port
  epoch : t.epoch = s.epoch

/-- What touches one link touches no more. -/
theorem LinkOnly.touch {p : Peer} {s t : State} (h : LinkOnly p s t) : LinkTouch p s t :=
  ⟨h.cfg, fun a ha _ => h.rd a ha, h.link, h.port, h.epoch⟩

/-- The latch rule after what touches one link (R16). -/
theorem LinkOnly.latched {p : Peer} {s t : State} (h : LinkOnly p s t) : LinkTouch p s (latchUpdate t) :=
  ⟨h.cfg, fun a ha hl => (State.rd_latchUpdate_ne t hl).trans (h.rd a ha),
    fun q hq => (latchUpdate_link t q).trans (h.link q hq), h.port, h.epoch⟩

/-- An operation of one link leaves everything outside it. -/
theorem LinkTouch.outsideKeptBut {p : Peer} {s u : State} (h : LinkTouch p s u) (r : Result) :
    outsideKeptBut p s (u.withResult r) :=
  ⟨h.cfg, fun q hq => (withResult_link u r q).trans (h.link q hq), h.port, h.epoch⟩

/-- An operation of one link leaves every word but its FRM_STAT and FLT_LAT. -/
theorem LinkTouch.wordsKept {p : Peer} {s u : State} (h : LinkTouch p s u) (r : Result) :
    wordsKept s (u.withResult r) [frmStat p, fltLat] := by
  intro a ha
  simp only [List.mem_cons, List.not_mem_nil, or_false, not_or] at ha
  exact h.rd a ha.1 ha.2

/-- FLT_LAT after an operation of one link is what the latch rule makes of the words before it (R275). -/
theorem LinkOnly.latchedFrom {p : Peer} {s u : State} (h : LinkOnly p s u) (r : Result) :
    latchedFrom s ((latchUpdate u).withResult r) := by
  have word : ∀ a, a = fltRaw ∨ a = fltLat ∨ a = seqOut → ∀ n, u.bit a n = s.bit a n := fun a ha n =>
    h.bit (by rcases ha with rfl | rfl | rfl <;> cases p <;> decide) n
  intro n
  rw [withResult_bit, State.bit_latchUpdate_fltLat, word _ (.inl rfl), word _ (.inr (.inl rfl)),
    word _ (.inr (.inr rfl))]

/-- The latch rule leaves FRM_STAT (R275). -/
@[simp] theorem latchUpdate_frm_bit (p : Peer) (s : State) (n : Nat) :
    (latchUpdate s).bit (frmStat p) n = s.bit (frmStat p) n := State.bit_latchUpdate_ne s (frmStat_ne_fltLat p) n

/-- The latch rule leaves the frame buffers. -/
@[simp] theorem latchUpdate_bufByte (s : State) (b : BufName) (p : Peer) (k : Nat) :
    (latchUpdate s).bufByte b p k = s.bufByte b p k := State.bufByte_wr ..

/-- The latch rule leaves the frame buffers. -/
@[simp] theorem latchUpdate_bufBytes (s : State) (b : BufName) (p : Peer) (k n : Nat) :
    (latchUpdate s).bufBytes b p k n = s.bufBytes b p k n :=
  State.bufBytes_congr fun j _ _ => latchUpdate_bufByte s b p j

theorem rxToIdle_linkOnly (p : Peer) (s : State) : LinkOnly p s (rxToIdle p s) := LinkOnly.setLink ..

theorem rxHandOver_linkOnly (p : Peer) (s : State) : LinkOnly p s (rxHandOver p s) :=
  (LinkOnly.setLink ..).trans (LinkOnly.frmSet ..)

theorem rxComplete_linkOnly (p : Peer) (s : State) : LinkOnly p s (rxComplete p s) :=
  LinkOnly.ite (LinkOnly.ite (LinkOnly.frmSet ..) (rxHandOver_linkOnly ..)) (LinkOnly.frmSet ..)

theorem rxBegin_linkOnly (p : Peer) (b : Byte) (bc : Bool) (s : State) : LinkOnly p s (rxBegin p b bc s) :=
  LinkOnly.setLink ..

theorem rxAccept_linkOnly (p : Peer) (b : Byte) (s : State) : LinkOnly p s (rxAccept p b s) := by
  refine LinkOnly.ite ?_ ?_
  · exact LinkOnly.ite (rxBegin_linkOnly ..) (LinkOnly.ite (rxBegin_linkOnly ..)
      ((LinkOnly.frmSet ..).trans (LinkOnly.setLink ..)))
  · exact LinkOnly.ite (((LinkOnly.setLink ..).trans (rxComplete_linkOnly ..)).trans (rxToIdle_linkOnly ..))
      (LinkOnly.setLink ..)

theorem rxBoundary_linkOnly (p : Peer) (s : State) : LinkOnly p s (rxBoundary p s) := by
  unfold rxBoundary
  exact (LinkOnly.ite ((LinkOnly.frmSet ..).trans (rxToIdle_linkOnly ..)) (LinkOnly.refl ..)).trans
    (LinkOnly.setLink ..)

theorem txBegin_linkOnly (p : Peer) (s : State) : LinkOnly p s (txBegin p s) :=
  (LinkOnly.setLink ..).trans (LinkOnly.frmSet ..)

theorem txAdvance_linkOnly (p : Peer) (s : State) : LinkOnly p s (txAdvance p s) := by
  unfold txAdvance
  exact LinkOnly.ite ((LinkOnly.setLink ..).trans (LinkOnly.frmClear ..)) (LinkOnly.setLink ..)

end Sys2Proof.Machine
end

