-- ==== Sys2Proof/Laws/Exec.lean ====
section
/-! SUPPORT. What one operation and one step can do, said once: the state an operation leaves but for its
result, and the inversion of `exec`, `fetch` and `step`. -/

namespace Sys2Proof.Machine

/-- The state an operation leaves, but for the result it returns. -/
def effect : Instr → State → State
  | .reset, s => latchUpdate (resetBlock s)
  | .regRd _, s => s
  | .regWr a d, s => latchUpdate (s.wr a d)
  | .gpioTick, s => latchUpdate (debounce .bulk (debounce .swen (debounce .halt s)))
  | .seqTick, s => latchUpdate (seqArm s)
  | .fanTick, s => latchUpdate (fanTick s)
  | .tachPulse i, s =>
    latchUpdate (s.wr (fanAddr i .pulse) (trunc16 (satU16 (s.rdNat (fanAddr i .pulse) + 1))))
  | .fanstatTick, s => latchUpdate ((fans s.cfg).foldl fanstatFan s)
  | .liveTick, s => latchUpdate (liveStep .sec (liveStep .pri s))
  | .rxByte p b, s => if rxIgnores p s then s else latchUpdate (rxAccept p b s)
  | .rxIdle p, s => latchUpdate (rxBoundary p s)
  | .rxDrain p, s =>
    if s.bit (frmStat p) bRxPend then
      drainFinish p (drainFields p 1 (rxLayoutOf s.cfg p (s.link p).rxcBc) s)
    else s
  | .txStart p, s => latchUpdate (if txRefuses p s then frmSet p bTxRefused s else txBegin p s)
  | .txByte p, s =>
    if s.bit (frmStat p) bTxBusy then
      latchUpdate (if (s.link p).txIdx ≥ (s.link p).txLen then frmClear p bTxBusy s else txAdvance p s)
    else s

/-- The result an operation returns (R110): a word from REG_RD, a byte or nothing from TX_BYTE. -/
def resultOf : Instr → State → Result
  | .regRd a, s => .word (s.rd a)
  | .txByte p, s =>
    if s.bit (frmStat p) bTxBusy then
      if (s.link p).txIdx ≥ (s.link p).txLen then .none else .byte (s.bufByte .txbuf p (s.link p).txIdx)
    else .none
  | _, _ => .none

/-- A legal operation ends with its effect and its result (R8, R110). -/
theorem exec_of_wf (i : Instr) (s : State) (h : Instr.wf s.cfg i = true) :
    exec i s = finish (resultOf i s) (effect i s) := by
  cases i with
  | tachPulse i =>
    have : i.val < s.cfg.nfan := by simpa [Instr.wf] using h
    simp [exec, execTachPulse, this, effect, resultOf]
  | txByte p =>
    simp only [exec, execTxByte, effect, resultOf]
    split
    · split <;> simp only [*]
    · rfl
  | reset => rfl
  | regRd a => rfl
  | regWr a d => rfl
  | gpioTick => rfl
  | seqTick => rfl
  | fanTick => rfl
  | fanstatTick => rfl
  | liveTick => rfl
  | rxByte p b => rfl
  | rxIdle p => rfl
  | rxDrain p => rfl
  | txStart p => rfl

/-- An operation that is not legal under the configuration is refused (R114). -/
theorem exec_of_not_wf (i : Instr) (s : State) (h : Instr.wf s.cfg i = false) :
    ∃ k, i = .tachPulse k ∧ exec i s = .refused (.noSuchFan k) := by
  cases i <;> simp [Instr.wf] at h
  case tachPulse k => exact ⟨k, rfl, by simp [exec, execTachPulse]; omega⟩

/-- What an operation that answers a next state did. -/
theorem exec_next {i : Instr} {s t : State} (h : exec i s = .next t) :
    Instr.wf s.cfg i = true ∧ t = (effect i s).withResult (resultOf i s) := by
  cases hw : Instr.wf s.cfg i
  · obtain ⟨k, -, hk⟩ := exec_of_not_wf i s hw
    rw [hk] at h; cases h
  · refine ⟨rfl, ?_⟩
    rw [exec_of_wf i s hw] at h
    exact finish_eq_next.mp h

/-- What RX_BYTE, RX_IDLE, TX_START and TX_BYTE can touch: their link, its FRM_STAT and FLT_LAT (R16, R150). -/
theorem effect_linkTouch {i : Instr} {p : Peer} (s : State)
    (h : i = .rxIdle p ∨ i = .txStart p ∨ i = .txByte p ∨ ∃ b, i = .rxByte p b) : LinkTouch p s (effect i s) := by
  obtain rfl | rfl | rfl | ⟨b, rfl⟩ := h
  · exact (rxBoundary_linkOnly p s).latched
  · exact (LinkOnly.ite (LinkOnly.frmSet ..) (txBegin_linkOnly ..)).latched
  · simp only [effect]
    split
    · exact (LinkOnly.ite (LinkOnly.frmClear ..) (txAdvance_linkOnly ..)).latched
    · exact (LinkOnly.refl p s).touch
  · simp only [effect]
    split
    · exact (LinkOnly.refl p s).touch
    · exact (rxAccept_linkOnly p b s).latched

/-- No operation writes the configuration or the words waiting at the port (R9). -/
theorem effect_cfg_port (i : Instr) (s : State) :
    (effect i s).cfg = s.cfg ∧ (effect i s).port = s.port := by
  have rte : ∀ {u}, RteOnly s u → u.cfg = s.cfg ∧ u.port = s.port := fun h => ⟨h.cfg, h.port⟩
  have link : ∀ {p u}, LinkTouch p s u → u.cfg = s.cfg ∧ u.port = s.port := fun h => ⟨h.cfg, h.port⟩
  cases i with
  | reset => exact ⟨rfl, rfl⟩
  | regRd a => exact ⟨rfl, rfl⟩
  | regWr a d => exact ⟨rfl, rfl⟩
  | gpioTick =>
    exact rte ((((debounce_rteOnly ..).trans (debounce_rteOnly ..)).trans (debounce_rteOnly ..)).trans
      (latchUpdate_rteOnly _))
  | seqTick => exact rte ((seqArm_rteOnly _).trans (latchUpdate_rteOnly _))
  | fanTick =>
    exact rte ((((RteOnly.wr ..).trans (RteOnly.foldl (arbitrateFan_rteOnly _) _ _)).trans
      (RteOnly.foldl (slewFan_rteOnly _ _) _ _)).trans (latchUpdate_rteOnly _))
  | tachPulse i => exact ⟨rfl, rfl⟩
  | fanstatTick => exact rte ((RteOnly.foldl fanstatFan_rteOnly _ _).trans (latchUpdate_rteOnly _))
  | liveTick => exact rte (((liveStep_rteOnly ..).trans (liveStep_rteOnly ..)).trans (latchUpdate_rteOnly _))
  | rxByte p b => exact link (effect_linkTouch (p := p) s (by simp))
  | rxIdle p => exact link (effect_linkTouch (p := p) s (by simp))
  | rxDrain p =>
    simp only [effect]
    split
    · exact rte ((drainFields_rteOnly ..).trans (drainFinish_rteOnly ..))
    · exact ⟨rfl, rfl⟩
  | txStart p => exact link (effect_linkTouch (p := p) s (by simp))
  | txByte p => exact link (effect_linkTouch (p := p) s (by simp))

/-- What a step that answers a next state did: nothing was presented and nothing changed, or the first
word of the port was a legal operation and the step performed it (R7, R110, R114). -/
theorem step_next {s t : State} (h : step s = .next t) :
    s.cfg.wf = true ∧ ((s.port = [] ∧ t = s) ∨
      ∃ w rest i, s.port = w :: rest ∧ decode w = .ok i ∧ Instr.wf s.cfg i = true
        ∧ exec i (s.withPort rest) = .next t) := by
  unfold step fetch at h
  by_cases hc : s.cfg.wf = true
  · refine ⟨hc, ?_⟩
    rw [if_pos hc] at h
    cases hp : s.port with
    | nil =>
      rw [hp] at h
      exact .inl ⟨rfl, by injection h with h; exact h.symm⟩
    | cons w rest =>
      rw [hp] at h
      refine .inr ⟨w, rest, ?_⟩
      cases hd : decode w with
      | error e => simp only [acceptWord, hd] at h; cases h
      | ok i =>
        have key : acceptWord w (s.withPort rest) =
            if Instr.wf s.cfg i then .op i (s.withPort rest)
            else match i with | .tachPulse k => .refuse (.noSuchFan k) | _ => .idle := by
          cases i with
          | tachPulse k => simp only [acceptWord, hd, Instr.wf, withPort_cfg]; rfl
          | _ => simp [acceptWord, hd, Instr.wf]
        simp only [key] at h
        cases hw : Instr.wf s.cfg i
        · rw [hw] at h
          obtain ⟨k, hk, -⟩ := exec_of_not_wf i s hw
          subst hk; cases h
        · rw [hw] at h
          exact ⟨i, rfl, rfl, hw, h⟩
  · rw [if_neg hc] at h; cases h

/-- Under a well-formed configuration a step performs the legal operation presented first (R7, R110). -/
theorem step_of_port {s : State} {w : Cmd} {rest : List Cmd} {i : Instr} (hc : s.cfg.wf = true)
    (hp : s.port = w :: rest) (hd : decode w = .ok i) (hi : Instr.wf s.cfg i = true) :
    step s = exec i (s.withPort rest) := by
  unfold step fetch
  rw [if_pos hc, hp]
  cases i with
  | tachPulse k => simp [acceptWord, hd, hi]
  | _ => simp [acceptWord, hd]

/-- An invariant that every legal operation keeps is kept by every step: the induction over `step`,
packaged once. -/
theorem step_keeps {Inv : State → Prop} (hport : ∀ s ws, Inv s → Inv (s.withPort ws))
    (hexec : ∀ i s t, s.cfg.wf = true → Inv s → exec i s = .next t → Inv t) {s t : State} (h : Inv s)
    (hs : step s = .next t) : Inv t := by
  obtain ⟨hc, ⟨-, rfl⟩ | ⟨w, rest, i, -, -, -, he⟩⟩ := step_next hs
  · exact h
  · exact hexec i (s.withPort rest) t hc (hport s rest h) he

end Sys2Proof.Machine
end

