-- ==== Sys2Proof/Laws/Fanctrl.lean ====
section
/-! SUPPORT. The speed table, the fan loop and the judgments, fan by fan (spec/43_fanctrl.md R211 to R232). -/

namespace Sys2Proof.Machine

/-- A well-formed table: its first stage, the rest, and how they join (WF3 to WF5). -/
theorem stagesWf_cons {a : Stage} {l : List Stage} (h : stagesWf (a :: l) = true) : a.wf = true ∧ stagesWf l
    = true ∧ ∀ b r, l = b :: r → Stage.follows a b = true := by
  cases l with
  | nil => exact ⟨h, rfl, fun b r h => by cases h⟩
  | cons b r =>
    simp only [stagesWf, Bool.and_eq_true] at h
    exact ⟨h.1.1, h.2, fun b' r' h' => by injection h' with h1 h2; subst h1; exact h.1.2⟩

/-- The bounds of one stage (WF3). -/
theorem Stage.wf_bounds {a : Stage} (h : a.wf = true) : s16 a.tmin < s16 a.tmax
    ∧ a.smin.toNat ≤ a.smax.toNat := by
  simpa [Stage.wf, s16] using h

/-- The bounds of two neighbouring stages (WF4, WF5). -/
theorem Stage.follows_bounds {a b : Stage} (h : Stage.follows a b = true) : s16 a.tmax ≤ s16 b.tmin
    ∧ a.smax.toNat ≤ b.smin.toNat := by
  simp [Stage.follows, s16] at h ⊢; exact ⟨h.1.1, h.1.2⟩

/-- Every later stage starts at or above the end of the first. -/
theorem stages_later {a : Stage} {l : List Stage} (h : stagesWf (a :: l) = true) : ∀ b ∈ l,
    s16 a.tmax ≤ s16 b.tmin := by
  induction l generalizing a with
  | nil => intro b hb; cases hb
  | cons c l ih =>
    intro b hb
    obtain ⟨h1, h2, h3⟩ := stagesWf_cons h
    have hf := Stage.follows_bounds (h3 c l rfl)
    have hc := Stage.wf_bounds (stagesWf_cons h2).1
    rcases List.mem_cons.1 hb with rfl | hb
    · exact hf.1
    · have := ih h2 b hb; omega

/-- The interpolation stays between the speeds of its stage (R213). -/
theorem stageSpeed_bounds {st : Stage} (h : st.wf = true) {t : Int} (h1 : s16 st.tmin ≤ t)
    (h2 : t ≤ s16 st.tmax) :
    (st.smin.toNat : Int) ≤ stageSpeed st t ∧ stageSpeed st t ≤ st.smax.toNat := by
  obtain ⟨ha, hb⟩ := Stage.wf_bounds h
  unfold stageSpeed
  have hd : (0:Int) < s16 st.tmax - s16 st.tmin := by omega
  have hx : (0 : Int) ≤ t - s16 st.tmin := by omega
  have hy : (0 : Int) ≤ (st.smax.toNat : Int) - st.smin.toNat := by omega
  constructor
  · have : 0 ≤ ((t - s16 st.tmin) * ((st.smax.toNat : Int) - st.smin.toNat)) / (s16 st.tmax - s16 st.tmin) :=
      Int.ediv_nonneg (Int.mul_nonneg hx hy) hd.le
    omega
  · have : ((t - s16 st.tmin) * ((st.smax.toNat : Int) - st.smin.toNat)) / (s16 st.tmax - s16 st.tmin) ≤ (st.smax.toNat : Int) - st.smin.toNat := by
      apply Int.ediv_le_of_le_mul hd
      rw [mul_comm]
      exact Int.mul_le_mul_of_nonneg_left (by omega) hy
    omega

/-- The interpolation never falls when the temperature rises. -/
theorem stageSpeed_mono {st : Stage} (h : st.wf = true) {t u : Int} (htu : t ≤ u) :
    stageSpeed st t ≤ stageSpeed st u := by
  obtain ⟨ha, hb⟩ := Stage.wf_bounds h
  unfold stageSpeed
  have : ((t - s16 st.tmin) * ((st.smax.toNat : Int) - st.smin.toNat)) / (s16 st.tmax - s16 st.tmin) ≤ ((u - s16 st.tmin) * ((st.smax.toNat : Int) - st.smin.toNat)) / (s16 st.tmax - s16 st.tmin) := by
    apply Int.ediv_le_ediv (by omega)
    exact Int.mul_le_mul_of_nonneg_right (by omega) (by omega)
  omega

/-- The interpolation starts at the lower speed. -/
theorem stageSpeed_min {st : Stage} : stageSpeed st (s16 st.tmin) = st.smin.toNat := by simp [stageSpeed]

/-- The loop of PWL never falls below its start nor when the temperature rises. -/
theorem pwlFrom_mono {l : List Stage} {below : Int} (h : stagesWf l = true) (hb : ∀ a r, l = a :: r
    → below ≤ a.smin.toNat) (t u : Int) (htu : t ≤ u) :
    below ≤ pwlFrom below l t ∧ pwlFrom below l t ≤ pwlFrom below l u := by
  induction l generalizing below with
  | nil => exact ⟨le_refl _, le_refl _⟩
  | cons a l ih =>
    obtain ⟨h1, h2, h3⟩ := stagesWf_cons h
    have hw := Stage.wf_bounds h1
    have hb := hb a l rfl
    have ih := ih (below := a.smax.toNat) h2 (fun b r e => by have := Stage.follows_bounds (h3 b r e); omega)
    simp only [pwlFrom]
    have bt := @stageSpeed_bounds a h1 t
    have bu := @stageSpeed_bounds a h1 u
    have m := stageSpeed_mono h1 htu
    by_cases c1 : t < s16 a.tmin
    · rw [if_pos c1]
      refine ⟨le_refl _, ?_⟩
      split
      · exact le_refl _
      · split
        · have := bu (by omega) (by omega); omega
        · omega
    · rw [if_neg c1, if_neg (show ¬ u < s16 a.tmin by omega)]
      by_cases c2 : t < s16 a.tmax
      · rw [if_pos c2]
        have := bt (by omega) (by omega)
        refine ⟨by omega, ?_⟩
        split
        · exact m
        · omega
      · rw [if_neg c2, if_neg (show ¬ u < s16 a.tmax by omega)]
        omega

/-- PWL is its loop from the first stage on (R213). -/
theorem pwl_eq {a : Stage} {l : List Stage} (h : stagesWf (a :: l) = true) (t : Int) : pwl (a :: l) t
    = pwlFrom a.smin.toNat (a :: l) t := by
  have hw := Stage.wf_bounds (stagesWf_cons h).1
  simp only [pwl]
  split
  · rename_i ht
    simp only [pwlFrom]
    split
    · rfl
    · have : t = s16 a.tmin := by omega
      subst this
      rw [if_pos hw.1, stageSpeed_min]
  · rfl

/-- The baseline is a speed. -/
theorem pwl_nonneg {tbl : List Stage} (h : stagesWf tbl = true) (t : Int) : 0 ≤ pwl tbl t := by
  cases tbl with
  | nil => exact le_refl _
  | cons a l =>
    rw [pwl_eq h]
    have := (pwlFrom_mono h (fun b r e => by injection e with e1 e2; subst e1; exact le_refl _) t t (le_refl _)).1
    omega

/-- Inside a stage the loop interpolates. -/
theorem pwlFrom_in {l : List Stage} {st : Stage} (hst : st ∈ l) (below : Int) (h : stagesWf l = true)
    {t : Int} (h1 : s16 st.tmin ≤ t) (h2 : t < s16 st.tmax) : pwlFrom below l t = stageSpeed st t := by
  induction l generalizing below with
  | nil => cases hst
  | cons a l ih =>
    obtain ⟨k1, k2, k3⟩ := stagesWf_cons h
    have hw := Stage.wf_bounds k1
    simp only [pwlFrom]
    rcases List.mem_cons.1 hst with rfl | hm
    · rw [if_neg (by omega), if_pos h2]
    · have := stages_later h st hm
      rw [if_neg (by omega), if_neg (by omega), ih hm _ k2]

/-- Past a stage the loop goes on with the stages behind it. -/
theorem pwlFrom_skip {l : List Stage} {a : Stage} {r : List Stage} (below : Int) (h : stagesWf (l ++ a :: r)
    = true) {t : Int} (h1 : s16 a.tmax ≤ t) : pwlFrom below (l ++ a :: r) t = pwlFrom a.smax.toNat r t := by
  induction l generalizing below with
  | nil =>
    have hw := Stage.wf_bounds (stagesWf_cons h).1
    simp only [List.nil_append, pwlFrom]
    rw [if_neg (by omega), if_neg (by omega)]
  | cons b l ih =>
    obtain ⟨k1, k2, k3⟩ := stagesWf_cons h
    have hw := Stage.wf_bounds k1
    have := stages_later h a (by simp)
    have ha := Stage.wf_bounds (show a.wf = true by
      clear ih
      have : ∀ l, stagesWf l = true → ∀ x ∈ l, Stage.wf x = true := by
        intro l; induction l with
        | nil => intro _ x hx; cases hx
        | cons y l ih => 
          intro h x hx
          rcases List.mem_cons.1 hx with rfl | hx
          · exact (stagesWf_cons h).1
          · exact ih (stagesWf_cons h).2.1 x hx
      exact this _ h a (by simp))
    simp only [List.cons_append, pwlFrom]
    rw [if_neg (by omega), if_neg (by omega), ih _ k2]

/-- The end of a well-formed table is one. -/
theorem stagesWf_append_right {l r : List Stage} (h : stagesWf (l ++ r) = true) : stagesWf r = true := by
  induction l with
  | nil => exact h
  | cons a l ih => exact ih (stagesWf_cons h).2.1

/-- The target is at most FAN_RPM_MAX (R216). -/
theorem targetSpeed_le (s : State) : targetSpeed s ≤ s.cfg.fanRpmMax.toNat := by unfold targetSpeed; omega

/-- FAN_TICK, but for the latch rule, writes the target and three words of each fan (R211). -/
theorem fanTick_rd_ne (s : State) {a : Addr} (h0 : a ≠ fanTarget) (h : ∀ i, i < s.cfg.nfan
    → a ≠ fanAddr i .ovr ∧ a ≠ fanAddr i .stat ∧ a ≠ fanAddr i .duty) :
    (fanTick s).rd a = s.rd a := by
  unfold fanTick
  simp only
  rw [foldl_rd_ne (T := fun j a => a = fanAddr j .duty) (fun s j a h => slewFan_rd_ne _ _ _ _ h)]
  · rw [foldl_rd_ne (T := fun j a => a = fanAddr j .ovr ∨ a = fanAddr j .stat)
        (fun s j a h => arbitrateFan_rd_ne _ _ _ (fun e => h (.inl e)) (fun e => h (.inr e)))]
    · exact State.rd_wr_ne _ _ h0
    · intro j hj e
      have := h j (mem_fans.1 hj)
      rcases e with e | e
      · exact this.1 e
      · exact this.2.1 e
  · intro j hj e
    exact (h j (mem_fans.1 hj)).2.2 e

/-- FAN_TICK stores the target (R211). -/
theorem fanTick_target (s : State) (hc : s.cfg.wf = true) : (fanTick s).rdNat fanTarget = targetSpeed s := by
  have hn := (Config.nfan_bounds hc).2
  unfold fanTick
  simp only
  unfold State.rdNat
  rw [foldl_rd_ne (T := fun j a => a = fanAddr j .duty) (fun s j a h => slewFan_rd_ne _ _ _ _ h)]
  · rw [foldl_rd_ne (T := fun j a => a = fanAddr j .ovr ∨ a = fanAddr j .stat)
        (fun s j a h => arbitrateFan_rd_ne _ _ _ (fun e => h (.inl e)) (fun e => h (.inr e)))]
    · rw [State.rd_wr_self]
      have := targetSpeed_le s
      have h2 := s.cfg.fanRpmMax.isLt
      simp only [trunc16, BitVec.toNat_ofNat]; omega
    · intro j hj e
      have := mem_fans.1 hj
      rcases e with e | e <;> exact ne_fanAddr (by omega) _ (by decide) e
  · intro j hj e
    have := mem_fans.1 hj
    exact ne_fanAddr (by omega) _ (by decide) e

/-- Arbitration of one fan (R217 to R219). -/
theorem arbitrate_at (tgt : Nat) (s : State) {i : Nat} (hi : i < 4) :
    (arbitrateFan tgt s i).rd (fanAddr i .ovr) = (if s.bit sysIn bDbgUnlocked then s.rd (fanAddr i .ovr) else 0)
    ∧ ∀ n, (arbitrateFan tgt s i).bit (fanAddr i .stat) n = if n
        = bOvrAct then overrideWins s tgt i else if n
            = bIo then s.bit tachLvl i else s.bit (fanAddr i .stat) n := by
  have ne : fanAddr i .ovr ≠ fanAddr i .stat := fun e => by simpa using ((fanAddr_inj hi hi).1 e).2
  have tl : ∀ x, tachLvl ≠ fanAddr i x := fun x => ne_fanAddr hi x (by decide)
  have hu : ∀ b, (if b = true then s else s.wr (fanAddr i .ovr) 0 : State).bit tachLvl i = s.bit tachLvl i := by
    intro b; split
    · rfl
    · rw [State.bit_wr, if_neg (tl _)]
  have hst : ∀ b n, (if b = true then s else s.wr (fanAddr i .ovr) 0 : State).bit (fanAddr i .stat) n
      = s.bit (fanAddr i .stat) n := by
    intro b n; split
    · rfl
    · rw [State.bit_wr, if_neg ne.symm]
  unfold arbitrateFan
  simp only
  constructor
  · rw [State.rd_wrBit, if_neg ne, State.rd_wrBit, if_neg ne]
    split
    · rfl
    · rw [State.rd_wr_self]
  · intro n
    rw [State.bit_wrBit _ _ _ _ _ _ (by decide), State.bit_wrBit _ _ _ _ _ _ (by decide),
        State.bit_wrBit _ _ _ _ _ _ (by decide), hst, hu]
    simp only [tl, false_and, if_false, true_and]
    by_cases h2 : n = bOvrAct <;> by_cases h3 : n = bIo <;> simp [h2, h3]
    all_goals (intro h; exact absurd h (by decide))

/-- Arbitration of every fan. -/
theorem arbitrated (tgt : Nat) (s : State) (hc : s.cfg.wf = true) {i : Nat} (hi : i < s.cfg.nfan) :
    let t := (fans s.cfg).foldl (arbitrateFan tgt) (s.wr fanTarget (trunc16 tgt))
    t.rd (fanAddr i .ovr) = (if s.bit sysIn bDbgUnlocked then s.rd (fanAddr i .ovr) else 0)
    ∧ ∀ n, t.bit (fanAddr i .stat) n = if n = bOvrAct then overrideWins s tgt i else if n
        = bIo then s.bit tachLvl i else s.bit (fanAddr i .stat) n := by
  have hn := (Config.nfan_bounds hc).2
  have hi4 : i < 4 := by omega
  intro t
  obtain ⟨u, hu, key⟩ := foldl_at (T := fun j a => a = fanAddr j .ovr ∨ a = fanAddr j .stat)
      (arbitrateFan_rteOnly tgt)
    (fun s j a h => arbitrateFan_rd_ne _ _ _ (fun e => h (.inl e)) (fun e => h (.inr e))) (fans_nodup s.cfg)
        (mem_fans.2 hi) (s.wr fanTarget (trunc16 tgt))
  have kk : ∀ x, (∀ j ∈ fans s.cfg, j ≠ i → ¬ (fanAddr i x = fanAddr j .ovr ∨ fanAddr i x
      = fanAddr j .stat)) := by
    intro x j hj hji e
    have := mem_fans.1 hj
    rcases e with e | e <;> exact hji ((fanAddr_inj hi4 (by omega)).1 e).1.symm
  have kout : ∀ a : Addr, a.toNat < 0x30 ∨ 0x50 ≤ a.toNat → ∀ j ∈ fans s.cfg, j ≠ i → ¬ (a = fanAddr j .ovr
      ∨ a = fanAddr j .stat) := by
    intro a ha j hj _ e
    have := mem_fans.1 hj
    rcases e with e | e <;> exact ne_fanAddr (by omega) _ ha e
  have wt : ∀ x, (s.wr fanTarget (trunc16 tgt)).rd (fanAddr i x)
      = s.rd (fanAddr i x) := fun x => State.rd_wr_ne _ _ (ne_fanAddr hi4 x (by decide)).symm
  have ux : ∀ x, u.rd (fanAddr i x) = s.rd (fanAddr i x) := fun x => ((key _ (kk x)).1).trans (wt x)
  have us : ∀ a, a = sysIn ∨ a = tachLvl → u.rd a = s.rd a := by
    intro a ha
    rcases ha with rfl | rfl
    · exact ((key sysIn (kout _ (by decide))).1).trans (State.rd_wr_ne _ _ (by decide))
    · exact ((key tachLvl (kout _ (by decide))).1).trans (State.rd_wr_ne _ _ (by decide))
  have ow : overrideWins u tgt i = overrideWins s tgt i := by
    unfold overrideWins State.bit State.rdNat
    rw [us sysIn (by simp), ux, hu.cfg]; rfl
  obtain ⟨a1, a2⟩ := arbitrate_at tgt u hi4
  constructor
  · rw [(key _ (kk .ovr)).2, a1]
    unfold State.bit; rw [us sysIn (by simp), ux]
  · intro n
    have : t.bit (fanAddr i .stat) n = (arbitrateFan tgt u i).bit (fanAddr i .stat) n := by
      unfold State.bit; rw [(key _ (kk .stat)).2]
    rw [this, a2, ow]
    unfold State.bit; rw [us tachLvl (by simp), ux]

/-- The largest speed is the one that no fan exceeds and some fan has (R220). -/
theorem maxSpeed_eq (s : State) (meas : Nat) (h1 : ∀ k, k < s.cfg.nfan → s.rdNat (fanAddr k .speed) ≤ meas)
    (h2 : ∃ k, k < s.cfg.nfan ∧ s.rdNat (fanAddr k .speed) = meas) : maxSpeed s = meas := by
  have key : ∀ (l : List Nat) (m : Nat) (f : Nat → Nat), (∀ k ∈ l, f k ≤ l.foldl (fun m i => max m (f i)) m)
      ∧ m ≤ l.foldl (fun m i => max m (f i)) m ∧ (∀ M, m ≤ M → (∀ k ∈ l, f k ≤ M)
          → l.foldl (fun m i => max m (f i)) m ≤ M) := by
    intro l
    induction l with
    | nil => intro m f; exact ⟨fun k h => (by cases h), le_refl _, fun M h _ => h⟩
    | cons a l ih =>
      intro m f
      obtain ⟨i1, i2, i3⟩ := ih (max m (f a)) f
      refine ⟨?_, ?_, ?_⟩
      · intro k hk
        rcases List.mem_cons.1 hk with rfl | hk
        · exact le_trans (le_max_right _ _) i2
        · exact i1 k hk
      · exact le_trans (le_max_left _ _) i2
      · intro M hm hk
        exact i3 M (max_le hm (hk a (by simp))) (fun k h => hk k (by simp [h]))
  obtain ⟨k1, k2, k3⟩ := key (fans s.cfg) 0 (fun i => s.rdNat (fanAddr i .speed))
  obtain ⟨k, hk, he⟩ := h2
  apply le_antisymm
  · exact k3 meas (Nat.zero_le _) (fun k hk => h1 k (mem_fans.1 hk))
  · rw [← he]; exact k1 k (mem_fans.2 hk)

/-- Some fan has the largest speed. -/
theorem exists_max {cfg : Config} (hc : cfg.wf = true) (f : Nat → Nat) : ∃ meas, (∀ k, k < cfg.nfan
    → f k ≤ meas) ∧ (∃ k, k < cfg.nfan ∧ f k = meas) := by
  obtain ⟨b, hb⟩ : ∃ b, ((List.range cfg.nfan).map f).max? = some b := by
    cases hx : ((List.range cfg.nfan).map f).max? with
    | none => rw [List.max?_eq_none_iff] at hx; simp at hx; have := (Config.nfan_bounds hc).1; omega
    | some b => exact ⟨b, rfl⟩
  rw [List.max?_eq_some_iff] at hb
  obtain ⟨hb1, hb2⟩ := hb
  simp only [List.mem_map, List.mem_range] at hb1 hb2
  exact ⟨b, fun k hk => hb2 _ ⟨k, hk, rfl⟩, hb1⟩

/-- A counter of consecutive windows as a number (R232). -/
theorem countWindow_toNat (c : Prop) [Decidable c] (w : Word) : (countWindow (decide c) w).toNat
    = if c then min (w.toNat + 1) 65535 else 0 := by
  have := w.isLt
  unfold countWindow
  by_cases h : c
  · simp [h, trunc16, satU16]
  · simp [h]

/-- The judgments bit by bit (R231, R232). -/
theorem judge_bit (cfg : Config) (w f k st : Word) (n : Nat) : (judge cfg w f k st).getLsbD n =
    if n = bWarn then !decide (cfg.mOk.toNat ≤ k.toNat) && (st.getLsbD bWarn || decide (cfg.nWarn.toNat ≤ w.toNat))
    else if n = bFail then !decide (cfg.mOk.toNat ≤ k.toNat) && (st.getLsbD bFail || decide (cfg.nFail.toNat ≤ f.toNat))
    else st.getLsbD n := by
  unfold judge
  simp only [ge_iff_le]
  have h0 : bWarn < 16 := by decide
  have h1 : bFail < 16 := by decide
  have h01 : bWarn ≠ bFail := by decide
  by_cases c1 : cfg.nWarn.toNat ≤ w.toNat <;> by_cases c2 : cfg.nFail.toNat ≤ f.toNat <;> by_cases c3 : cfg.mOk.toNat ≤ k.toNat <;>
    simp only [c1, c2, c3, if_true, if_false, decide_true, decide_false, Bool.or_true, Bool.or_false,
        Bool.not_true, Bool.not_false, Bool.true_and, Bool.false_and, getLsbD_putBit _ _ _ _ h0,
            getLsbD_putBit _ _ _ _ h1] <;>
    by_cases n0 : n = bWarn <;> by_cases n1 : n = bFail <;> simp_all

/-- FANSTAT_TICK for one fan among all (R231). -/
theorem fanstat_at (s : State) (hc : s.cfg.wf = true) {i : Nat} (hi : i < s.cfg.nfan) :
    let t := (fans s.cfg).foldl fanstatFan s
    let spd := windowSpeed s.cfg (s.rd (fanAddr i .pulse))
    let w := countWindow (decide (spd < s.cfg.warnThr.toNat)) (s.rd (fanAddr i .warnCnt))
    let f := countWindow (decide (spd < s.cfg.failThr.toNat)) (s.rd (fanAddr i .failCnt))
    let k := countWindow (decide (spd > s.cfg.recovThr.toNat)) (s.rd (fanAddr i .okCnt))
    t.rd (fanAddr i .speed) = trunc16 spd ∧ t.rd (fanAddr i .pulse) = 0 ∧ t.rd (fanAddr i .warnCnt) = w
        ∧ t.rd (fanAddr i .failCnt) = f
      ∧ t.rd (fanAddr i .okCnt) = k ∧ t.rd (fanAddr i .stat)
          = if s.bit sysIn bInputOk then judge s.cfg w f k (s.rd (fanAddr i .stat)) else s.rd (fanAddr i .stat) := by
  have hn := (Config.nfan_bounds hc).2
  have hi4 : i < 4 := by omega
  intro t spd w f k
  obtain ⟨u, hu, key⟩ := foldl_at (T := inRecord) fanstatFan_rteOnly
    (fun s j a h => fanstatFan_rd_ne _ _ (fun e => h ⟨_, e⟩) (fun e => h ⟨_, e⟩) (fun e => h ⟨_, e⟩)
        (fun e => h ⟨_, e⟩) (fun e => h ⟨_, e⟩) (fun e => h ⟨_, e⟩)) (fans_nodup s.cfg) (mem_fans.2 hi) s
  have kx : ∀ x, ∀ j ∈ fans s.cfg, j ≠ i
      → ¬ inRecord j (fanAddr i x) := fun x j hj hji => not_inRecord_of_ne hi4 (by have := mem_fans.1 hj; omega) hji x
  have ks : ∀ j ∈ fans s.cfg, j ≠ i
      → ¬ inRecord j sysIn := fun j hj _ => not_inRecord (by have := mem_fans.1 hj; omega) (by decide)
  have ux : ∀ x, u.rd (fanAddr i x) = s.rd (fanAddr i x) := fun x => (key _ (kx x)).1
  have ucfg : u.cfg = s.cfg := hu.cfg
  have usys : ∀ n, u.bit sysIn n = s.bit sysIn n := fun n => by unfold State.bit; rw [(key _ ks).1]
  have ne : ∀ x y : FanWord, x ≠ y → fanAddr i x ≠ fanAddr i y := fun x y h e => h ((fanAddr_inj hi4 hi4).1 e).2
  have nsys : ∀ x, sysIn ≠ fanAddr i x := fun x => ne_fanAddr hi4 x (by decide)
  have tx : ∀ x, t.rd (fanAddr i x) = (fanstatFan u i).rd (fanAddr i x) := fun x => (key _ (kx x)).2
  simp only [tx]
  unfold fanstatFan
  simp only [ux, ucfg]
  have hb : ∀ a b c d e : Word,
      (((((u.wr (fanAddr i .speed) a).wr (fanAddr i .pulse) b).wr (fanAddr i .warnCnt) c).wr (fanAddr i .failCnt) d).wr (fanAddr i .okCnt) e).bit sysIn bInputOk = s.bit sysIn bInputOk := by
    intro a b c d e
    simp only [State.bit_wr, nsys, if_false]; exact usys _
  simp only [hb]
  by_cases h : s.bit sysIn bInputOk = true
  · simp only [h, if_true, State.rd_wr, (fanAddr_inj hi4 hi4), ux]
    simp [spd, w, f, k]
  · rw [Bool.not_eq_true] at h
    simp only [h, Bool.false_eq_true, if_false, State.rd_wr, (fanAddr_inj hi4 hi4), ux]
    simp [spd, w, f, k]

end Sys2Proof.Machine
end

