-- ==== Sys2Proof/Laws/Intcom.lean ====
section
/-! SUPPORT. Draining a frame field by field, and the bytes of an outgoing frame (spec/42_intcom.md). -/

namespace Sys2Proof.Machine

/-- What follows the fields of a drained frame (R181, R186, R187). -/
theorem drainFinish_facts (p : Peer) (u : State) :
    (drainFinish p u).rd (liveCnt p) = u.cfg.liveReset.get p
    ∧ (∀ j, (drainFinish p u).bit comStat j = (u.bit comStat j && !decide (j = bUartFail p) && !decide (j
        = bNoData p)
        && !(decide (j = bComFault) && !u.bit comStat (bUartFail (otherPeer p)))))
    ∧ (∀ j, (drainFinish p u).bit (frmStat p) j = if j = bRxPend then false else u.bit (frmStat p) j)
    ∧ (∀ j, (drainFinish p u).bit fltLat j
        = if j < 4 then u.bit fltRaw j || (u.bit fltLat j && !u.bit seqOut (4 + j)) else u.bit fltLat j) := by
  have w : ∀ a, a ≠ liveCnt p → ∀ j, (u.wr (liveCnt p) (u.cfg.liveReset.get p)).bit a j = u.bit a j := by
    intro a ha j; rw [State.bit_wr, if_neg ha]
  have n1 := comStat_ne_liveCnt p
  have n2 := comStat_ne_frmStat p
  have n3 := frmStat_ne_liveCnt p p
  have k1 : fltRaw ≠ frmStat p ∧ fltRaw ≠ liveCnt p ∧ seqOut ≠ frmStat p
      ∧ seqOut ≠ liveCnt p := by cases p <;> decide
  unfold drainFinish
  refine ⟨?_, ?_, ?_, ?_⟩
  · rw [State.rd_latchUpdate_ne _ (liveCnt_ne_fltLat p), State.rd_frmClear, if_neg n3.symm,
        clearSilent_rd_ne _ _ n1.symm, State.rd_wr_self]
  · intro j
    rw [State.bit_latchUpdate_ne _ comStat_ne_fltLat]
    have : ∀ x : State, (frmClear p bRxPend x).bit comStat j
        = x.bit comStat j := fun x => by unfold State.bit; rw [State.rd_frmClear, if_neg n2]
    rw [this, clearSilent_bit, w _ n1, w _ n1]
  · intro j
    rw [State.bit_latchUpdate_ne _ (frmStat_ne_fltLat p)]
    unfold frmClear
    rw [State.bit_wrBit _ _ _ _ _ _ (by decide)]
    have : (clearSilent p (u.wr (liveCnt p) (u.cfg.liveReset.get p))).bit (frmStat p) j
        = u.bit (frmStat p) j := by
      unfold State.bit; rw [clearSilent_rd_ne _ _ n2.symm, State.rd_wr_ne _ _ n3]
    rw [this]; simp
  · intro j
    have : ∀ a, a ≠ frmStat p → a ≠ comStat → a ≠ liveCnt p → ∀ j,
        (frmClear p bRxPend (clearSilent p (u.wr (liveCnt p) (u.cfg.liveReset.get p)))).bit a j
            = u.bit a j := by
      intro a h1 h2 h3 j
      unfold State.bit; rw [State.rd_frmClear, if_neg h1, clearSilent_rd_ne _ _ h2, State.rd_wr_ne _ _ h3]
    rw [State.bit_latchUpdate_fltLat, this fltRaw k1.1 (by decide) k1.2.1,
        this seqOut k1.2.2.1 (by decide) k1.2.2.2,
      this fltLat (frmStat_ne_fltLat p).symm (by decide) (liveCnt_ne_fltLat p).symm]

/-- RX_DRAIN of a pending frame. -/
theorem rxDrain_eq {s : State} {p : Peer} (h : s.bit (frmStat p) bRxPend = true) :
    effect (.rxDrain p) s = drainFinish p (drainFields p 1 (rxLayoutOf s.cfg p (s.link p).rxcBc) s) := by
  simp only [effect, h, if_true]

/-- The fields are drained in layout order, the cursor moving by their widths (R181). -/
theorem drainFields_append (p : Peer) (l1 l2 : Layout) (cur : Nat) (s : State) :
    drainFields p cur (l1 ++ l2) s = drainFields p (cur + Layout.pay l1) l2 (drainFields p cur l1 s) := by
  induction l1 generalizing cur s with
  | nil => rfl
  | cons e l ih => simp only [List.cons_append, drainFields, Layout.pay, ih]; congr 1; omega

/-- The value of n bytes is below 256^n. -/
theorem leValue_lt (bs : List Byte) : leValue bs < 256 ^ bs.length := by
  induction bs with
  | nil => simp [leValue]
  | cons b l ih =>
    have := b.isLt
    simp only [leValue, List.length_cons, Nat.pow_succ]; omega

/-- An operation on the RTE leaves the bytes of the buffers. -/
theorem bufBytes_rteOnly {s t : State} (h : RteOnly s t) (b : BufName) (p : Peer) (k n : Nat) :
    t.bufBytes b p k n = s.bufBytes b p k n :=
  State.bufBytes_congr (fun j _ _ => h.bufByte b p j)

/-- A stored value of at most 16 bits fits a word (R184). -/
theorem drainedValue_lt {e : Entry} {v : Nat} (hr : e.rangeOk = true) (hv : v < 65536) :
    drainedValue e v < 65536 := by
  unfold drainedValue
  split
  · rename_i hk
    unfold clampCal
    split
    · exact BitVec.isLt _
    · rename_i hs
      simp only [Entry.rangeOk, hk, hs, Bool.and_eq_true, decide_eq_true_eq] at hr
      simp at hr
      omega
  · exact hv

/-- A VERCHG bit lies in COM_STAT (R60). -/
theorem bVerChg_lt (p : Peer) (g : Img) : bVerChg p g < 16 := by cases p <;> cases g <;> decide

/-- Every peer and image has its own VERCHG bit (R60). -/
theorem bVerChg_inj {p q : Peer} {g h : Img} : bVerChg p g = bVerChg q h ↔ p = q ∧ g
    = h := by cases p <;> cases q <;> cases g <;> cases h <;> decide

/-- A VER field sets its flag when it differs (R185). -/
theorem noteVersion_bit (p : Peer) (e : Entry) (v : Nat) (s : State) (j : Nat) :
    (noteVersion p e v s).bit comStat j = (s.bit comStat j || decide (e.kind = .ver ∧ j = bVerChg p e.img
        ∧ entryValue s e ≠ v)) := by
  unfold noteVersion
  cases hk : e.kind <;> simp only [reduceCtorEq, false_and, decide_false, Bool.or_false, true_and]
  split
  · rename_i h
    rw [State.bit_wrBit _ _ _ _ _ _ (bVerChg_lt p e.img)]
    by_cases hj : j = bVerChg p e.img <;> simp [hj, h]
  · rename_i h
    simp at h; simp [h]

/-- COM_STAT after the fields, when no field is stored there (R185). -/
theorem drainFields_comStat (p : Peer) (l : Layout) (cur : Nat) (s : State)
    (hn : comStat ∉ l.flatMap Entry.words) (j : Nat) :
    (drainFields p cur l s).bit comStat j = true ↔ s.bit comStat j = true ∨
       ∃ l1 e l2, l = l1 ++ e :: l2 ∧ e.kind = .ver ∧ j = bVerChg p e.img
              ∧ entryValue (drainFields p cur l1 s) e ≠ leValue (s.bufBytes .rxc p (cur + Layout.pay l1) e.bytes) := by
  induction l generalizing cur s with
  | nil => simp [drainFields]
  | cons e l ih =>
    simp only [List.flatMap_cons, List.mem_append, not_or] at hn
    simp only [drainFields]
    rw [ih _ _ hn.2]
    have h1 : ∀ v, (drainEntry p e v s).bit comStat j
        = (noteVersion p e (drainedValue e v) s).bit comStat j := by
      intro v
      unfold drainEntry State.bit
      rw [storeEntry_rd]
      have := hn.1
      unfold Entry.words at this
      cases hw : e.width <;> simp [hw] at this <;> simp [this]
    rw [h1, noteVersion_bit]
    have hd : e.kind = .ver → ∀ v, drainedValue e v = v := by intro h v; unfold drainedValue; rw [h]
    constructor
    · rintro (h | ⟨l1, e', l2, rfl, hk, hj, hx⟩)
      · simp only [Bool.or_eq_true, decide_eq_true_eq] at h
        rcases h with h | ⟨hk, hj, hx⟩
        · exact .inl h
        · exact .inr ⟨[], e, l, rfl, hk, hj, by rw [hd hk] at hx; exact hx⟩
      · refine .inr ⟨e :: l1, e', l2, rfl, hk, hj, ?_⟩
        simp only [drainFields, Layout.pay]
        rw [bufBytes_rteOnly (drainEntry_rteOnly ..)] at hx
        rwa [Nat.add_assoc] at hx
    · rintro (h | ⟨l1, e', l2, he, hk, hj, hx⟩)
      · exact .inl (by simp [h])
      · cases l1 with
        | nil =>
          injection he with h1 h2; subst h1
          refine .inl ?_
          simp only [Bool.or_eq_true, decide_eq_true_eq]
          exact .inr ⟨hk, hj, by rw [hd hk]; exact hx⟩
        | cons d l1 =>
          injection he with h1 h2; subst h1
          refine .inr ⟨l1, e', l2, h2, hk, hj, ?_⟩
          rw [bufBytes_rteOnly (drainEntry_rteOnly ..), Nat.add_assoc]
          exact hx

/-- n bytes serialise a value of n bytes. -/
theorem leBytes_length (n v : Nat) : (leBytes n v).length = n := by
  induction n generalizing v with
  | zero => rfl
  | succ n ih => simp [leBytes, ih]

/-- The payload has the length of its layout (R153). -/
theorem payloadBytes_length (s : State) (l : Layout) : (payloadBytes s l).length = Layout.pay l := by
  induction l with
  | nil => rfl
  | cons e l ih => simp [payloadBytes, Layout.pay, leBytes_length, ih]

/-- The check bytes (R151, R152). -/
theorem check_length (k : ChkKind) (bs : List Byte) : (check k bs).length = k.len := by cases k <;> rfl

/-- An outgoing frame has the length of its layout (R153). -/
theorem outgoingFrame_length (s : State) (p : Peer) : (outgoingFrame s p).length
    = s.cfg.flen (s.cfg.txLayout.get p) := by
  simp only [outgoingFrame, List.length_append, List.length_cons, payloadBytes_length, check_length,
      Config.flen]; omega

/-- The payload of a layout, part by part. -/
theorem payloadBytes_append (s : State) (l1 l2 : Layout) : payloadBytes s (l1 ++ l2)
    = payloadBytes s l1 ++ payloadBytes s l2 := by
  induction l1 with
  | nil => rfl
  | cons e l ih => simp [payloadBytes, ih]

end Sys2Proof.Machine
end

