-- ==== Sys2Proof/Laws/Link.lean ====
section
/-! SUPPORT. The receiver and the transmitter of one link: its words, its buffers and its cursors
(spec/41_framer.md R150 to R168). -/

namespace Sys2Proof.Machine

/-- One bit written in FRM_STAT (R62). -/
theorem frm_bit (s : State) (p : Peer) (n : Nat) (hn : n < 16) (b : Bool) (j : Nat) :
    (s.wrBit (frmStat p) n b).bit (frmStat p) j = if j = n then b else s.bit (frmStat p) j := by
  rw [State.bit_wrBit _ _ _ _ _ _ hn]; simp

/-- One bit set in FRM_STAT (R62). -/
theorem frmSet_bit (s : State) (p : Peer) (n : Nat) (hn : n < 16) (j : Nat) :
    (frmSet p n s).bit (frmStat p) j = if j = n then true else s.bit (frmStat p) j := frm_bit s p n hn true j

/-- One bit cleared in FRM_STAT (R62). -/
theorem frmClear_bit (s : State) (p : Peer) (n : Nat) (hn : n < 16) (j : Nat) :
    (frmClear p n s).bit (frmStat p) j = if j
        = n then false else s.bit (frmStat p) j := frm_bit s p n hn false j

/-- Bytes that have been written read as written. -/
theorem bufBytes_of_cells (s : State) (b : BufName) (p : Peer) (k : Nat) (f : List Byte)
    (h : ∀ j (hj : j < f.length), cellGet? ((s.link p).buf b) (k + j) = some f[j]) :
    s.bufBytes b p k f.length = f := by
  apply List.ext_getElem?
  intro j
  by_cases hj : j < f.length
  · rw [State.bufBytes_getElem? _ _ _ _ _ _ hj]
    unfold State.bufByte
    rw [h j hj, List.getElem?_eq_getElem hj]; rfl
  · rw [List.getElem?_eq_none (by rw [State.bufBytes_length]; omega), List.getElem?_eq_none (by omega)]

/-- One more byte of a buffer at the end. -/
theorem bufBytes_snoc (s : State) (b : BufName) (p : Peer) (k n : Nat) : s.bufBytes b p k (n + 1)
    = s.bufBytes b p k n ++ [s.bufByte b p (k + n)] := by
  induction n generalizing k with
  | zero => rfl
  | succ n ih => rw [State.bufBytes, ih]; simp only [State.bufBytes, List.cons_append]; rw [show k + 1 + n
      = k + (n + 1) by omega]

/-- The bytes of a buffer, part by part. -/
theorem bufBytes_add (s : State) (b : BufName) (p : Peer) (k n m : Nat) : s.bufBytes b p k (n + m)
    = s.bufBytes b p k n ++ s.bufBytes b p (k + n) m := by
  induction n generalizing k with
  | zero => simp [State.bufBytes]
  | succ n ih => rw [show n + 1 + m = (n + m) + 1 by omega, State.bufBytes, ih,
      State.bufBytes]; simp; congr 1; omega

/-- Handing over a byte moves the cursor (R168). -/
theorem txAdvance_link (p : Peer) (s : State) : (txAdvance p s).link p
    = { s.link p with txIdx := (s.link p).txIdx + 1 } := by
  unfold txAdvance; simp only; split <;> simp

/-- Handing over the last byte ends the transmission (R168). -/
theorem txAdvance_bit (p : Peer) (s : State) (j : Nat) : (txAdvance p s).bit (frmStat p) j = if j = bTxBusy
    ∧ (s.link p).txLen ≤ (s.link p).txIdx + 1 then false else s.bit (frmStat p) j := by
  unfold txAdvance; simp only
  split
  · rename_i h
    rw [frmClear_bit _ _ _ (by decide), State.bit_setLink]
    by_cases hj : j = bTxBusy <;> simp [hj]; intro h'; omega
  · rename_i h
    rw [State.bit_setLink, if_neg (by omega)]

/-- RX_BYTE inside a frame (R156). -/
theorem rxByte_inside {s : State} {p : Peer} {b : Byte} (h1 : s.bit (frmStat p) bTxBusy = false)
    (h2 : 0 < (s.link p).rxCnt) :
    effect (.rxByte p b) s = latchUpdate (rxNext p b s) := by
  have : ¬ (s.link p).rxCnt = 0 := by omega
  simp [effect, rxIgnores, rxAccept, h1, this]

/-- The assembled bytes once one more is stored (R156). -/
theorem rxStored_bytes (s : State) (p : Peer) (b : Byte) (h : (s.link p).rxCnt < bufMax) (c : Nat) :
    (s.setLink p { s.link p with rxa := bufWrite (s.link p).rxa (s.link p).rxCnt b, rxCnt := c }).bufBytes .rxa p 0 ((s.link p).rxCnt + 1) = s.bufBytes .rxa p 0 (s.link p).rxCnt ++ [b] := by
  have hb : ∀ j, (s.setLink p { s.link p with rxa := bufWrite (s.link p).rxa (s.link p).rxCnt b, rxCnt := c }).bufByte .rxa p j = if j = (s.link p).rxCnt then b else s.bufByte .rxa p j := by
    intro j
    unfold State.bufByte; rw [State.link_setLink_self, State.setLink_epoch]
    show (cellGet? (bufWrite (s.link p).rxa (s.link p).rxCnt b) _).getD _ = _
    rw [bufByte_of_bufWrite]; simp only [h, and_true]; rfl
  rw [bufBytes_snoc, hb, if_pos (by omega)]
  congr 1
  apply State.bufBytes_congr
  intro j _ hj
  rw [hb, if_neg (by omega)]

/-- The two states agree on all that the framer of link `p` uses. -/
structure AgreeLink (p : Peer) (s u : State) : Prop where
  cfg : s.cfg = u.cfg
  epoch : s.epoch = u.epoch
  link : s.link p = u.link p
  frm : s.rd (frmStat p) = u.rd (frmStat p)

namespace AgreeLink
theorem setLink {p : Peer} {s u : State} (h : AgreeLink p s u) (l : Link) : AgreeLink p (s.setLink p l)
    (u.setLink p l) :=
  ⟨by simpa using h.cfg, by simpa using h.epoch, by simp, by simpa using h.frm⟩
theorem wrBit {p : Peer} {s u : State} (h : AgreeLink p s u) (n : Nat) (b : Bool) :
    AgreeLink p (s.wrBit (frmStat p) n b) (u.wrBit (frmStat p) n b) :=
  ⟨h.cfg, h.epoch, by simpa using h.link, by rw [State.rd_wrBit, State.rd_wrBit, if_pos rfl, if_pos rfl, h.frm]⟩
theorem latch {p : Peer} {s u : State} (h : AgreeLink p s u) : AgreeLink p (latchUpdate s) (latchUpdate u) :=
  ⟨h.cfg, h.epoch, by simpa using h.link, by
    rw [State.rd_latchUpdate_ne _ (frmStat_ne_fltLat p), State.rd_latchUpdate_ne _ (frmStat_ne_fltLat p), h.frm]⟩

theorem bit {p : Peer} {s u : State} (h : AgreeLink p s u) (n : Nat) : s.bit (frmStat p) n
    = u.bit (frmStat p) n := by unfold State.bit; rw [h.frm]
theorem byte {p : Peer} {s u : State} (h : AgreeLink p s u) (b : BufName) (k : Nat) : s.bufByte b p k
    = u.bufByte b p k := by unfold State.bufByte; rw [h.link, h.epoch]
theorem bytes {p : Peer} {s u : State} (h : AgreeLink p s u) (b : BufName) (k n : Nat) : s.bufBytes b p k n
    = u.bufBytes b p k n := State.bufBytes_congr (fun j _ _ => h.byte b j)
end AgreeLink

/-- The receiver of a link depends on that link alone (R150). -/
theorem rxAccept_agree {p : Peer} {s u : State} (h : AgreeLink p s u) (b : Byte) :
    AgreeLink p (rxAccept p b s) (rxAccept p b u) := by
  have comp : ∀ {s u}, AgreeLink p s u → AgreeLink p (rxComplete p s) (rxComplete p u) := by
    intro s u h
    have : rxCheckOk p s = rxCheckOk p u := by unfold rxCheckOk; rw [h.cfg, h.link]; simp only [h.bytes]
    unfold rxComplete
    rw [this, h.bit]
    split
    · split
      · exact h.wrBit _ _
      · unfold rxHandOver; simp only [h.bytes, h.link]; exact (h.setLink _).wrBit _ _
    · exact h.wrBit _ _
  unfold rxAccept
  rw [h.link]
  split
  · unfold rxFirst rxBegin
    rw [h.cfg, h.link]
    split
    · exact h.setLink _
    · split
      · exact h.setLink _
      · exact (AgreeLink.wrBit h _ _).setLink _
  · unfold rxNext
    simp only [h.link]
    split
    · unfold rxToIdle
      have := comp (h.setLink { u.link p with rxa := bufWrite (u.link p).rxa (u.link p).rxCnt b, rxCnt := (u.link p).rxCnt + 1 })
      rw [this.link]; exact this.setLink _
    · exact h.setLink _

/-- What an operation can touch: one link with its FRM_STAT and FLT_LAT, or the RTE; RESET touches all. -/
theorem effect_touches {i : Instr} {s : State} : (∃ p, LinkTouch p s (effect i s)) ∨ RteOnly s (effect i s)
    ∨ i = .reset := by
  cases i with
  | reset => exact .inr (.inr rfl)
  | regRd a => exact .inr (.inl (RteOnly.refl _))
  | regWr a d => exact .inr (.inl ((RteOnly.wr ..).trans (RteOnly.wr ..)))
  | gpioTick => exact .inr (.inl ((((debounce_rteOnly ..).trans (debounce_rteOnly ..)).trans (debounce_rteOnly ..)).trans (latchUpdate_rteOnly _)))
  | seqTick => exact .inr (.inl ((seqArm_rteOnly _).trans (latchUpdate_rteOnly _)))
  | fanTick => exact .inr (.inl ((((RteOnly.wr ..).trans (RteOnly.foldl (arbitrateFan_rteOnly _) _ _)).trans (RteOnly.foldl (slewFan_rteOnly _ _) _ _)).trans (latchUpdate_rteOnly _)))
  | tachPulse i => exact .inr (.inl ((RteOnly.wr ..).trans (RteOnly.wr ..)))
  | fanstatTick => exact .inr (.inl ((RteOnly.foldl fanstatFan_rteOnly _ _).trans (latchUpdate_rteOnly _)))
  | liveTick => exact .inr (.inl (((liveStep_rteOnly ..).trans (liveStep_rteOnly ..)).trans (latchUpdate_rteOnly _)))
  | rxByte p b => exact .inl ⟨p, effect_linkTouch s (by simp)⟩
  | rxIdle p => exact .inl ⟨p, effect_linkTouch s (by simp)⟩
  | rxDrain p =>
    refine .inr (.inl ?_)
    simp only [effect]
    split
    · exact (drainFields_rteOnly ..).trans (drainFinish_rteOnly ..)
    · exact RteOnly.refl _
  | txStart p => exact .inl ⟨p, effect_linkTouch s (by simp)⟩
  | txByte p => exact .inl ⟨p, effect_linkTouch s (by simp)⟩

/-- The ranges depend on the cursors only. -/
theorem cursorsInRange_of {l m : Link} (h1 : m.rxCnt = l.rxCnt) (h2 : m.rxExp = l.rxExp) (h3 : m.txLen
    = l.txLen) (h4 : m.txIdx = l.txIdx) (h : cursorsInRange l) : cursorsInRange m := by
  unfold cursorsInRange at *; rw [h1, h2, h3, h4]; exact h

/-- The receiver keeps the ranges of its cursors (R70). -/
theorem rxAccept_cursorsInRange {s : State} {p : Peer} {b : Byte} (hc : s.cfg.wf = true)
    (h : cursorsInRange (s.link p)) : cursorsInRange ((rxAccept p b s).link p) := by
  unfold rxAccept
  split
  · unfold rxFirst
    have B : ∀ bc, cursorsInRange ((rxBegin p b bc s).link p) := by
      intro bc; unfold rxBegin; rw [State.link_setLink_self]
      have := two_le_flen s.cfg (rxLayoutOf s.cfg p bc)
      exact ⟨.inr (by simp only; omega), flen_rx_le hc p bc, h.2.2.1, h.2.2.2⟩
    split
    · exact B _
    · split
      · exact B _
      · rw [State.link_setLink_self]; exact h
  · rename_i hne
    have hlt : (s.link p).rxCnt < (s.link p).rxExp := by rcases h.1 with h | h <;> omega
    unfold rxNext
    simp only
    split
    · unfold rxToIdle; rw [State.link_setLink_self]
      have C : ∀ u : State, ((rxComplete p u).link p).rxExp = (u.link p).rxExp
          ∧ ((rxComplete p u).link p).txLen = (u.link p).txLen ∧ ((rxComplete p u).link p).txIdx
              = (u.link p).txIdx := by
        intro u; unfold rxComplete
        split
        · split
          · simp
          · unfold rxHandOver; simp
        · simp
      obtain ⟨c1, c2, c3⟩ := C (s.setLink p { s.link p with rxa := bufWrite (s.link p).rxa (s.link p).rxCnt b, rxCnt := (s.link p).rxCnt + 1 })
      rw [State.link_setLink_self] at c1 c2 c3
      exact ⟨.inl rfl, by rw [c1]; exact h.2.1, by rw [c2]; exact h.2.2.1, by rw [c2, c3]; exact h.2.2.2⟩
    · rw [State.link_setLink_self]
      exact ⟨.inr (by simp only; omega), h.2⟩

/-- What has been written stays written while the link and its two bits stay. -/
theorem readsWrittenBytes_of {s t : State} {p : Peer} (hc : t.cfg = s.cfg) (hl : t.link p = s.link p)
    (h1 : t.bit (frmStat p) bRxPend = true → s.bit (frmStat p) bRxPend = true)
        (h2 : t.bit (frmStat p) bTxBusy = true → s.bit (frmStat p) bTxBusy = true)
    (h : readsWrittenBytes s p) : readsWrittenBytes t p := by
  unfold readsWrittenBytes at *
  rw [hc, hl]
  exact ⟨h.1, h.2.1, fun k => h.2.2.1 (h1 k), fun k => h.2.2.2 (h2 k)⟩

/-- A byte is written when it was or when it is the one stored. -/
theorem written_bufWrite {m : Buf} {k j : Nat} {b : Byte} (hk : k < bufMax) (h : j = k ∨ written m j) :
    written (bufWrite m k b) j := by
  unfold written; rw [cellGet?_bufWrite]
  by_cases hj : j = k
  · simp [hj, hk]
  · rw [if_neg (fun e => hj e.1)]; rcases h with h | h
    · exact absurd h hj
    · exact h

/-- The bytes of a run that fits are written. -/
theorem written_bufWriteBytes {m : Buf} {bs : List Byte} {j : Nat} (hl : bs.length ≤ bufMax)
    (h : j < bs.length) : written (bufWriteBytes m 0 bs) j := by
  unfold written; rw [cellGet?_bufWriteBytes _ _ _ _ (by omega), if_pos (by omega)]; simp [h]

/-- The receiver leaves what may be read next written (R322). -/
theorem rxAccept_readsWrittenBytes {s : State} {p : Peer} {b : Byte}
    (hcu : cursorsInRange (s.link p)) (h : readsWrittenBytes s p) : readsWrittenBytes (rxAccept p b s) p := by
  have fb : ∀ (u : State) n, n < 16 → n ≠ bRxPend → n ≠ bTxBusy → (frmSet p n u).bit (frmStat p) bRxPend
      = u.bit (frmStat p) bRxPend ∧ (frmSet p n u).bit (frmStat p) bTxBusy = u.bit (frmStat p) bTxBusy := by
    intro u n hn h1 h2
    rw [frmSet_bit _ _ _ hn, frmSet_bit _ _ _ hn, if_neg h1.symm, if_neg h2.symm]; exact ⟨rfl, rfl⟩
  unfold rxAccept
  split
  · unfold rxFirst
    have B : ∀ bc, readsWrittenBytes (rxBegin p b bc s) p := by
      intro bc
      unfold readsWrittenBytes rxBegin
      simp only [State.link_setLink_self, State.bit_setLink, State.setLink_cfg]
      refine ⟨?_, fun _ => by trivial, h.2.2.1, h.2.2.2⟩
      intro k hk
      exact written_bufWrite (by decide) (.inl (by omega))
    split
    · exact B _
    · split
      · exact B _
      · obtain ⟨f1, f2⟩ := fb s bAddrErr (by decide) (by decide) (by decide)
        unfold readsWrittenBytes
        simp only [State.link_setLink_self, State.bit_setLink, State.setLink_cfg, f1, f2, frmSet_cfg]
        exact h
  · rename_i hne
    have hlt : (s.link p).rxCnt < (s.link p).rxExp := by rcases hcu.1 with h | h <;> omega
    have hexp := h.2.1 hne
    unfold rxNext
    simp only
    have hw : ∀ k, k < (s.link p).rxCnt + 1 → written (bufWrite (s.link p).rxa (s.link p).rxCnt b) k := by
      intro k hk
      have := hcu.2.1
      refine written_bufWrite (by omega) ?_
      by_cases hk' : k = (s.link p).rxCnt
      · exact .inl hk'
      · exact .inr (h.1 k (by omega))
    split
    · rename_i hlast
      generalize hs1 : (s.setLink p { s.link p with rxa := bufWrite (s.link p).rxa (s.link p).rxCnt b, rxCnt := (s.link p).rxCnt + 1 }) = s1
      have l1 : s1.link p = { s.link p with rxa := bufWrite (s.link p).rxa (s.link p).rxCnt b, rxCnt := (s.link p).rxCnt + 1 } := by rw [← hs1, State.link_setLink_self]
      have c1 : s1.cfg = s.cfg := by rw [← hs1, State.setLink_cfg]
      have b1 : ∀ n, s1.bit (frmStat p) n = s.bit (frmStat p) n := by intro n; rw [← hs1, State.bit_setLink]
      unfold rxToIdle
      have key : ∀ u : State, u.cfg = s.cfg → u.link p = s1.link p → u.bit (frmStat p) bRxPend
          = s.bit (frmStat p) bRxPend → u.bit (frmStat p) bTxBusy = s.bit (frmStat p) bTxBusy
              → readsWrittenBytes (u.setLink p { u.link p with rxCnt := 0 }) p := by
        intro u h1 h2 h3 h4
        unfold readsWrittenBytes
        simp only [State.link_setLink_self, State.bit_setLink, State.setLink_cfg, h1, h2, h3, h4, l1]
        exact ⟨fun k hk => absurd hk (Nat.not_lt_zero _), fun h => absurd rfl h, h.2.2.1, h.2.2.2⟩
      unfold rxComplete
      split
      · split
        · obtain ⟨f1, f2⟩ := fb s1 bRxOvr (by decide) (by decide) (by decide)
          exact key _ (by simpa using c1) (by simp) (by rw [f1, b1]) (by rw [f2, b1])
        · unfold readsWrittenBytes rxHandOver
          simp only [State.link_setLink_self, State.bit_setLink, State.setLink_cfg, frmSet_link, frmSet_cfg,
              c1, l1]
          refine ⟨fun k hk => absurd hk (Nat.not_lt_zero _), fun h => absurd rfl h, ?_, ?_⟩
          · intro _ k hk
            apply written_bufWriteBytes
            · rw [State.bufBytes_length]; exact hcu.2.1
            · rw [State.bufBytes_length, hexp]; exact hk
          · intro hb
            rw [frmSet_bit _ _ _ (by decide), if_neg (by decide), State.bit_setLink, b1] at hb
            exact h.2.2.2 hb
      · obtain ⟨f1, f2⟩ := fb s1 bChkErr (by decide) (by decide) (by decide)
        exact key _ (by simpa using c1) (by simp) (by rw [f1, b1]) (by rw [f2, b1])
    · unfold readsWrittenBytes
      simp only [State.link_setLink_self, State.bit_setLink, State.setLink_cfg]
      exact ⟨hw, fun _ => hexp, h.2.2.1, h.2.2.2⟩

end Sys2Proof.Machine
end

