-- ==== Sys2Proof/Laws/Memory.lean ====
section
/-! SUPPORT. Every operation over the memories keeps their canonical form, and the reset state has it. -/

namespace Sys2Proof.Machine

/-- The canonical form, told by the RTE and by every buffer of every link. -/
theorem memory_wf_iff (s : State) :
    Memory.wf s = true ↔ rteWf s.rte = true ∧ ∀ p b, bufWf ((s.link p).buf b) = true := by
  unfold Memory.wf
  simp only [Bool.and_eq_true]
  constructor
  · rintro ⟨⟨⟨⟨⟨⟨h0, h1⟩, h2⟩, h3⟩, h4⟩, h5⟩, h6⟩
    refine ⟨h0, fun p b => ?_⟩
    cases p <;> cases b <;> assumption
  · rintro ⟨h0, h⟩
    exact ⟨⟨⟨⟨⟨⟨h0, h .pri .rxa⟩, h .pri .rxc⟩, h .pri .txbuf⟩, h .sec .rxa⟩, h .sec .rxc⟩, h .sec .txbuf⟩

/-- A state with the RTE in canonical form and the links of another keeps that state's canonical form. -/
theorem memory_wf_of {s t : State} (hr : rteWf t.rte = true) (hp : t.pri = s.pri) (hs : t.sec = s.sec)
    (h : Memory.wf s = true) : Memory.wf t = true := by
  rw [memory_wf_iff] at h ⊢
  refine ⟨hr, fun p b => ?_⟩
  have := h.2 p b
  cases p
  · show bufWf (t.pri.buf b) = true
    rw [hp]; exact this
  · show bufWf (t.sec.buf b) = true
    rw [hs]; exact this

/-- Writing a word keeps the canonical form. -/
theorem memory_wf_wr {s : State} (a : Addr) (v : Word) (h : Memory.wf s = true) :
    Memory.wf (s.wr a v) = true :=
  memory_wf_of (s := s) (rteWf_rteWrite a v ((memory_wf_iff s).mp h).1) rfl rfl h

/-- Writing a bit keeps the canonical form. -/
theorem memory_wf_wrBit {s : State} (a : Addr) (n : Nat) (b : Bool) (h : Memory.wf s = true) :
    Memory.wf (s.wrBit a n b) = true := memory_wf_wr _ _ h

/-- Writing a field keeps the canonical form. -/
theorem memory_wf_wrField {s : State} (a : Addr) (lo len : Nat) (v : Word) (h : Memory.wf s = true) :
    Memory.wf (s.wrField a lo len v) = true := memory_wf_wr _ _ h

/-- The latch rule keeps the canonical form. -/
theorem memory_wf_latchUpdate {s : State} (h : Memory.wf s = true) : Memory.wf (latchUpdate s) = true :=
  memory_wf_wr _ _ h

/-- Replacing a link by one whose buffers are in canonical form keeps it. -/
theorem memory_wf_setLink {s : State} (p : Peer) (l : Link) (hl : ∀ b, bufWf (l.buf b) = true)
    (h : Memory.wf s = true) : Memory.wf (s.setLink p l) = true := by
  rw [memory_wf_iff] at h ⊢
  refine ⟨by simpa using h.1, fun q b => ?_⟩
  rw [State.link_setLink]
  split
  · exact hl b
  · exact h.2 q b

/-- The buffers of a link are in canonical form. -/
theorem memory_wf_buf {s : State} (p : Peer) (b : BufName) (h : Memory.wf s = true) :
    bufWf ((s.link p).buf b) = true := ((memory_wf_iff s).mp h).2 p b

/-- A fold of operations that keep the canonical form keeps it. -/
theorem memory_wf_foldl {α : Type} {f : State → α → State} (hf : ∀ s x, Memory.wf s = true → Memory.wf (f s x) = true)
    (l : List α) {s : State} (h : Memory.wf s = true) : Memory.wf (l.foldl f s) = true := by
  induction l generalizing s with
  | nil => exact h
  | cons x l ih => exact ih (hf s x h)

/-- The state after power-on, under every configuration, has the canonical form. -/
theorem memory_wf_resetWith (cfg : Config) : Memory.wf (State.resetWith cfg) = true :=
  (memory_wf_iff _).mpr ⟨rteWf_rteReset cfg, fun p b => by cases p <;> cases b <;> rfl⟩

end Sys2Proof.Machine
end

