-- ==== Sys2Proof/Laws/Owners.lean ====
section
/-! SUPPORT. The owners of words (spec/10_state.md R23), and steps that keep the ownership convention
(spec/40_rte_access.md R143). -/

namespace Sys2Proof.Machine

/-- A layout names the words of its entries (R118). -/
theorem layoutNames_words {l : Layout} {a : Addr} : layoutNames l a ↔ ∃ e ∈ l, a ∈ Entry.words e := by
  unfold layoutNames Entry.words
  constructor
  · rintro ⟨e, he, h⟩
    refine ⟨e, he, ?_⟩
    rcases h with rfl | ⟨hw, rfl⟩
    · split <;> simp
    · simp [hw]
  · rintro ⟨e, he, h⟩
    refine ⟨e, he, ?_⟩
    split at h <;> simp at h
    · rename_i hw
      rcases h with h | h
      · exact .inl h
      · exact .inr ⟨hw, h⟩
    · exact .inl h

/-- The layouts of received frames name only words of the environment (R121, R335). -/
theorem ownerOf_named {cfg : Config} (hl : layoutsConform cfg = true) {p : Peer} {bc : Bool} {a : Addr}
    (h : layoutNames (rxLayoutOf cfg p bc) a) : ownerOf cfg a = .env := by
  obtain ⟨e, he, ha⟩ := layoutNames_words.1 h
  simp only [layoutsConform, Bool.and_eq_true] at hl
  have : layoutConforms cfg (rxLayoutOf cfg p bc) = true := by
    unfold rxLayoutOf; cases p <;> cases bc <;> simp [PerPeer.get, hl]
  unfold layoutConforms at this
  rw [List.all_eq_true] at this
  have := this e he
  rw [List.all_eq_true] at this
  simpa using this a ha

/-- The owner of a word of a fan that exists (R51 to R57). -/
theorem ownerOf_fanAddr {cfg : Config} (hn : cfg.nfan ≤ 4) {i : Nat} (hi : i < cfg.nfan) (x : FanWord) :
    ownerOf cfg (fanAddr i x) = if x = .ovr then .env else .fanctrl := by
  have hi4 : i < 4 := by omega
  have ht := fanAddr_toNat hi4 x
  have ho := x.offset_lt
  have : inFanRecord cfg (fanAddr i x) = true := by unfold inFanRecord; simp [ht]; omega
  have n : ∀ a : Addr, a.toNat < 0x30 ∨ 0x50 ≤ a.toNat
      → fanAddr i x ≠ a := fun a ha => (ne_fanAddr hi4 x ha).symm
  unfold ownerOf
  rw [if_neg (n _ (by decide)), if_neg (by omega), if_neg (n _ (by decide)), if_pos this]
  have : (fanAddr i x).toNat % 8 = x.offset := by omega
  rw [this]
  cases x <;> simp [FanWord.offset]

/-- The owners of the link words (R60 to R62). -/
theorem ownerOf_com {cfg : Config} (hn : cfg.nfan ≤ 4) : ownerOf cfg comStat = .intcom ∧ (∀ p,
    ownerOf cfg (liveCnt p) = .intcom) ∧ ∀ p, ownerOf cfg (frmStat p) = .framer := by
  have h : ∀ a : Addr, 0x50 ≤ a.toNat → inFanRecord cfg a = false := by
    intro a ha; unfold inFanRecord; simp; omega
  refine ⟨?_, ?_, ?_⟩
  · unfold ownerOf; rw [h _ (by decide)]; rfl
  · intro p; unfold ownerOf; rw [h _ (by cases p <;> decide)]; cases p <;> rfl
  · intro p; unfold ownerOf; rw [h _ (by cases p <;> decide)]; cases p <;> rfl

/-- What a step of a conforming run did. -/
theorem step_conforms {s t : State} (hco : stepConforms s) (h : step s = .next t) :
    s.cfg.wf = true ∧ layoutsConform s.cfg = true ∧ (t = s ∨ ∃ rest i, opConforms (s.withPort rest) i = true
        ∧ exec i (s.withPort rest) = .next t) := by
  obtain ⟨hc, ⟨-, h2⟩ | ⟨w, rest, i, h1, h2, h3, h4⟩⟩ := step_next h
  · exact ⟨hc, hco.1, .inl h2⟩
  · refine ⟨hc, hco.1, .inr ⟨rest, i, ?_, h4⟩⟩
    exact hco.2 w rest i h1 h2

/-- An invariant that every conforming operation keeps is kept by every step of a conforming run. -/
theorem step_keeps_conforming {Inv : State → Prop} (hport : ∀ s ws, Inv s → Inv (s.withPort ws))
    (hexec : ∀ i s t, s.cfg.wf = true → layoutsConform s.cfg = true → opConforms s i = true → Inv s
        → exec i s = .next t → Inv t) {s t : State} (hco : stepConforms s) (h : Inv s)
    (hs : step s = .next t) : Inv t := by
  obtain ⟨hc, hl, rfl | ⟨rest, i, h1, h2⟩⟩ := step_conforms hco hs
  · exact h
  · exact hexec i (s.withPort rest) t hc hl h1 (hport s rest h) h2

end Sys2Proof.Machine
end

