-- ==== Sys2Proof/Laws/PerInstr.lean ====
section
/-! SUPPORT. The statement made for every operation, one lemma per constructor of `Instr`: its command word
is covered by the row of the opcode map that has its mnemonic (spec/30_encoding.md R112, R113). -/

namespace Sys2Proof.Laws

/-- The command word of `i` is covered by a row of the opcode map with the mnemonic of `i`. -/
def EncodesInMap.Statement (i : Instr) : Prop :=
  ∃ r ∈ opcodeMap, r.mnemonic = i.mnemonic ∧ r.covers (encode i) = true

/-- A word made of three fields is covered by a row when each field is, under its mask. -/
theorem covers_cmdWord (m : String) {o mo a ma o' a' : BitVec 8} {d md d' : BitVec 16}
    (ho : o' &&& mo = o) (ha : a' &&& ma = a) (hd : d' &&& md = d) :
    OpRow.covers ⟨m, cmdWord o a d, cmdWord mo ma md⟩ (cmdWord o' a' d') = true := by
  rw [covers_iff, opField_cmdWord, aField_cmdWord, dField_cmdWord]
  exact ⟨ho, ha, hd⟩

theorem EncodesInMap.reset : EncodesInMap.Statement .reset :=
  ⟨⟨"RESET", 0x01000000, 0xFFFFFFFF⟩, by decide, rfl, by decide⟩

theorem EncodesInMap.regRd (addr : Addr) : EncodesInMap.Statement (.regRd addr) :=
  ⟨⟨"REG_RD", 0x10000000, 0xFF00FFFF⟩, by decide, rfl,
    covers_cmdWord _ (o := 0x10) (a := 0) (d := 0) (mo := 0xFF) (ma := 0) (md := 0xFFFF) (by decide) (by simp)
      (by decide)⟩

theorem EncodesInMap.regWr (addr : Addr) (data : Word) : EncodesInMap.Statement (.regWr addr data) :=
  ⟨⟨"REG_WR", 0x11000000, 0xFF000000⟩, by decide, rfl,
    covers_cmdWord _ (o := 0x11) (a := 0) (d := 0) (mo := 0xFF) (ma := 0) (md := 0) (by decide) (by simp)
      (by simp)⟩

theorem EncodesInMap.gpioTick : EncodesInMap.Statement .gpioTick :=
  ⟨⟨"GPIO_TICK", 0x20000000, 0xFFFFFFFF⟩, by decide, rfl, by decide⟩

theorem EncodesInMap.seqTick : EncodesInMap.Statement .seqTick :=
  ⟨⟨"SEQ_TICK", 0x21000000, 0xFFFFFFFF⟩, by decide, rfl, by decide⟩

theorem EncodesInMap.fanTick : EncodesInMap.Statement .fanTick :=
  ⟨⟨"FAN_TICK", 0x30000000, 0xFFFFFFFF⟩, by decide, rfl, by decide⟩

theorem EncodesInMap.tachPulse (i : Fin 4) : EncodesInMap.Statement (.tachPulse i) :=
  ⟨⟨"TACH_PULSE", 0x31000000, 0xFFFCFFFF⟩, by decide, rfl, by revert i; decide⟩

theorem EncodesInMap.fanstatTick : EncodesInMap.Statement .fanstatTick :=
  ⟨⟨"FANSTAT_TICK", 0x32000000, 0xFFFFFFFF⟩, by decide, rfl, by decide⟩

theorem EncodesInMap.liveTick : EncodesInMap.Statement .liveTick :=
  ⟨⟨"LIVE_TICK", 0x40000000, 0xFFFFFFFF⟩, by decide, rfl, by decide⟩

/-- A byte widened to the data field leaves the field's high byte zero. -/
theorem widened_high_zero : ∀ byte : Byte, byte.setWidth 16 &&& (0xFF00 : BitVec 16) = 0 := by decide

theorem EncodesInMap.rxByte (p : Peer) (byte : Byte) : EncodesInMap.Statement (.rxByte p byte) :=
  ⟨⟨"RX_BYTE", 0x41000000, 0xFFFEFF00⟩, by decide, rfl,
    covers_cmdWord _ (o := 0x41) (a := 0) (d := 0) (mo := 0xFF) (ma := 0xFE) (md := 0xFF00) (by decide)
      (by cases p <;> decide) (widened_high_zero byte)⟩

theorem EncodesInMap.rxIdle (p : Peer) : EncodesInMap.Statement (.rxIdle p) :=
  ⟨⟨"RX_IDLE", 0x42000000, 0xFFFEFFFF⟩, by decide, rfl, by cases p <;> decide⟩

theorem EncodesInMap.rxDrain (p : Peer) : EncodesInMap.Statement (.rxDrain p) :=
  ⟨⟨"RX_DRAIN", 0x43000000, 0xFFFEFFFF⟩, by decide, rfl, by cases p <;> decide⟩

theorem EncodesInMap.txStart (p : Peer) : EncodesInMap.Statement (.txStart p) :=
  ⟨⟨"TX_START", 0x44000000, 0xFFFEFFFF⟩, by decide, rfl, by cases p <;> decide⟩

theorem EncodesInMap.txByte (p : Peer) : EncodesInMap.Statement (.txByte p) :=
  ⟨⟨"TX_BYTE", 0x45000000, 0xFFFEFFFF⟩, by decide, rfl, by cases p <;> decide⟩

end Sys2Proof.Laws
end

