-- ==== Sys2Proof/Laws/Tmctrl.lean ====
section
/-! SUPPORT. What the latch rule, the debounce and the sequencer do to each word (spec/44_tmctrl.md), and runs of one
operation. -/

namespace Sys2Proof.Machine

/-- An operation that touches only the RTE leaves everything outside it. -/
theorem RteOnly.outsideKept {s u : State} (R : RteOnly s u) (r : Result) :
    outsideKept s (u.withResult r) := ⟨R.cfg, R.pri, R.sec, R.port, R.epoch⟩

/-- After the latch rule the latches agree with it (R276). -/
theorem latchesAgree_latchUpdate (u : State) : latchesAgree (latchUpdate u) := by
  intro k hk
  rw [State.bit_latchUpdate_fltLat, if_pos hk, State.bit_latchUpdate_ne _ (by decide),
      State.bit_latchUpdate_ne _ (by decide)]
  constructor
  · intro h; simp [h]
  · intro h1 h2; simpa [h2] using h1

/-- The agreement depends on FLT_RAW, FLT_LAT and SEQ_OUT only. -/
theorem latchesAgree_congr {s t : State} (h : ∀ a, a = fltRaw ∨ a = fltLat ∨ a = seqOut → t.rd a = s.rd a)
    (hs : latchesAgree s) : latchesAgree t := by
  have hb : ∀ a, a = fltRaw ∨ a = fltLat ∨ a = seqOut → ∀ n, t.bit a n = s.bit a n := by
    intro a ha n; unfold State.bit; rw [h a ha]
  intro k hk
  rw [hb fltRaw (by simp), hb fltLat (by simp), hb seqOut (by simp)]
  exact hs k hk

/-- Where the latches agree, the latch rule changes nothing (R275). -/
theorem latchesAgree_idem {t : State} (h : latchesAgree t) (a : Addr) : (latchUpdate t).rd a = t.rd a := by
  rw [State.rd_latchUpdate]
  split
  · subst_vars
    apply word_eq_of_bits
    intro j hj
    rw [getLsbD_latchWord]
    split
    · rename_i h4
      have := h j h4
      unfold State.bit at this
      revert this
      cases (t.rd fltRaw).getLsbD j <;> cases (t.rd fltLat).getLsbD j <;> cases (t.rd seqOut).getLsbD (4 + j) <;> simp
    · rfl
  · rfl

/-- FLT_LAT after the latch rule, from the words before the operation. -/
theorem latchedFrom_of (s u t : State) (ht : t = latchUpdate u) (h1 : u.rd fltRaw = s.rd fltRaw)
    (h2 : u.rd fltLat = s.rd fltLat)
   (h3 : ∀ n, n < 4 → u.bit seqOut (4 + n) = s.bit seqOut (4 + n)) : latchedFrom s t := by
  intro n
  subst ht
  rw [State.bit_latchUpdate_fltLat]
  split
  · rename_i hn; rw [h3 n hn]; unfold State.bit; rw [h1, h2]
  · unfold State.bit; rw [h2]

/-- The debounce counters are none of the other words the debounce uses. -/
theorem gpioCnt_ne (g : Sig) : gpioCnt g ≠ gpioDb ∧ gpioCnt g ≠ gpioRaw ∧ gpioCnt g ≠ fltLat
    ∧ gpioCnt g ≠ fltRaw ∧ gpioCnt g ≠ seqOut := by cases g <;> decide

/-- Each signal has its own counter (R45). -/
theorem gpioCnt_inj {g h : Sig} : gpioCnt g = gpioCnt h ↔ g = h := by cases g <;> cases h <;> decide

/-- The bit of a signal lies in its word. -/
theorem Sig.index_lt (g : Sig) : g.index < 16 := by cases g <;> decide

/-- Each signal has its own bit (R44). -/
theorem Sig.index_inj {g h : Sig} : g.index = h.index ↔ g = h := by cases g <;> cases h <;> decide

/-- A threshold is a word. -/
theorem debounceThr_lt (cfg : Config) (g : Sig) (b : Bool) : debounceThr cfg g b < 65536 := by
  unfold debounceThr; split <;> exact BitVec.isLt _

/-- The debounce of one signal writes GPIO_DB and that signal's counter only (R252). -/
theorem debounce_rd_ne (g : Sig) (s : State) {a : Addr} (h1 : a ≠ gpioDb) (h2 : a ≠ gpioCnt g) :
    (debounce g s).rd a = s.rd a := by
  unfold debounce
  simp only
  split
  · split
    · rw [State.rd_wr_ne _ _ h2, State.rd_wrBit, if_neg h1]
    · rw [State.rd_wr_ne _ _ h2]
  · split
    · rw [State.rd_wr_ne _ _ h2]
    · rfl

/-- GPIO_DB after the debounce of one signal (R252). -/
theorem debounce_db (g : Sig) (s : State) (j : Nat) :
    (debounce g s).bit gpioDb j = if j = g.index ∧ s.bit gpioRaw g.index ≠ s.bit gpioDb g.index
        ∧ debounceThr s.cfg g (s.bit gpioDb g.index) ≤ s.rdNat (gpioCnt g) + 1 then s.bit gpioRaw g.index else s.bit gpioDb j := by
  have hne := (gpioCnt_ne g).1.symm
  unfold debounce
  simp only
  split
  · rename_i hd
    split
    · rename_i ht
      rw [State.bit_wr, if_neg hne, State.bit_wrBit _ _ _ _ _ _ (Sig.index_lt g)]
      simp [hd, ht]
    · rename_i ht
      rw [State.bit_wr, if_neg hne, if_neg (by omega)]
  · rename_i hd
    simp only [hd, false_and, and_false, if_false]
    split
    · rw [State.bit_wr, if_neg hne]
    · rfl

/-- The counter after the debounce of its signal (R252). -/
theorem debounce_cnt (g : Sig) (s : State) :
    (debounce g s).rdNat (gpioCnt g) =
      if s.bit gpioRaw g.index ≠ s.bit gpioDb g.index then
        (if debounceThr s.cfg g (s.bit gpioDb g.index) ≤ s.rdNat (gpioCnt g) + 1 then 0 else s.rdNat (gpioCnt g) + 1)
      else s.rdNat (gpioCnt g) - 1 := by
  have hlt := debounceThr_lt s.cfg g (s.bit gpioDb g.index)
  have hc : s.rdNat (gpioCnt g) < 65536 := BitVec.isLt _
  unfold debounce
  simp only
  split
  · split
    · simp [State.rdNat_wr]
    · simp only [State.rdNat_wr, if_true, trunc16, BitVec.toNat_ofNat]; omega
  · split
    · simp only [State.rdNat_wr, if_true, trunc16, BitVec.toNat_ofNat]; omega
    · omega

/-- The enable outputs are zero when their four bits are. -/
theorem enableOutputs_eq_zero (t : State) (h : ∀ j, j < 4 → t.bit seqOut j = false) : enableOutputs t = 0 := by
  apply word_eq_of_bits
  intro j hj
  have hm : ∀ j, j < 16 → (0x000F : Word).getLsbD j = decide (j < 4) := by decide
  unfold enableOutputs
  rw [BitVec.getLsbD_and, hm j hj]
  by_cases h4 : j < 4
  · have := h j h4; unfold State.bit at this; simp [this]
  · simp [h4]

/-- The four bits are zero when the enable outputs are. -/
theorem enableOutputs_bit {s : State} (h : enableOutputs s = 0) {j : Nat} (hj : j < 4) : s.bit seqOut j
    = false := by
  have := congrArg (fun w => BitVec.getLsbD w j) h
  have hm : ∀ j, j < 4 → (0x000F : Word).getLsbD j = true := by decide
  have hm := hm j hj
  unfold enableOutputs at this
  simp only [BitVec.getLsbD_and, hm, Bool.and_true] at this
  unfold State.bit; simpa using this

/-- A sequencer state is one of the four or an unrecognized one (R40, R267). -/
theorem seqState_cases (s : State) : s.rd seqState = stInit ∨ s.rd seqState = stIdle ∨ s.rd seqState = stOn
    ∨ s.rd seqState = stOff ∨ 4 ≤ s.rdNat seqState := by
  have h : ∀ n < 4, s.rdNat seqState = n → s.rd seqState = BitVec.ofNat 16 n := by
    intro n _ h; rw [← h]; unfold State.rdNat; simp
  by_cases h4 : 4 ≤ s.rdNat seqState
  · simp [h4]
  · have : s.rdNat seqState = 0 ∨ s.rdNat seqState = 1 ∨ s.rdNat seqState = 2 ∨ s.rdNat seqState = 3 := by omega
    rcases this with k | k | k | k
    · exact .inl (h 0 (by omega) k)
    · exact .inr (.inl (h 1 (by omega) k))
    · exact .inr (.inr (.inl (h 2 (by omega) k)))
    · exact .inr (.inr (.inr (.inl (h 3 (by omega) k))))

/-- SEQ_TICK, but for the latch rule, writes four words (R261). -/
theorem seqArm_rd_ne (s : State) {a : Addr} (h1 : a ≠ seqState) (h2 : a ≠ seqOut) (h3 : a ≠ seqDlyCnt)
    (h4 : a ≠ seqRetryCnt) :
    (seqArm s).rd a = s.rd a := by
  have rearm : ∀ u : State, (seqRearm u).rd a = u.rd a := by
    intro u; unfold seqRearm; split <;> simp [State.rd_wr_ne, State.rd_wrField, *]
  have auto : ∀ u : State, (seqAutoClear u).rd a = u.rd a := by
    intro u; unfold seqAutoClear; split <;> simp [State.rd_wr_ne, State.rd_wrBit, *]
  have idle : ∀ ok, (seqIdleArm ok s).rd a = s.rd a := by
    intro ok; unfold seqIdleArm; simp only
    split
    · rw [State.rd_wr_ne _ _ h1, State.rd_wrField, if_neg h2, auto, rearm]
    · rw [auto, rearm]
  have on : ∀ ok, (seqOnArm ok s).rd a = s.rd a := by
    intro ok; unfold seqOnArm; simp only
    split
    · split <;> simp [State.rd_wrField, State.rd_wrBit, *]
    · simp [State.rd_wrField, State.rd_wr_ne, *]
  unfold seqArm
  split
  · unfold seqInitArm; simp only
    split <;> simp [State.rd_wrField, State.rd_wr_ne, *]
  · split
    · exact idle _
    · split
      · exact on _
      · split
        · unfold seqOffArm; simp [State.rd_wrField, State.rd_wr_ne, *]
        · exact State.rd_wr_ne _ _ h1

/-- The two states have one configuration and the same words wherever `P` holds. -/
def AgreeOn (P : Addr → Prop) (s u : State) : Prop := s.cfg = u.cfg ∧ ∀ a, P a → s.rd a = u.rd a

namespace AgreeOn
theorem wr {P : Addr → Prop} {s u : State} (h : AgreeOn P s u) (a : Addr) {v w : Word} (e : P a → v = w) :
    AgreeOn P (s.wr a v) (u.wr a w) := by
  refine ⟨h.1, fun b hb => ?_⟩
  rw [State.rd_wr, State.rd_wr]
  split
  · rename_i hab; subst hab; exact e hb
  · exact h.2 b hb
theorem rdE {P : Addr → Prop} {s u : State} (h : AgreeOn P s u) {a : Addr} (ha : P a) : s.rd a
    = u.rd a := h.2 a ha
theorem bit {P : Addr → Prop} {s u : State} (h : AgreeOn P s u) {a : Addr} (ha : P a) (n : Nat) : s.bit a n
    = u.bit a n := by unfold State.bit; rw [h.2 a ha]
theorem nat {P : Addr → Prop} {s u : State} (h : AgreeOn P s u) {a : Addr} (ha : P a) : s.rdNat a
    = u.rdNat a := by unfold State.rdNat; rw [h.2 a ha]
theorem wrBit {P : Addr → Prop} {s u : State} (h : AgreeOn P s u) (a : Addr) (n : Nat) (b : Bool) :
    AgreeOn P (s.wrBit a n b) (u.wrBit a n b) := h.wr a (fun ha => by rw [h.2 a ha])
theorem wrField {P : Addr → Prop} {s u : State} (h : AgreeOn P s u) (a : Addr) (l n : Nat) (b : Word) :
    AgreeOn P (s.wrField a l n b) (u.wrField a l n b) := h.wr a (fun ha => by rw [h.2 a ha])
end AgreeOn

/-- SEQ_TICK leaves states that agree wherever `P` holds, when `P` holds of every word below 0x30. -/
theorem seqArm_agree {P : Addr → Prop} (hP : ∀ a : Addr, a.toNat < 0x30 → P a)
    {s u : State} (h : AgreeOn P s u) : AgreeOn P (latchUpdate (seqArm s)) (latchUpdate (seqArm u)) := by
  have lu : ∀ {s u}, AgreeOn P s u → AgreeOn P (latchUpdate s) (latchUpdate u) := by
    intro s u h
    refine h.wr _ (fun _ => ?_)
    rw [h.2 fltRaw (hP _ (by decide)), h.2 fltLat (hP _ (by decide)), h.2 seqOut (hP _ (by decide))]
  apply lu
  have hh : healthy s = healthy u := by
    unfold healthy noFaultLatched
    rw [h.1]
    simp only [h.bit (hP gpioDb (by decide)), h.bit (hP fltLat (by decide))]
  have rearm : ∀ {s u}, AgreeOn P s u → AgreeOn P (seqRearm s) (seqRearm u) := by
    intro s u h
    unfold seqRearm
    rw [h.bit (hP sysIn (by decide)), h.bit (hP sysIn (by decide))]
    split
    · exact (h.wrField ..).wr _ (fun _ => rfl)
    · exact h
  have auto : ∀ {s u}, AgreeOn P s u → AgreeOn P (seqAutoClear s) (seqAutoClear u) := by
    intro s u h
    have : autoClearDue s = autoClearDue u := by
      unfold autoClearDue
      rw [h.1]
      simp only [h.bit (hP seqOut (by decide)), h.bit (hP fltLat (by decide)),
          h.nat (hP seqRetryCnt (by decide))]
    unfold seqAutoClear
    rw [this]
    split
    · exact ((h.wrBit ..).wrBit ..).wr _ (fun _ => by rw [h.nat (hP seqRetryCnt (by decide))])
    · exact h
  unfold seqArm
  rw [h.2 seqState (hP _ (by decide)), hh]
  split
  · unfold seqInitArm
    simp only
    have h1 := h.wrField seqOut 0 4 0
    rw [h1.nat (hP seqDlyCnt (by decide)), h1.1]
    split
    · exact (h1.wr _ (fun _ => rfl)).wr _ (fun _ => rfl)
    · exact h1.wr _ (fun _ => rfl)
  · split
    · unfold seqIdleArm
      simp only
      split
      · exact ((auto (rearm h)).wrField ..).wr _ (fun _ => rfl)
      · exact auto (rearm h)
    · split
      · unfold seqOnArm
        simp only
        have h1 := h.wrField seqOut 0 3 7
        rw [h1.bit (hP sysIn (by decide))]
        split
        · split
          · exact h1.wrBit ..
          · exact h1
        · exact (h.wrField ..).wr _ (fun _ => rfl)
      · split
        · exact ((h.wrField ..).wr _ (fun _ => rfl)).wr _ (fun _ => rfl)
        · exact h.wr _ (fun _ => rfl)

/-- A list of operations is performed part by part. -/
theorem perform_append (l m : List Instr) (s : State) :
    perform (l ++ m) s = match perform l s with | .next t => perform m t | .fault r => .fault r | .refused r => .refused r := by
  induction l generalizing s with
  | nil => rfl
  | cons i l ih =>
    simp only [List.cons_append, perform]
    cases exec i s with
    | next t => exact ih t
    | fault f => rfl
    | refused r => rfl

/-- One more operation at the end of a list. -/
theorem perform_snoc {l : List Instr} {i : Instr} {s t u : State} (h : perform l s = .next t) (h' : exec i t
    = .next u) :
    perform (l ++ [i]) s = .next u := by
  rw [perform_append, h]; simp [perform, h']

/-- One more repetition stands at the end. -/
theorem repeatOp_succ (n : Nat) (i : Instr) : repeatOp (n + 1) i = repeatOp n i ++ [i] := by
  unfold repeatOp; exact List.replicate_succ'

end Sys2Proof.Machine
end

