-- ==== Sys2Proof/Machine/Trace.lean ====
section
/-! DEFINITION. The trace syntax (spec/30_encoding.md R125): one operation per line, the mnemonic, then
operands separated by commas; `#` starts a comment. -/

namespace Sys2Proof.Machine

/-- The value of a hexadecimal digit. -/
def digitValue (c : Char) : Option Nat :=
  let n := c.toNat
  if 48 ≤ n ∧ n ≤ 57 then some (n - 48)
  else if 97 ≤ n ∧ n ≤ 102 then some (n - 87)
  else if 65 ≤ n ∧ n ≤ 70 then some (n - 55)
  else none

/-- The number written by digits of a base, the value so far being `acc`. -/
def digitsValue (base acc : Nat) : List Char → Option Nat
  | [] => some acc
  | c :: rest =>
    match digitValue c with
    | some d => if d < base then digitsValue base (base * acc + d) rest else none
    | none => none

/-- A number: `0x` and hexadecimal digits, or decimal digits. -/
def numberOf : List Char → Option Nat
  | [] => none
  | ['0', 'x'] => none
  | '0' :: 'x' :: digits => digitsValue 16 0 digits
  | digits => digitsValue 10 0 digits

/-- The tokens of a line: comment dropped, blanks and commas separate (R125). `cur` is the token being
read, in reverse. -/
def tokensFrom (cur : List Char) : List Char → List (List Char)
  | [] => if cur.isEmpty then [] else [cur.reverse]
  | c :: rest =>
    if c = '#' then (if cur.isEmpty then [] else [cur.reverse])
    else if c = ' ' ∨ c = ',' ∨ c = '\t' then
      (if cur.isEmpty then tokensFrom [] rest else cur.reverse :: tokensFrom [] rest)
    else tokensFrom (c :: cur) rest

/-- The register names of spec/10_state.md section 4.1 that name one word. -/
def registerNames : List (String × Addr) :=
  [("SYS_IN", sysIn), ("GPIO_RAW", gpioRaw), ("FLT_RAW", fltRaw), ("TACH_LVL", tachLvl),
   ("T_AMB", tAmb), ("T_HOT", tHot), ("LOAD", loadMeas), ("VIN", vinMeas),
   ("SEQ_STATE", seqState), ("SEQ_OUT", seqOut), ("SEQ_DLY_CNT", seqDlyCnt),
   ("SEQ_RETRY_CNT", seqRetryCnt), ("GPIO_DB", gpioDb), ("GPIO_CNT_HALT", gpioCnt .halt),
   ("GPIO_CNT_SWEN", gpioCnt .swen), ("GPIO_CNT_BULK", gpioCnt .bulk), ("FLT_LAT", fltLat),
   ("FAN_TARGET", fanTarget), ("COM_STAT", comStat)] ++
  [("LIVE_CNT[PRI]", liveCnt .pri), ("LIVE_CNT[SEC]", liveCnt .sec), ("LIVE_CNT[0]", liveCnt .pri),
   ("LIVE_CNT[1]", liveCnt .sec), ("FRM_STAT[PRI]", frmStat .pri), ("FRM_STAT[SEC]", frmStat .sec),
   ("FRM_STAT[0]", frmStat .pri), ("FRM_STAT[1]", frmStat .sec),
   ("LOC_BOOT_MAJ", locBootMaj), ("LOC_BOOT_MIN", locBootMaj + 1), ("LOC_BOOT_TAG", locBootMaj + 2),
   ("LOC_APP_MAJ", locAppMaj), ("LOC_APP_MIN", locAppMaj + 1), ("LOC_APP_TAG", locAppMaj + 2),
   ("LOC_REV", locRev)]

/-- The names of the words of a Fan Control Record. -/
def fanWordNames : List (String × FanWord) :=
  [("PULSE", .pulse), ("SPEED", .speed), ("DUTY", .duty), ("OVR", .ovr), ("STAT", .stat),
   ("WARN_CNT", .warnCnt), ("FAIL_CNT", .failCnt), ("OK_CNT", .okCnt)]

/-- The value listed under a name. -/
def named {α : Type} (name : List Char) : List (String × α) → Option α
  | [] => none
  | e :: rest => if e.1.toList = name then some e.2 else named name rest

/-- An RTE address: a hexadecimal number, a register name, or `FAN[i].X`. -/
def addressOf : List Char → Option Addr
  | '0' :: 'x' :: digits =>
    match numberOf ('0' :: 'x' :: digits) with
    | some n => if n < 256 then some (BitVec.ofNat 8 n) else none
    | none => none
  | 'F' :: 'A' :: 'N' :: '[' :: i :: ']' :: '.' :: name =>
    match digitValue i, named name fanWordNames with
    | some k, some x => if k < 4 then some (fanAddr k x) else none
    | _, _ => none
  | name => named name registerNames

/-- A peer operand: `PRI`, `SEC`, 0 or 1. -/
def peerNamed (t : List Char) : Option Peer :=
  named t [("PRI", Peer.pri), ("SEC", Peer.sec), ("0", Peer.pri), ("1", Peer.sec)]

/-- A number below a bound. -/
def boundedNumber (bound : Nat) (t : List Char) : Option Nat :=
  match numberOf t with
  | some n => if n < bound then some n else none
  | none => none

/-- The operation without operands that a mnemonic names. -/
def plainOps : List (String × Instr) :=
  [("RESET", .reset), ("GPIO_TICK", .gpioTick), ("SEQ_TICK", .seqTick), ("FAN_TICK", .fanTick),
   ("FANSTAT_TICK", .fanstatTick), ("LIVE_TICK", .liveTick)]

/-- The operation with one peer operand that a mnemonic names. -/
def peerOps (p : Peer) : List (String × Instr) :=
  [("RX_IDLE", .rxIdle p), ("RX_DRAIN", .rxDrain p), ("TX_START", .txStart p), ("TX_BYTE", .txByte p)]

/-- The operation with one operand (R112, R125). -/
def unaryOp (m x : List Char) : Option Instr :=
  if m = "REG_RD".toList then (addressOf x).map Instr.regRd
  else if m = "TACH_PULSE".toList then
    match boundedNumber 4 x with
    | some n => if h : n < 4 then some (.tachPulse ⟨n, h⟩) else none
    | none => none
  else
    match peerNamed x with
    | some p => named m (peerOps p)
    | none => none

/-- The operation with two operands (R112, R125). -/
def binaryOp (m x y : List Char) : Option Instr :=
  if m = "REG_WR".toList then
    match addressOf x, boundedNumber 65536 y with
    | some a, some d => some (.regWr a (BitVec.ofNat 16 d))
    | _, _ => none
  else if m = "RX_BYTE".toList then
    match peerNamed x, boundedNumber 256 y with
    | some p, some b => some (.rxByte p (BitVec.ofNat 8 b))
    | _, _ => none
  else none

/-- The operation a line of a trace names, none for an empty, comment or malformed line (R125). -/
def traceLine (line : String) : Option Instr :=
  match tokensFrom [] line.toList with
  | [m] => named m plainOps
  | [m, x] => unaryOp m x
  | [m, x, y] => binaryOp m x y
  | _ => none

end Sys2Proof.Machine
end

