-- ==== Sys2Proof/Tests/Slice0.lean ====
section
/-! SUPPORT. Tests on fixed values, and a witness for the hypotheses of every statement that has some.
Expected values are those of spec/95_test_vectors.md (the section named in the comment) or worked by hand
from the rule named. The configuration is REFCFG unless a test says otherwise. -/

namespace Sys2Proof.Machine.Tests

/-- The reset state with some words written. -/
def holding (ws : List (Addr × Word)) : State := ws.foldl (fun s x => s.wr x.1 x.2) State.reset

/-- The state after a list of operations. -/
def after (ops : List Instr) (s : State) : State :=
  match perform ops s with
  | .next t => t
  | _ => s

/-- The words of a list of addresses. -/
def words (s : State) (l : List Addr) : List Word := l.map s.rd

/-! ## Well-formedness: every check refuses a term that fails it -/

theorem test_wf_refcfg : refConfig.wf = true := by decide

theorem test_wf_nfan_zero : ({ refConfig with nfan := 0 } : Config).wf = false := by decide

theorem test_wf_nfan_five : ({ refConfig with nfan := 5 } : Config).wf = false := by decide

theorem test_wf_nstage_nine : ({ refConfig with nstage := 9 } : Config).wf = false := by decide

theorem test_wf_nstage_zero :
    ({ refConfig with nstage := 0, stgLo := [], stgHi := [] } : Config).wf = false := by decide

theorem test_wf_rpmMax : ({ refConfig with fanRpmMax := 0 } : Config).wf = false := by decide

theorem test_wf_dutyFull :
    ({ refConfig with dutyFull := 0, dutyMax := 0, dutyFloor := 0, dutyBoot := 0, dutyAcloss := 0 } : Config).wf
      = false := by decide

/-- WF1. -/
theorem test_wf1 : ({ refConfig with addrBcast := 0x01 } : Config).wf = false := by decide

/-- L1: MEAS before STATUS. -/
theorem test_wf_l1 : Layout.wf .crc16 [⟨.meas, .w16, 0x07, false, 0, 0, .boot⟩, ⟨.status, .w16, 0x80, false, 0, 0, .boot⟩]
    = false := by decide

/-- L2: a STATUS of 8 bits; a VER of 16 bits. -/
theorem test_wf_l2 : Layout.wf .crc16 [⟨.status, .w8, 0x80, false, 0, 0, .boot⟩] = false
    ∧ Layout.wf .crc16 [⟨.ver, .w16, 0x80, false, 0, 0, .boot⟩] = false := by decide

/-- L3: 31 words make 65 bytes with CRC16; 30 words, 63, fit. -/
theorem test_wf_l3 : Layout.wf .crc16 (List.replicate 31 ⟨.meas, .w16, 0x80, false, 0, 0, .boot⟩) = false
    ∧ Layout.wf .crc16 (List.replicate 30 ⟨.meas, .w16, 0x80, false, 0, 0, .boot⟩) = true := by decide

/-- L4: an odd address of a 32-bit entry. -/
theorem test_wf_l4 : Layout.wf .crc16 [⟨.ver, .w32, 0x81, false, 0, 0, .boot⟩] = false
    ∧ Layout.wf .crc16 [⟨.ver, .w32, 0xFE, false, 0, 0, .boot⟩] = true := by decide

/-- L5: an empty range; a range outside its sign. -/
theorem test_wf_l5 : Layout.rxWf .crc16 [⟨.cal, .w16, 0x88, false, 5, 4, .boot⟩] = false
    ∧ Layout.rxWf .crc16 [⟨.cal, .w16, 0x88, false, -1, 4, .boot⟩] = false
    ∧ Layout.rxWf .crc16 [⟨.cal, .w16, 0x88, true, 0, 32768, .boot⟩] = false := by decide

/-- L6: a MEAS in a broadcast layout. -/
theorem test_wf_l6 : Layout.rxbWf .crc16 [⟨.meas, .w16, 0x80, false, 0, 0, .boot⟩] = false := by decide

/-- WF2: an ill-formed layout makes the configuration ill-formed. -/
theorem test_wf2 :
    ({ refConfig with txLayout := ⟨[⟨.status, .w8, 0x80, false, 0, 0, .boot⟩], refTxSec⟩ } : Config).wf = false := by
  decide

/-- WF3: a stage without width; a falling speed. -/
theorem test_wf3 : stagesWf [⟨5, 5, 1, 2⟩] = false ∧ stagesWf [⟨0, 5, 3, 2⟩] = false := by decide

/-- WF4: overlapping stages; a falling speed between stages. -/
theorem test_wf4 : stagesWf [⟨0, 10, 0, 5⟩, ⟨9, 20, 5, 8⟩] = false
    ∧ stagesWf [⟨0, 10, 0, 5⟩, ⟨10, 20, 4, 8⟩] = false := by decide

/-- WF5: a step of two between stages; a step of one is allowed. -/
theorem test_wf5 : stagesWf [⟨0, 10, 0, 5⟩, ⟨10, 20, 7, 8⟩] = false
    ∧ stagesWf [⟨0, 10, 0, 5⟩, ⟨10, 20, 6, 8⟩] = true := by decide

/-- A table without NSTAGE stages. WF6 is implied by the type of a speed. -/
theorem test_wf_table_length : ({ refConfig with nstage := 3 } : Config).wf = false := by decide

theorem test_wf7 : ({ refConfig with errMid := 2001 } : Config).wf = false := by decide

theorem test_wf8 : ({ refConfig with failThr := 1501 } : Config).wf = false
    ∧ ({ refConfig with recovThr := 1499 } : Config).wf = false := by decide

theorem test_wf9 : ({ refConfig with dutyFloor := 101 } : Config).wf = false
    ∧ ({ refConfig with dutyMax := 101 } : Config).wf = false
    ∧ ({ refConfig with dutyBoot := 101 } : Config).wf = false
    ∧ ({ refConfig with dutyAcloss := 101 } : Config).wf = false := by decide

theorem test_wf10 : ({ refConfig with liveReset := ⟨0, 1⟩ } : Config).wf = false
    ∧ ({ refConfig with enDly := ⟨1, 0, 1⟩ } : Config).wf = false
    ∧ ({ refConfig with disDly := ⟨1, 1, 0⟩ } : Config).wf = false
    ∧ ({ refConfig with nWarn := 0 } : Config).wf = false
    ∧ ({ refConfig with nFail := 0 } : Config).wf = false
    ∧ ({ refConfig with mOk := 0 } : Config).wf = false := by decide

/-- A fan operand at NFAN is refused, one below it is not. -/
theorem test_wf_tachPulse : Instr.wf refConfig (.tachPulse 2) = false
    ∧ Instr.wf refConfig (.tachPulse 1) = true := by decide

/-! ## Decoding: the words of section 2.1 -/

theorem test_decode_reset : decode 0x01000000 = .ok .reset := by decide

theorem test_decode_regRd : decode 0x10FF0000 = .ok (.regRd 0xFF) := by decide

theorem test_decode_regWr : decode 0x11010004 = .ok (.regWr gpioRaw 0x0004) := by decide

theorem test_decode_gpioTick : decode 0x20000000 = .ok .gpioTick := by decide

theorem test_decode_seqTick : decode 0x21000000 = .ok .seqTick := by decide

theorem test_decode_fanTick : decode 0x30000000 = .ok .fanTick := by decide

theorem test_decode_tachPulse : decode 0x31010000 = .ok (.tachPulse 1) := by decide

theorem test_decode_fanstatTick : decode 0x32000000 = .ok .fanstatTick := by decide

theorem test_decode_liveTick : decode 0x40000000 = .ok .liveTick := by decide

theorem test_decode_rxByte : decode 0x410100FF = .ok (.rxByte .sec 0xFF) := by decide

theorem test_decode_rxIdle : decode 0x42010000 = .ok (.rxIdle .sec) := by decide

theorem test_decode_rxDrain : decode 0x43000000 = .ok (.rxDrain .pri) := by decide

theorem test_decode_txStart : decode 0x44010000 = .ok (.txStart .sec) := by decide

theorem test_decode_txByte : decode 0x45000000 = .ok (.txByte .pri) := by decide

/-- The illegal words of section 2.1. -/
theorem test_decode_illegal :
    [0x00000000, 0x02000000, 0x46000000, 0xFF000000].map decode
        = List.replicate 4 (.error .unassignedOp)
      ∧ [0x20010000, 0x31040000, 0x41020000].map decode = List.replicate 3 (.error .indexNotZero)
      ∧ [0x01000001, 0x10600001, 0x41000100, 0x42000001].map decode
        = List.replicate 4 (.error .dataNotZero) := by decide

/-- The word that only this configuration refuses (section 2.1). -/
theorem test_step_no_such_fan : step (State.reset.withFetchWord 32 0x31020000) = .refused (.noSuchFan 2) := rfl

theorem test_trace_lines :
    traceLine "REG_WR GPIO_RAW, 0x0004   # bulk OK" = some (.regWr gpioRaw 4)
      ∧ traceLine "REG_RD FAN[1].STAT" = some (.regRd 0x3C)
      ∧ traceLine "RX_BYTE SEC, 0xFF" = some (.rxByte .sec 0xFF) ∧ traceLine "# a comment" = none := by decide

/-! ## Functions with vectors of their own -/

/-- Section 2.3. -/
theorem test_checks :
    sum8 [0x31, 0x32, 0x33, 0x34, 0x35, 0x36, 0x37, 0x38, 0x39] = 0x23
      ∧ crc16 [0x31, 0x32, 0x33, 0x34, 0x35, 0x36, 0x37, 0x38, 0x39] = 0x4B37 ∧ crc16 [] = 0xFFFF := by decide +kernel

theorem test_check_bytes : check .crc16 [0x00, 0x01, 0x80, 0x42, 0x00] = [0x14, 0xB4]
    ∧ check .sum8 [0x00, 0x01, 0x80, 0x42, 0x00] = [0x3D] ∧ sum8 [0xFF, 0x01] = 0 := by decide +kernel

/-- Section 2.6, table "baseline". -/
theorem test_pwl :
    [-32768, 0, 1, 23, 24, 25, 45, 54, 55, 32767].map (pwl refStgLo)
        = [2000, 2000, 2083, 3916, 4000, 4272, 11000, 15500, 16000, 16000]
      ∧ [1, 34, 50].map (pwl refStgHi) = [2041, 5727, 12500] := by decide

/-- Section 2.6: a table with a gap. -/
theorem test_pwl_gap :
    [9, 10, 15, 19, 20, 21, 31].map (pwl [⟨0, 10, 1000, 2000⟩, ⟨20, 30, 2000, 3000⟩])
      = [1900, 2000, 2000, 2000, 2000, 2100, 3000] := by decide

/-- Section 2.5, table "calibration clamp". -/
theorem test_clamp :
    [0x0CCC, 0x0CCD, 0x1333, 0x1334, 0xFFFF].map (drainedValue ⟨.cal, .w16, 0x88, false, 0x0CCD, 0x1333, .boot⟩)
        = [0x0CCD, 0x0CCD, 0x1333, 0x1333, 0x1333]
      ∧ [0xFF9C, 0xFF9B, 0x0064, 0x0065, 0x8000, 0x7FFF].map
          (drainedValue ⟨.cal, .w16, 0x89, true, -100, 100, .boot⟩)
        = [0xFF9C, 0xFF9C, 0x0064, 0x0064, 0xFF9C, 0x0064] := by decide

/-! ## One step of each operation -/

/-- Section 2.2: only the liveness counters are not 0. -/
theorem test_reset : words (after [.reset] (holding [(0xFF, 7), (fltLat, 3)])) [0xFF, fltLat, 0x61, 0x62]
    = [0, 0, 0x03E8, 0x03E8] := by decide

/-- Section 2.2. -/
theorem test_regRd : (after [.regRd 0xFF] (holding [(0xFF, 0xABCD)])).result = .word 0xABCD := by decide

/-- Section 2.2: bits 15:4 are stored, bits 0 and 3 come back. -/
theorem test_regWr_fltLat :
    (after [.regWr fltLat 0xFFF0] (holding [(fltRaw, 9), (fltLat, 9)])).rd fltLat = 0xFFF9 := by decide

/-- Section 2.2: written bits are cleared at once by held clear requests. -/
theorem test_regWr_clear :
    (after [.regWr fltLat 0x000F] (holding [(seqOut, 0x90), (fltLat, 0xFFF0)])).rd fltLat = 6 := by decide

/-- Section 2.7, the debounce table: the second tick of HALT, and the fourth tick of its release. -/
theorem test_gpioTick_rise :
    words (after [.gpioTick] (holding [(gpioRaw, 1), (gpioCnt .halt, 1)])) [gpioDb, gpioCnt .halt] = [1, 0] := by
  decide

theorem test_gpioTick_fall :
    words (after [.gpioTick] (holding [(gpioDb, 1), (gpioCnt .halt, 2)])) [gpioDb, gpioCnt .halt] = [1, 3]
      ∧ words (after [.gpioTick] (holding [(gpioDb, 1), (gpioCnt .halt, 3)])) [gpioDb, gpioCnt .halt] = [0, 0] := by
  decide

/-- Trace S: ON with HALT debounced falls to OFF with the outputs low. -/
theorem test_seqTick_trip :
    words (after [.seqTick] (holding [(seqState, stOn), (seqOut, 0x0F), (gpioDb, 5)])) [seqState, seqOut]
      = [stOff, 0] := by decide

/-- Trace T, row 18: the re-arm raises all four requests; the UVP latch goes, the OVP latch stays. -/
theorem test_seqTick_rearm :
    words (after [.seqTick] (holding [(sysIn, 4), (seqState, stIdle), (gpioDb, 4), (fltRaw, 1), (fltLat, 3),
      (seqRetryCnt, 1)])) [seqState, seqOut, seqRetryCnt, fltLat] = [stIdle, 0x00F0, 0, 1] := by decide

/-- Section 2.6, the override row. -/
theorem test_fanTick_override :
    words (after [.fanTick] (holding [(sysIn, 0x22), (tAmb, 24), (loadMeas, 1200), (tachLvl, 1), (0x31, 6000),
      (0x32, 32), (0x33, 50), (0x39, 5400), (0x3A, 32)])) [fanTarget, 0x32, 0x3A, 0x33, 0x34, 0x3C]
      = [5400, 37, 31, 50, 0xC, 0] := by decide +kernel

/-- Section 2.6, "slew": err = ERR_BIG is the middle band. -/
theorem test_fanTick_band :
    (after [.fanTick] (holding [(tAmb, 30), (0x31, 3636), (0x32, 50)])).rd 0x32 = 52
      ∧ (after [.fanTick] (holding [(tAmb, 30), (0x31, 3635), (0x32, 50)])).rd 0x32 = 55 := by decide +kernel

/-- The count saturates (R230). -/
theorem test_tachPulse : words (after [.tachPulse 1] (holding [(0x30, 5), (0x38, 0xFFFF)])) [0x30, 0x38]
    = [5, 0xFFFF] := by decide

/-- Section 2.6, "judgments", window 6. -/
theorem test_fanstatTick_fail :
    words (after [.fanstatTick] (holding [(sysIn, 2), (0x38, 10), (0x3C, 1), (0x3D, 5), (0x3E, 5)]))
      [0x39, 0x38, 0x3D, 0x3E, 0x3F, 0x3C] = [600, 0, 6, 6, 0, 3] := by decide

/-- Section 2.6, "judgments", window 9: recovered. -/
theorem test_fanstatTick_recover :
    words (after [.fanstatTick] (holding [(sysIn, 2), (0x38, 31), (0x3C, 3), (0x3F, 1)]))
      [0x39, 0x3D, 0x3E, 0x3F, 0x3C] = [1860, 0, 0, 2, 0] := by decide

/-- Section 2.5, "liveness": the tick that reaches 0, and the variant without VIN_OK. -/
theorem test_liveTick :
    words (after [.liveTick] (holding [(sysIn, 1), (0x61, 1), (0x62, 1)])) [comStat, 0x61, 0x62] = [0x001F, 0, 0]
      ∧ words (after [.liveTick] (holding [(0x61, 1), (0x62, 2)])) [comStat, 0x61, 0x62] = [0x0003, 0, 1] := by
  decide

/-- Frame F2 of section 2.4, a broadcast frame on PRI. -/
def f2 : List Byte := [0x00, 0x01, 0x80, 0x42, 0x00, 0x14, 0xB4]

/-- The reset state with all of F2 received but its last byte. -/
def nearlyF2 : State := after (rxFrame .pri (f2.take 6)) State.reset

/-- The reset state with F2 received. -/
def pendingF2 : State := after (rxFrame .pri f2) State.reset

/-- Section 2.4, steps 6 and 9. -/
theorem test_rxByte_address_error :
    (after [.rxByte .pri 0x05] State.reset).rd 0x63 = 0x0200
      ∧ (after [.rxByte .pri 0x05] State.reset).pri.rxSkip = true := by decide

theorem test_rxByte_last :
    nearlyF2.pri.rxCnt = 6
      ∧ (after [.rxByte .pri 0xB4] nearlyF2).rd 0x63 = 0x0001
      ∧ (after [.rxByte .pri 0xB4] nearlyF2).pri.rxcBc = true
      ∧ (after [.rxByte .pri 0xB5] nearlyF2).rd 0x63 = 0x0100 := by decide +kernel

/-- Section 2.4, step 8. -/
theorem test_rxIdle : (after [.rxIdle .pri] nearlyF2).rd 0x63 = 0x1000
    ∧ (after [.rxIdle .pri] nearlyF2).pri.rxCnt = 0 := by decide

/-- Section 2.4, step 11. -/
theorem test_rxDrain : words (after [.rxDrain .pri] pendingF2) [0x80, 0x90, 0x63, 0x61] = [0x8001, 0x0042, 0, 0x03E8] := by
  decide +kernel

/-- Frame F3 of section 2.5, drained: the clamped fields at their bounds, the other peer still failed. -/
theorem test_rxDrain_f3 :
    words (after (rxFrame .sec [0x01, 0x01, 0x00, 0x00, 0x00, 0x1E, 0x00, 0x3D, 0x00, 0xDC, 0x05, 0xB0, 0x04, 0xCD,
        0x0C, 0x64, 0x00, 0x00, 0x00, 0x00, 0x00, 0x00, 0x00, 0x00, 0xCF, 0xB8] ++ [.rxDrain .sec])
        (holding [(sysIn, 1), (comStat, 0x001F), (0x61, 0), (0x62, 0)]))
      [0xC0, 0x04, 0x05, 0x06, 0xC2, 0xC8, 0xC9, comStat, 0x61, 0x62]
      = [0x0001, 0x001E, 0x003D, 0x05DC, 0x04B0, 0x0CCD, 0x0064, 0x0013, 0, 0x03E8] := by decide +kernel

/-- Section 2.5, TX_START SEC. -/
theorem test_txStart :
    outgoingFrame (holding [(comStat, 0x10), (fanTarget, 0x1DD4), (0x32, 45), (0x6B, 2), (0x6C, 5), (0x6D, 0x61)]) .sec
      = [0x03, 0x10, 0x00, 0xD4, 0x1D, 0x2D, 0x00, 0x02, 0x05, 0x61, 0x15, 0x36] := by decide +kernel

/-- A second TX_START is refused (section 2.5). -/
theorem test_txStart_refused :
    (after [.txStart .sec] State.reset).rd 0x64 = 0x0002
      ∧ (after [.txStart .sec, .txStart .sec] State.reset).rd 0x64 = 0x0802 := by decide

/-- Section 3, program E: the frame of zeros begins with the peer's address. -/
theorem test_txByte : (after [.txStart .pri, .txByte .pri] State.reset).result = .byte 0x02
    ∧ (after [.txStart .pri, .txByte .pri] State.reset).pri.txIdx = 1
    ∧ (after [.txByte .pri] State.reset).result = .none := by decide

/-- R16 on a state that breaks R276: every operation that writes ends with the latch rule, and one that changes
nothing leaves the latch (log entry 5). -/
theorem test_latch_rule_ends_the_operation :
    [Instr.liveTick, .rxByte .pri 0x05, .rxIdle .pri, .txStart .pri].map
        (fun i => (after [i] (holding [(fltRaw, 1)])).rd fltLat) = [1, 1, 1, 1]
      ∧ [[Instr.txByte .pri], [.rxDrain .pri], [.regRd fltLat]].map
        (fun ops => (after ops (holding [(fltRaw, 1)])).rd fltLat) = [0, 0, 0] := by decide

/-! ## The discipline of the environment (R332, R333) -/

/-- A drain right after the byte that set RX_PEND, any number of times in a tick, keeps R332; two drains after
one byte do not, one drain anywhere does. -/
theorem test_drainDisciplined :
    let f := rxFrame .pri f2
    drainDisciplined .pri (f ++ [.rxDrain .pri] ++ f ++ [.rxDrain .pri]) State.reset = true
      ∧ drainDisciplined .pri (f ++ [.rxDrain .pri, .rxDrain .pri]) State.reset = false
      ∧ drainDisciplined .pri [.seqTick, .rxDrain .pri] pendingF2 = true := by decide +kernel

/-- The frame that completes while one is pending is lost; with a drain between, none is (R332). -/
theorem test_losesNoFrame :
    losesNoFrame .pri (rxFrame .pri f2) pendingF2 = false
      ∧ losesNoFrame .pri (.rxDrain .pri :: rxFrame .pri f2) pendingF2 = true := by decide +kernel

/-- A TX_START that is not refused owes the bytes of its frame, and is not issued while any are owed; a refused one
owes nothing (R333). -/
theorem test_txDisciplined :
    let len := State.reset.cfg.flen refTxPri
    txDisciplined .pri 0 (.txStart .pri :: repeatOp len (.txByte .pri)) State.reset = true
      ∧ txDisciplined .pri 0 (.txStart .pri :: .txStart .pri :: repeatOp len (.txByte .pri)) State.reset = true
      ∧ txDisciplined .pri 1 [.txStart .pri] State.reset = false := by decide +kernel

/-! ## Witnesses: states and operands that meet the hypotheses of the statements -/

/-- The reset state with one command word presented. -/
def presented (w : Cmd) : State := State.reset.withPort [w]

/-- The state a step leads to. -/
def stepped (s : State) : State :=
  match step s with
  | .next t => t
  | _ => s

/-- A state with one word presented keeps the ownership convention when its operation does. -/
theorem stepConforms_of {s : State} {w : Cmd} {i : Instr} (hp : s.port = [w]) (hd : decode w = .ok i)
    (hl : layoutsConform s.cfg = true) (ho : opConforms s i = true) : stepConforms s := by
  refine ⟨hl, fun w' rest i' hp' hd' => ?_⟩
  rw [hp] at hp'
  injection hp' with h1 h2
  subst h1
  rw [hd] at hd'
  injection hd' with h3
  subst h3
  exact ho

theorem witness_EncodeOfDecode : decode 0x410100FF = .ok (.rxByte .sec 0xFF) := by decide

theorem witness_WordsDecodeByTheirRow :
    decode 0x42010000 = .ok (.rxIdle .sec) ∧ ⟨"RX_IDLE", 0x42000000, 0xFFFEFFFF⟩ ∈ opcodeMap := by decide

theorem witness_IllegalWordsAreRefused :
    (presented 0x31020000).cfg.wf = true ∧ (presented 0x31020000).port = 0x31020000 :: [] := by decide

/-- The four clauses: a word presented, a word to present, nothing presented, a refused configuration. -/
theorem witness_StepRunsPresentedOperation :
    ((presented 0x31010000).cfg.wf = true ∧ (presented 0x31010000).port = 0x31010000 :: []
        ∧ decode 0x31010000 = .ok (.tachPulse 1) ∧ Instr.wf (presented 0x31010000).cfg (.tachPulse 1) = true)
      ∧ (State.reset.cfg.wf = true ∧ Instr.wf State.reset.cfg (.tachPulse 1) = true)
      ∧ State.reset.port = []
      ∧ (State.resetWith { refConfig with nfan := 5 }).cfg.wf = false := by decide

theorem witness_EveryLegalOperationCompletes : Instr.wf State.reset.cfg (.tachPulse 1) = true := by decide

theorem witness_ConfigurationIsNeverWritten : step (presented 0x21000000) = .next (stepped (presented 0x21000000)) :=
  rfl

theorem witness_BuffersAreFreeAfterReset :
    exec .reset nearlyF2 = .next (after [.reset] nearlyF2)
      ∧ cellNumber .rxc .sec 63 = cellNumber .rxc .sec 63 := ⟨rfl, rfl⟩

theorem witness_MemoryStaysCanonical :
    Memory.wf (presented 0x11020009) = true
      ∧ step (presented 0x11020009) = .next (stepped (presented 0x11020009)) := ⟨by decide, rfl⟩

/-- The last byte of a field, and the largest value that fits. -/
theorem witness_FieldsAreLittleEndian : 1 < 2 ∧ 65535 < 256 ^ 2 := by decide

theorem witness_LatchRuleHoldsAfterEveryOperation :
    latchesAgree (holding [(fltRaw, 1), (fltLat, 3), (seqOut, 0x10)])
      ∧ exec .liveTick (holding [(fltRaw, 1), (fltLat, 3), (seqOut, 0x10)])
          = .next (after [.liveTick] (holding [(fltRaw, 1), (fltLat, 3), (seqOut, 0x10)])) := ⟨by decide, rfl⟩

theorem witness_LatchesStayConsistent :
    latchesAgree (presented 0x11020009)
      ∧ step (presented 0x11020009) = .next (stepped (presented 0x11020009)) := ⟨by decide, rfl⟩

/-- One tick before the threshold 2 of HALT, and at it. -/
theorem witness_DebounceFlipsAtTheThreshold :
    let s := holding [(gpioRaw, 1)]
    s.bit gpioRaw Sig.halt.index ≠ s.bit gpioDb Sig.halt.index ∧ s.rdNat (gpioCnt .halt) = 0
      ∧ 1 ≤ (s.cfg.enDly.get .halt).toNat ∧ 1 < (s.cfg.enDly.get .halt).toNat
      ∧ 2 ≤ (s.cfg.enDly.get .halt).toNat := by decide

/-- The delay one short of its end, and at it. -/
theorem witness_SeqTickInInit :
    (holding [(seqDlyCnt, 2)]).rd seqState = stInit ∧ (holding [(seqDlyCnt, 3)]).rd seqState = stInit := by decide

/-- Healthy, and not. -/
theorem witness_SeqTickInIdle :
    (holding [(seqState, stIdle), (gpioDb, 4)]).rd seqState = stIdle
      ∧ healthy (holding [(seqState, stIdle), (gpioDb, 4)]) = true
      ∧ (holding [(seqState, stIdle)]).rd seqState = stIdle
      ∧ healthy (holding [(seqState, stIdle)]) = false := by decide

theorem witness_SeqTickInOn :
    (holding [(seqState, stOn), (gpioDb, 4)]).rd seqState = stOn
      ∧ healthy (holding [(seqState, stOn), (gpioDb, 4)]) = true
      ∧ (holding [(seqState, stOn), (gpioDb, 5)]).rd seqState = stOn
      ∧ healthy (holding [(seqState, stOn), (gpioDb, 5)]) = false := by decide

/-- OFF, and the lowest unrecognized value. -/
theorem witness_SeqTickInOffAndUnrecognized :
    (holding [(seqState, stOff)]).rd seqState = stOff ∧ 4 ≤ (holding [(seqState, 4)]).rdNat seqState := by decide

theorem witness_OnlyOwnersWrite :
    let s := State.reset
    s.cfg.wf = true ∧ layoutsConform s.cfg = true ∧ opConforms s (.regWr tAmb 30) = true
      ∧ exec (.regWr tAmb 30) s = .next (after [.regWr tAmb 30] s)
      ∧ (after [.regWr tAmb 30] s).rd tAmb ≠ s.rd tAmb :=
  ⟨by decide, by decide, by decide, rfl, by decide⟩

/-- A SEQ_TICK presented to the reset state meets the premises of every invariant that a step keeps. -/
theorem conforming_seqTick : stepConforms (presented 0x21000000) :=
  stepConforms_of (i := .seqTick) rfl (by decide) (by decide) rfl

theorem witness_EnablesOnlyInOn :
    stepConforms (presented 0x21000000) ∧ knownSeqState (presented 0x21000000)
      ∧ enablesOnlyInOn (presented 0x21000000)
      ∧ step (presented 0x21000000) = .next (stepped (presented 0x21000000)) :=
  ⟨conforming_seqTick, by decide, by decide, rfl⟩

theorem witness_SequencerTransitions : exec .seqTick State.reset = .next (after [.seqTick] State.reset) := rfl

/-- Each clause at its boundary: the first temperature of the table, a stage's first and last, the ends of
a gap, the last temperature. -/
theorem witness_BaselineSpeed :
    stagesWf [⟨0, 10, 1000, 2000⟩, ⟨20, 30, 2000, 3000⟩] = true
      ∧ (0 : Int) ≤ s16 0
      ∧ s16 20 ≤ 20 ∧ (29 : Int) < s16 30
      ∧ s16 10 ≤ 10 ∧ (19 : Int) < s16 20
      ∧ s16 30 ≤ 30 := by decide

theorem witness_BaselineSpeedIsMonotone : stagesWf refStgLo = true ∧ (23 : Int) ≤ 24 := by decide

theorem witness_FanTickStoresTarget : State.reset.cfg.wf = true := by decide

theorem witness_FanTickDrivesEveryFan :
    let s := holding [(0x31, 6000), (0x39, 5400)]
    s.cfg.wf = true ∧ (∀ k, k < s.cfg.nfan → s.rdNat (fanAddr k .speed) ≤ 6000)
      ∧ s.rdNat (fanAddr 0 .speed) = 6000 := by decide

theorem witness_DutiesStayInRange :
    stepConforms (presented 0x30000000) ∧ dutiesInRange (presented 0x30000000)
      ∧ step (presented 0x30000000) = .next (stepped (presented 0x30000000)) :=
  ⟨stepConforms_of (i := .fanTick) rfl (by decide) (by decide) rfl, by decide, rfl⟩

/-- The last fan, and the first index without one. -/
theorem witness_TachPulseCounts : (1 : Fin 4).val < State.reset.cfg.nfan ∧ State.reset.cfg.nfan ≤ (2 : Fin 4).val := by
  decide

theorem witness_FanstatTickJudgesEveryFan : State.reset.cfg.wf = true ∧ 1 < State.reset.cfg.nfan := by decide

theorem witness_JudgmentsAreExclusive :
    let s := holding [(sysIn, 2), (0x38, 31), (0x3C, 3), (0x3F, 1)]
    s.cfg.wf = true ∧ 1 < s.cfg.nfan ∧ exec .fanstatTick s = .next (after [.fanstatTick] s)
      ∧ s.cfg.mOk.toNat ≤ (after [.fanstatTick] s).rdNat (fanAddr 1 .okCnt) :=
  ⟨by decide, by decide, rfl, by decide⟩

/-- Two states that differ in the health of fan 1 only. -/
theorem witness_FanHealthDoesNotReachControl :
    let s := holding [(0x31, 6000)]
    let u := holding [(0x31, 6000), (0x3C, 3), (0x3D, 9), (0x3E, 9)]
    s.cfg = u.cfg ∧ s.cfg.wf = true
      ∧ (∀ a, (∀ i, i < s.cfg.nfan → a ≠ fanAddr i .stat ∧ a ≠ fanAddr i .warnCnt ∧ a ≠ fanAddr i .failCnt
          ∧ a ≠ fanAddr i .okCnt) → s.rd a = u.rd a)
      ∧ ∀ a, inFanRecord s.cfg a = false → s.rd a = u.rd a := by
  decide +kernel

/-- One tick before the counter ends, and the tick that ends it. -/
theorem witness_SilentPeerIsReportedAtTheNthTick :
    2 < (holding [(0x61, 3)]).rdNat (liveCnt .pri)
      ∧ (1 ≤ 3 ∧ (holding [(0x61, 3)]).rdNat (liveCnt .pri) ≤ 3) := by decide

theorem witness_CountersStayInRange :
    stepConforms (presented 0x40000000)
      ∧ (countersInRange (presented 0x40000000) ∧ failureBitsAgree (presented 0x40000000))
      ∧ step (presented 0x40000000) = .next (stepped (presented 0x40000000)) := by
  refine ⟨stepConforms_of (i := .liveTick) rfl (by decide) (by decide) rfl,
    ⟨⟨?_, by decide, by decide, ?_, by decide⟩, ?_⟩, rfl⟩
  · intro p; cases p <;> decide
  · intro g; cases g <;> decide
  · intro p; cases p <;> decide

/-- Sending, and receiving, the latches in agreement. -/
theorem witness_TxStartIsRefused :
    ((after [.txStart .sec] State.reset).bit (frmStat .sec) bTxBusy = true
        ∧ latchesAgree (after [.txStart .sec] State.reset))
      ∧ 0 < (nearlyF2.link .pri).rxCnt ∧ latchesAgree nearlyF2 := by decide

theorem witness_TxStartBuildsFrame :
    State.reset.cfg.wf = true ∧ State.reset.bit (frmStat .pri) bTxBusy = false ∧ (State.reset.link .pri).rxCnt = 0 := by
  decide

/-- The last field of a layout. -/
theorem witness_OutgoingFrameShape :
    State.reset.cfg.txLayout.get .pri = refTxPri.take 11 ++ ⟨.ver, .w32, 0x6E, false, 0, 0, .app⟩ :: [] := by decide

/-- Nothing sent; the first byte of a frame; the last one handed over; past the end. -/
theorem witness_TxByteHandsOverTheNextByte :
    let s := after [.txStart .pri] State.reset
    let u := after (repeatOp ((s.link .pri).txLen - 1) (.txByte .pri)) s
    State.reset.bit (frmStat .pri) bTxBusy = false
      ∧ s.bit (frmStat .pri) bTxBusy = true
      ∧ (u.bit (frmStat .pri) bTxBusy = true ∧ (u.link .pri).txIdx + 1 = (u.link .pri).txLen)
      ∧ ((holding [(frmStat .pri, 2)]).bit (frmStat .pri) bTxBusy = true
        ∧ ((holding [(frmStat .pri, 2)]).link .pri).txLen ≤ ((holding [(frmStat .pri, 2)]).link .pri).txIdx) := by
  decide +kernel

theorem witness_TransmissionSendsTheFrame :
    State.reset.cfg.wf = true ∧ State.reset.bit (frmStat .sec) bTxBusy = false ∧ (State.reset.link .sec).rxCnt = 0 := by
  decide

/-- Sending; skipping; waiting for each of the two addresses and for neither. -/
theorem witness_RxByteBetweenFrames :
    (after [.txStart .pri] State.reset).bit (frmStat .pri) bTxBusy = true
      ∧ ((after [.rxByte .pri 0x05] State.reset).link .pri).rxCnt = 0
      ∧ ((after [.rxByte .pri 0x05] State.reset).link .pri).rxSkip = true
      ∧ State.reset.bit (frmStat .pri) bTxBusy = false ∧ (State.reset.link .pri).rxCnt = 0
      ∧ (State.reset.link .pri).rxSkip = false
      ∧ (0x01 : Byte) = State.reset.cfg.addrOwn ∧ (0x00 : Byte) = State.reset.cfg.addrBcast := by decide

/-- The first byte behind the address, and the last but one of the frame. -/
theorem witness_RxByteInsideFrame :
    let s := after (rxFrame .pri (f2.take 1)) State.reset
    let u := after (rxFrame .pri (f2.take 5)) State.reset
    (s.bit (frmStat .pri) bTxBusy = false ∧ 0 < (s.link .pri).rxCnt
        ∧ (s.link .pri).rxCnt + 1 < (s.link .pri).rxExp ∧ (s.link .pri).rxExp ≤ bufMax)
      ∧ (u.bit (frmStat .pri) bTxBusy = false ∧ 0 < (u.link .pri).rxCnt
        ∧ (u.link .pri).rxCnt + 2 = (u.link .pri).rxExp ∧ (u.link .pri).rxExp ≤ bufMax) := by decide

/-- A frame about to be complete, with none pending and with one pending. -/
theorem witness_RxByteCompletesFrame :
    let s := nearlyF2
    let u := after (rxFrame .pri (f2.take 6)) pendingF2
    (s.bit (frmStat .pri) bTxBusy = false ∧ 0 < (s.link .pri).rxCnt
        ∧ (s.link .pri).rxCnt + 1 = (s.link .pri).rxExp ∧ (s.link .pri).rxExp ≤ bufMax
        ∧ s.bit (frmStat .pri) bRxPend = false)
      ∧ (u.bit (frmStat .pri) bTxBusy = false ∧ 0 < (u.link .pri).rxCnt
        ∧ (u.link .pri).rxCnt + 1 = (u.link .pri).rxExp ∧ (u.link .pri).rxExp ≤ bufMax
        ∧ u.bit (frmStat .pri) bRxPend = true) := by decide +kernel

theorem witness_ReceiverResynchronises :
    nearlyF2.cfg.wf = true ∧ nearlyF2.bit (frmStat .pri) bTxBusy = false
      ∧ nearlyF2.bit (frmStat .pri) bRxPend = false ∧ validFrame nearlyF2.cfg .pri true f2 :=
  ⟨by decide, by decide, by decide, by decide, by decide, by decide +kernel⟩

theorem witness_LinksAreIndependent :
    exec (.rxByte .pri 0x01) State.reset = .next (after [.rxByte .pri 0x01] State.reset)
      ∧ latchesAgree State.reset
      ∧ State.reset.cfg = (holding [(tAmb, 1)]).cfg ∧ State.reset.epoch = (holding [(tAmb, 1)]).epoch
      ∧ State.reset.link .pri = (holding [(tAmb, 1)]).link .pri
      ∧ State.reset.rd (frmStat .pri) = (holding [(tAmb, 1)]).rd (frmStat .pri) :=
  ⟨rfl, by decide, rfl, rfl, rfl, by decide⟩

/-- Nothing pending, and a frame pending. -/
theorem witness_RxDrainCreditsThePeer :
    State.reset.bit (frmStat .pri) bRxPend = false ∧ pendingF2.bit (frmStat .pri) bRxPend = true := by decide +kernel

/-- The first field of F2, at a word that no later entry names; and a 32-bit entry. -/
theorem witness_RxDrainStoresFields :
    (pendingF2.cfg.wf = true ∧ pendingF2.bit (frmStat .pri) bRxPend = true ∧ (pendingF2.link .pri).rxcBc = true
        ∧ pendingF2.cfg.rxbLayout.get .pri = [] ++ ⟨.status, .w16, 0x80, false, 0, 0, .boot⟩ :: refRxbPri.drop 1
        ∧ (0x80 : Addr) ∉ [liveCnt .pri, comStat, frmStat .pri, fltLat]
        ∧ (0x80 : Addr) ∉ (refRxbPri.drop 1).flatMap Entry.words)
      ∧ State.reset.cfg.rxLayout.get .sec = refRxSec.take 11 ++ ⟨.ver, .w32, 0xD0, false, 0, 0, .app⟩ :: []
      ∧ (0xD1 : Addr) ∉ [liveCnt .sec, comStat, frmStat .sec, fltLat] := by decide +kernel

theorem witness_RxDrainFlagsVersionChanges :
    pendingF2.bit (frmStat .pri) bRxPend = true
      ∧ comStat ∉ (pendingF2.cfg.rxbLayout.get .pri).flatMap Entry.words
      ∧ comStat ∉ (pendingF2.cfg.rxLayout.get .pri).flatMap Entry.words := by decide +kernel

/-- A field that is not CAL, an unsigned CAL and a signed CAL with the widest range. -/
theorem witness_CalibrationIsClamped :
    (⟨.meas, .w16, 0x07, false, 0, 0, .boot⟩ : Entry).kind ≠ .cal
      ∧ (⟨.cal, .w16, 0x88, false, 0, 65535, .boot⟩ : Entry).rangeOk = true
      ∧ (⟨.cal, .w16, 0x89, true, -32768, 32767, .boot⟩ : Entry).rangeOk = true := by decide

theorem witness_CursorsStayInRange :
    (cursorsInRange (presented 0x41000001).pri ∧ cursorsInRange (presented 0x41000001).sec)
      ∧ step (presented 0x41000001) = .next (stepped (presented 0x41000001)) := ⟨by decide, rfl⟩

theorem witness_OnlyWrittenBytesAreRead :
    stepConforms (presented 0x41000001)
      ∧ (∀ p, cursorsInRange ((presented 0x41000001).link p) ∧ readsWrittenBytes (presented 0x41000001) p)
      ∧ step (presented 0x41000001) = .next (stepped (presented 0x41000001)) := by
  refine ⟨stepConforms_of (i := .rxByte .pri 1) rfl (by decide) (by decide) rfl, ?_, rfl⟩
  intro p; cases p <;> decide

theorem witness_ResetMeetsTheInvariants : refConfig.wf = true := by decide

end Sys2Proof.Machine.Tests
end

/-! The operations as total functions of the state that never write the configuration (spec/00_scope.md
R8, R9). -/

namespace Sys2Proof.Machine

/-- REG_RD and TX_BYTE are the only operations that return a value (R110). -/
theorem regRd_or_txByte_of_resultOf_ne_none {i : Instr} {s : State} (h : resultOf i s ≠ .none) :
    (∃ a, i = .regRd a) ∨ ∃ p, i = .txByte p := by
  cases i with
  | regRd a => exact .inl ⟨a, rfl⟩
  | txByte p => exact .inr ⟨p, rfl⟩
  | _ => exact absurd rfl h

/-- An operation that ends with a next state leaves the configuration and the words still waiting at the
port as they were (R9). -/
theorem exec_next_cfg_port {i : Instr} {s t : State} (h : exec i s = .next t) :
    t.cfg = s.cfg ∧ t.port = s.port := by
  obtain ⟨-, rfl⟩ := exec_next h
  exact effect_cfg_port i s

/-- Settles O7: a legal operation ends with its effect and its result, whatever the state. -/
theorem everyLegalOperationCompletes : Obligations.EveryLegalOperationCompletes := by
  intro i s hi
  have hexec : exec i s = .next ((effect i s).withResult (resultOf i s)) := exec_of_wf i s hi
  obtain ⟨hcfg, hport⟩ := exec_next_cfg_port hexec
  exact ⟨_, hexec, hcfg, hport, regRd_or_txByte_of_resultOf_ne_none⟩

/-- Settles O8: an idle step changes nothing and has no word to take; any other step takes the first word
and performs its operation, which writes neither the configuration nor the port. -/
theorem configurationIsNeverWritten : Obligations.ConfigurationIsNeverWritten := by
  intro s t hstep
  obtain ⟨-, ⟨hidle, rfl⟩ | ⟨w, rest, i, hport, -, -, hexec⟩⟩ := step_next hstep
  · exact ⟨rfl, by rw [hidle, List.tail_nil]⟩
  · obtain ⟨hcfg, hrest⟩ := exec_next_cfg_port hexec
    exact ⟨hcfg, by rw [hrest, hport, withPort_port, List.tail_cons]⟩

end Sys2Proof.Machine

/-! The operations that touch only the RTE, as runs of word writes (spec/00_scope.md R15): what one write keeps, each
of them keeps. -/

namespace Sys2Proof.Machine

/-- `t` is `s` after some writes of RTE words, one after another. -/
def Writes : State → State → Prop := Relation.ReflTransGen fun s t => ∃ a v, t = s.wr a v

namespace Writes

theorem refl (s : State) : Writes s s := Relation.ReflTransGen.refl

theorem trans {s t u : State} (h : Writes s t) (k : Writes t u) : Writes s u := Relation.ReflTransGen.trans h k

theorem wr (s : State) (a : Addr) (v : Word) : Writes s (s.wr a v) := Relation.ReflTransGen.single ⟨a, v, rfl⟩

theorem ite {s t u : State} {c : Prop} [Decidable c] (h : Writes s t) (k : Writes s u) :
    Writes s (if c then t else u) := by split <;> assumption

theorem foldl {α : Type} {f : State → α → State} (hf : ∀ s x, Writes s (f s x)) (l : List α) (s : State) :
    Writes s (l.foldl f s) := by
  induction l generalizing s with
  | nil => exact refl s
  | cons x l ih => exact (hf s x).trans (ih _)

/-- What every write of a word keeps, a run of writes keeps. -/
theorem keeps {s t : State} (h : Writes s t) {Inv : State → Prop} (hwr : ∀ u a v, Inv u → Inv (u.wr a v))
    (hs : Inv s) : Inv t := by
  induction h with
  | refl => exact hs
  | tail _ hw ih =>
    obtain ⟨a, v, rfl⟩ := hw
    exact hwr _ a v ih

/-- Writes of words leave the hidden state of the links. -/
theorem link {s t : State} (h : Writes s t) (p : Peer) : t.link p = s.link p :=
  h.keeps (Inv := fun u => u.link p = s.link p) (fun u a v hu => (State.wr_link u a v p).trans hu) rfl

/-- Writes of words keep the canonical form (R21). -/
theorem memory_wf {s t : State} (h : Writes s t) (hs : Memory.wf s = true) : Memory.wf t = true :=
  h.keeps (Inv := fun u => Memory.wf u = true) (fun _ a v => memory_wf_wr a v) hs

end Writes

theorem latchUpdate_writes (s : State) : Writes s (latchUpdate s) := Writes.wr ..

theorem reportSilent_writes (p : Peer) (s : State) : Writes s (reportSilent p s) := by
  unfold reportSilent
  exact ((Writes.wr ..).trans (Writes.wr ..)).trans (Writes.ite (Writes.wr ..) (Writes.refl _))

theorem clearSilent_writes (p : Peer) (s : State) : Writes s (clearSilent p s) := by
  unfold clearSilent
  exact ((Writes.wr ..).trans (Writes.wr ..)).trans (Writes.ite (Writes.wr ..) (Writes.refl _))

theorem storeEntry_writes (s : State) (e : Entry) (v : Nat) : Writes s (storeEntry s e v) := by
  unfold storeEntry
  split
  · exact (Writes.wr ..).trans (Writes.wr ..)
  · exact Writes.wr ..

theorem noteVersion_writes (p : Peer) (e : Entry) (v : Nat) (s : State) : Writes s (noteVersion p e v s) := by
  unfold noteVersion
  split
  · exact Writes.ite (Writes.wr ..) (Writes.refl _)
  · exact Writes.refl _

theorem drainFields_writes (p : Peer) (l : Layout) (cur : Nat) (s : State) : Writes s (drainFields p cur l s) := by
  induction l generalizing cur s with
  | nil => exact Writes.refl s
  | cons e l ih => exact ((noteVersion_writes ..).trans (storeEntry_writes ..)).trans (ih _ _)

theorem drainFinish_writes (p : Peer) (s : State) : Writes s (drainFinish p s) :=
  (((Writes.wr ..).trans (clearSilent_writes ..)).trans (Writes.wr ..)).trans (latchUpdate_writes _)

theorem countDown_writes (p : Peer) (s : State) : Writes s (countDown p s) :=
  Writes.ite (Writes.refl _) (Writes.wr ..)

theorem liveStep_writes (p : Peer) (s : State) : Writes s (liveStep p s) :=
  Writes.ite ((countDown_writes p s).trans (reportSilent_writes ..)) (countDown_writes p s)

theorem debounce_writes (g : Sig) (s : State) : Writes s (debounce g s) := by
  unfold debounce
  exact Writes.ite (Writes.ite ((Writes.wr ..).trans (Writes.wr ..)) (Writes.wr ..))
    (Writes.ite (Writes.wr ..) (Writes.refl _))

theorem seqInitArm_writes (s : State) : Writes s (seqInitArm s) := by
  unfold seqInitArm
  exact (Writes.wr ..).trans (Writes.ite ((Writes.wr ..).trans (Writes.wr ..)) (Writes.wr ..))

theorem seqRearm_writes (s : State) : Writes s (seqRearm s) :=
  Writes.ite ((Writes.wr ..).trans (Writes.wr ..)) (Writes.refl _)

theorem seqAutoClear_writes (s : State) : Writes s (seqAutoClear s) :=
  Writes.ite (((Writes.wr ..).trans (Writes.wr ..)).trans (Writes.wr ..)) (Writes.refl _)

theorem seqIdleArm_writes (ok : Bool) (s : State) : Writes s (seqIdleArm ok s) := by
  unfold seqIdleArm
  exact ((seqRearm_writes s).trans (seqAutoClear_writes _)).trans
    (Writes.ite ((Writes.wr ..).trans (Writes.wr ..)) (Writes.refl _))

theorem seqOnArm_writes (ok : Bool) (s : State) : Writes s (seqOnArm ok s) := by
  unfold seqOnArm
  exact Writes.ite ((Writes.wr ..).trans (Writes.ite (Writes.wr ..) (Writes.refl _)))
    ((Writes.wr ..).trans (Writes.wr ..))

theorem seqOffArm_writes (s : State) : Writes s (seqOffArm s) :=
  ((Writes.wr ..).trans (Writes.wr ..)).trans (Writes.wr ..)

theorem seqArm_writes (s : State) : Writes s (seqArm s) :=
  Writes.ite (seqInitArm_writes s) (Writes.ite (seqIdleArm_writes _ s) (Writes.ite (seqOnArm_writes _ s)
    (Writes.ite (seqOffArm_writes s) (Writes.wr ..))))

theorem arbitrateFan_writes (tgt : Nat) (s : State) (i : Nat) : Writes s (arbitrateFan tgt s i) := by
  unfold arbitrateFan
  exact ((Writes.ite (Writes.refl _) (Writes.wr ..)).trans (Writes.wr ..)).trans (Writes.wr ..)

theorem fanTick_writes (s : State) : Writes s (fanTick s) :=
  ((Writes.wr ..).trans (Writes.foldl (arbitrateFan_writes _) _ _)).trans
    (Writes.foldl (fun _ _ => Writes.wr ..) _ _)

theorem fanstatFan_writes (s : State) (i : Nat) : Writes s (fanstatFan s i) := by
  have counters : ∀ a b c d e : Word, Writes s (((((s.wr (fanAddr i .speed) a).wr (fanAddr i .pulse) b).wr
      (fanAddr i .warnCnt) c).wr (fanAddr i .failCnt) d).wr (fanAddr i .okCnt) e) := fun _ _ _ _ _ =>
    ((((Writes.wr ..).trans (Writes.wr ..)).trans (Writes.wr ..)).trans (Writes.wr ..)).trans (Writes.wr ..)
  unfold fanstatFan
  exact Writes.ite ((counters ..).trans (Writes.wr ..)) (counters ..)

/-- What an operation does to the state: RESET replaces the block's state, the framer's operations work on one
link, and every other operation is a run of word writes (R20, R150). -/
theorem effect_cases (i : Instr) (s : State) : i = .reset ∨ Writes s (effect i s)
    ∨ ∃ p, i = .rxIdle p ∨ i = .txStart p ∨ i = .txByte p ∨ ∃ b, i = .rxByte p b := by
  cases i with
  | reset => exact .inl rfl
  | regRd a => exact .inr (.inl (Writes.refl s))
  | regWr a d => exact .inr (.inl ((Writes.wr ..).trans (latchUpdate_writes _)))
  | gpioTick =>
    exact .inr (.inl ((((debounce_writes ..).trans (debounce_writes ..)).trans (debounce_writes ..)).trans
      (latchUpdate_writes _)))
  | seqTick => exact .inr (.inl ((seqArm_writes s).trans (latchUpdate_writes _)))
  | fanTick => exact .inr (.inl ((fanTick_writes s).trans (latchUpdate_writes _)))
  | tachPulse i => exact .inr (.inl ((Writes.wr ..).trans (latchUpdate_writes _)))
  | fanstatTick => exact .inr (.inl ((Writes.foldl fanstatFan_writes _ s).trans (latchUpdate_writes _)))
  | liveTick =>
    exact .inr (.inl (((liveStep_writes ..).trans (liveStep_writes ..)).trans (latchUpdate_writes _)))
  | rxDrain p =>
    exact .inr (.inl (Writes.ite ((drainFields_writes ..).trans (drainFinish_writes ..)) (Writes.refl s)))
  | rxByte p b => exact .inr (.inr ⟨p, by simp⟩)
  | rxIdle p => exact .inr (.inr ⟨p, by simp⟩)
  | txStart p => exact .inr (.inr ⟨p, by simp⟩)
  | txByte p => exact .inr (.inr ⟨p, by simp⟩)

end Sys2Proof.Machine

/-! The canonical form of the memories (spec/10_state.md R21, R66). -/

namespace Sys2Proof.Machine

/-- The three buffers of a link, one by one. -/
theorem bufWf_buf {l : Link} (ha : bufWf l.rxa = true) (hc : bufWf l.rxc = true) (ht : bufWf l.txbuf = true)
    (b : BufName) : bufWf (l.buf b) = true := by cases b <;> assumption

/-- A state that is one of two in canonical form is in canonical form. -/
theorem memory_wf_ite {s t : State} {c : Prop} [Decidable c] (hs : Memory.wf s = true) (ht : Memory.wf t = true) :
    Memory.wf (if c then s else t) = true := by split <;> assumption

/-- A link update that leaves the three buffers keeps the canonical form. -/
theorem memory_wf_setLink_of_buf {s : State} (p : Peer) {l : Link} (hl : l.buf = (s.link p).buf)
    (h : Memory.wf s = true) : Memory.wf (s.setLink p l) = true :=
  memory_wf_setLink p l (fun b => hl ▸ memory_wf_buf p b h) h

/-- A byte stored in RXA keeps the canonical form, whatever happens to the cursors and flags of the link. -/
theorem memory_wf_storeRxa {s : State} (p : Peer) (k : Nat) (byte : Byte) {l : Link}
    (ha : l.rxa = bufWrite (s.link p).rxa k byte) (hc : l.rxc = (s.link p).rxc) (ht : l.txbuf = (s.link p).txbuf)
    (h : Memory.wf s = true) : Memory.wf (s.setLink p l) = true :=
  memory_wf_setLink p l (bufWf_buf (ha ▸ bufWf_bufWrite k byte (memory_wf_buf p .rxa h))
    (hc ▸ memory_wf_buf p .rxc h) (ht ▸ memory_wf_buf p .txbuf h)) h

theorem memory_wf_rxToIdle {s : State} (p : Peer) (h : Memory.wf s = true) : Memory.wf (rxToIdle p s) = true :=
  memory_wf_setLink_of_buf p rfl h

theorem memory_wf_rxHandOver {s : State} (p : Peer) (h : Memory.wf s = true) :
    Memory.wf (rxHandOver p s) = true :=
  memory_wf_wrBit _ _ _ (memory_wf_setLink p _ (bufWf_buf (memory_wf_buf p .rxa h)
    (bufWf_bufWriteBytes _ 0 (memory_wf_buf p .rxc h)) (memory_wf_buf p .txbuf h)) h)

theorem memory_wf_rxComplete {s : State} (p : Peer) (h : Memory.wf s = true) :
    Memory.wf (rxComplete p s) = true :=
  memory_wf_ite (memory_wf_ite (memory_wf_wrBit _ _ _ h) (memory_wf_rxHandOver p h)) (memory_wf_wrBit _ _ _ h)

theorem memory_wf_rxFirst {s : State} (p : Peer) (byte : Byte) (h : Memory.wf s = true) :
    Memory.wf (rxFirst p byte s) = true := by
  have begun : ∀ bc, Memory.wf (rxBegin p byte bc s) = true := fun _ => memory_wf_storeRxa p 0 byte rfl rfl rfl h
  exact memory_wf_ite (begun false) (memory_wf_ite (begun true)
    (memory_wf_setLink_of_buf p (by rw [frmSet_link]; rfl) (memory_wf_wrBit _ _ _ h)))

theorem memory_wf_rxNext {s : State} (p : Peer) (byte : Byte) (h : Memory.wf s = true) :
    Memory.wf (rxNext p byte s) = true := by
  have stored := memory_wf_storeRxa (l := { s.link p with
    rxa := bufWrite (s.link p).rxa (s.link p).rxCnt byte, rxCnt := (s.link p).rxCnt + 1 }) p _ byte rfl rfl rfl h
  exact memory_wf_ite (memory_wf_rxToIdle p (memory_wf_rxComplete p stored)) stored

theorem memory_wf_rxBoundary {s : State} (p : Peer) (h : Memory.wf s = true) :
    Memory.wf (rxBoundary p s) = true :=
  memory_wf_setLink_of_buf p rfl (memory_wf_ite (memory_wf_rxToIdle p (memory_wf_wrBit _ _ _ h)) h)

theorem memory_wf_txBegin {s : State} (p : Peer) (h : Memory.wf s = true) : Memory.wf (txBegin p s) = true :=
  memory_wf_wrBit _ _ _ (memory_wf_setLink p _ (bufWf_buf (memory_wf_buf p .rxa h) (memory_wf_buf p .rxc h)
    (bufWf_bufWriteBytes _ 0 (memory_wf_buf p .txbuf h))) h)

theorem memory_wf_txAdvance {s : State} (p : Peer) (h : Memory.wf s = true) :
    Memory.wf (txAdvance p s) = true := by
  have moved : Memory.wf (s.setLink p { s.link p with txIdx := (s.link p).txIdx + 1 }) = true :=
    memory_wf_setLink_of_buf p rfl h
  exact memory_wf_ite (memory_wf_wrBit _ _ _ moved) moved

/-- RESET leaves the memories in canonical form (R75). -/
theorem memory_wf_resetBlock (s : State) : Memory.wf (resetBlock s) = true :=
  (memory_wf_iff _).mpr ⟨rteWf_rteReset s.cfg, fun p b => by cases p <;> cases b <;> rfl⟩

/-- Every operation keeps the memories in canonical form. -/
theorem memory_wf_effect (i : Instr) {s : State} (h : Memory.wf s = true) : Memory.wf (effect i s) = true := by
  obtain rfl | hw | ⟨p, rfl | rfl | rfl | ⟨b, rfl⟩⟩ := effect_cases i s
  · exact memory_wf_latchUpdate (memory_wf_resetBlock s)
  · exact hw.memory_wf h
  · exact memory_wf_latchUpdate (memory_wf_rxBoundary p h)
  · exact memory_wf_latchUpdate (memory_wf_ite (memory_wf_wrBit _ _ _ h) (memory_wf_txBegin p h))
  · exact memory_wf_ite (memory_wf_latchUpdate
      (memory_wf_ite (memory_wf_wrBit _ _ _ h) (memory_wf_txAdvance p h))) h
  · exact memory_wf_ite h (memory_wf_latchUpdate
      (memory_wf_ite (memory_wf_rxFirst p b h) (memory_wf_rxNext p b h)))

/-- Settles O14: RTE operations are runs of word writes, and the framer's stores keep each buffer's form. -/
theorem memoryStaysCanonical : Obligations.MemoryStaysCanonical := by
  intro s t h hstep
  refine step_keeps (Inv := fun u => Memory.wf u = true) (fun _ _ hu => hu) (fun i u v _ hu hexec => ?_) h hstep
  obtain ⟨-, rfl⟩ := exec_next hexec
  exact memory_wf_effect i hu

end Sys2Proof.Machine

/-! The cursors of the links (spec/10_state.md R70, R72). -/

namespace Sys2Proof.Machine

/-- The cursors of a link at reset are in range. -/
theorem cursorsInRange_reset : cursorsInRange Link.reset := by decide

/-- A frame boundary keeps the ranges: the receiver waits again or stays as it was (R162). -/
theorem rxBoundary_cursorsInRange {s : State} {p : Peer} (h : cursorsInRange (s.link p)) :
    cursorsInRange ((rxBoundary p s).link p) := by
  obtain ⟨hcnt, hrest⟩ := h
  unfold rxBoundary
  simp only [State.link_setLink_self]
  split
  · simp only [rxToIdle, State.link_setLink_self, frmSet_link]
    exact ⟨.inl rfl, hrest⟩
  · exact ⟨hcnt, hrest⟩

/-- A frame that is begun fits its buffer, and none of it is sent yet (R72, R190). -/
theorem txBegin_cursorsInRange {s : State} {p : Peer} (hc : s.cfg.wf = true) (h : cursorsInRange (s.link p)) :
    cursorsInRange ((txBegin p s).link p) := by
  obtain ⟨hcnt, hexp, -, -⟩ := h
  have hlen : (outgoingFrame s p).length ≤ bufMax := (outgoingFrame_length s p).trans_le (flen_tx_le hc p)
  simp only [txBegin, frmSet_link, State.link_setLink_self]
  exact ⟨hcnt, hexp, hlen, Nat.zero_le _⟩

/-- The transmit cursor moves only while it is below the length (R168). -/
theorem txAdvance_cursorsInRange {s : State} {p : Peer} (hlt : (s.link p).txIdx < (s.link p).txLen)
    (h : cursorsInRange (s.link p)) : cursorsInRange ((txAdvance p s).link p) := by
  obtain ⟨hcnt, hexp, hlen, -⟩ := h
  rw [txAdvance_link]
  exact ⟨hcnt, hexp, hlen, hlt⟩

/-- The framer's operations keep the cursors of their own link in range. -/
theorem effect_cursorsInRange_own {i : Instr} {s : State} {p : Peer} (hc : s.cfg.wf = true)
    (hi : i = .rxIdle p ∨ i = .txStart p ∨ i = .txByte p ∨ ∃ b, i = .rxByte p b)
    (h : cursorsInRange (s.link p)) : cursorsInRange ((effect i s).link p) := by
  obtain rfl | rfl | rfl | ⟨b, rfl⟩ := hi
  · simp only [effect, latchUpdate_link]
    exact rxBoundary_cursorsInRange h
  · simp only [effect, latchUpdate_link]
    split
    · rw [frmSet_link]; exact h
    · exact txBegin_cursorsInRange hc h
  · simp only [effect]
    split
    · rw [latchUpdate_link]
      split
      · rw [frmClear_link]; exact h
      · exact txAdvance_cursorsInRange (by omega) h
    · exact h
  · simp only [effect]
    split
    · exact h
    · rw [latchUpdate_link]; exact rxAccept_cursorsInRange hc h

/-- Every operation keeps the cursors of both links in range. -/
theorem effect_cursorsInRange (i : Instr) {s : State} (hc : s.cfg.wf = true) (h : ∀ p, cursorsInRange (s.link p))
    (q : Peer) : cursorsInRange ((effect i s).link q) := by
  obtain rfl | hw | ⟨p, hi⟩ := effect_cases i s
  · cases q <;> exact cursorsInRange_reset
  · rw [hw.link]; exact h q
  · by_cases hq : q = p
    · subst hq; exact effect_cursorsInRange_own hc hi (h q)
    · rw [(effect_linkTouch s hi).link q hq]; exact h q

/-- Settles O57: a framer's operation moves the cursors of its own link, inside their ranges; RESET zeroes them. -/
theorem cursorsStayInRange : Obligations.CursorsStayInRange := by
  intro s t ⟨hpri, hsec⟩ hstep
  have hs : ∀ p, cursorsInRange (s.link p) := by rintro ⟨⟩ <;> assumption
  have ht : ∀ p, cursorsInRange (t.link p) := by
    refine step_keeps (Inv := fun u => ∀ p, cursorsInRange (u.link p))
      (fun u ws hu p => by rw [withPort_link]; exact hu p) (fun i u v hc hu hexec p => ?_) hs hstep
    obtain ⟨-, rfl⟩ := exec_next hexec
    rw [withResult_link]
    exact effect_cursorsInRange i hc hu p
  exact ⟨ht .pri, ht .sec⟩

end Sys2Proof.Machine

/-! The words and the buffers after power-on and after RESET (spec/10_state.md R71, R75). -/

namespace Sys2Proof.Machine

/-- The words of the reset RTE by their names (R75). -/
theorem rteRead_rteReset_named (cfg : Config) (a : Addr) :
    rteRead (rteReset cfg) a = if a = liveCnt .pri then cfg.liveReset.pri
      else if a = liveCnt .sec then cfg.liveReset.sec else 0 := by
  rw [rteRead_rteReset]
  show (if a = 0x62 then cfg.liveReset.sec else if a = 0x61 then cfg.liveReset.pri else 0)
    = if a = 0x61 then cfg.liveReset.pri else if a = 0x62 then cfg.liveReset.sec else 0
  by_cases hpri : a = 0x61
  · subst hpri; rfl
  · rw [if_neg hpri, if_neg hpri]

/-- Every word but the two liveness counters is 0 after reset (R75). -/
theorem rteRead_rteReset_of_ne (cfg : Config) {a : Addr} (h : ∀ p, a ≠ liveCnt p) :
    rteRead (rteReset cfg) a = 0 := by
  rw [rteRead_rteReset_named, if_neg (h .pri), if_neg (h .sec)]

/-- After power-on every word but the two liveness counters is 0 (R75). -/
theorem rd_resetWith (cfg : Config) {a : Addr} (h : ∀ p, a ≠ liveCnt p) : (State.resetWith cfg).rd a = 0 :=
  rteRead_rteReset_of_ne cfg h

theorem rdNat_resetWith (cfg : Config) {a : Addr} (h : ∀ p, a ≠ liveCnt p) :
    (State.resetWith cfg).rdNat a = 0 := by
  rw [State.rdNat, rd_resetWith cfg h]; rfl

theorem bit_resetWith (cfg : Config) {a : Addr} (h : ∀ p, a ≠ liveCnt p) (n : Nat) :
    (State.resetWith cfg).bit a n = false := by
  rw [State.bit, rd_resetWith cfg h]; exact BitVec.getLsbD_zero

/-- After power-on each liveness counter holds its reset value (R75). -/
theorem rd_resetWith_liveCnt (cfg : Config) (p : Peer) :
    (State.resetWith cfg).rd (liveCnt p) = cfg.liveReset.get p := by
  have h := rteRead_rteReset_named cfg (liveCnt p)
  cases p <;> exact h

/-- Both links are at their reset state after power-on (R70, R72). -/
@[simp] theorem link_resetWith (cfg : Config) (p : Peer) : (State.resetWith cfg).link p = Link.reset := by
  cases p <;> rfl

/-- A link at reset lists no written byte (R71). -/
@[simp] theorem buf_reset (b : BufName) : Link.reset.buf b = [] := by cases b <;> rfl

/-- RESET leaves both links at their reset state (R140). -/
@[simp] theorem resetBlock_link (s : State) (p : Peer) : (resetBlock s).link p = Link.reset := by cases p <;> rfl

/-- RESET leaves every word but the two liveness counters 0 (R140). -/
theorem rd_resetBlock (s : State) {a : Addr} (h : ∀ p, a ≠ liveCnt p) : (resetBlock s).rd a = 0 :=
  rteRead_rteReset_of_ne s.cfg h

/-- After RESET every buffer byte is the free value of its cell and of this reset (R71, R322). -/
theorem bufByte_resetBlock (s : State) (b : BufName) (p : Peer) (k : Nat) :
    (resetBlock s).bufByte b p k = Config.freeBufferByte (s.epoch + 1) (cellNumber b p k) := by
  rw [State.bufByte, resetBlock_link, buf_reset]; rfl

/-- No two buffer cells have one number: the six buffers' numbers differ modulo 6. -/
theorem cellNumber_inj {b b' : BufName} {p p' : Peer} {k k' : Nat} (h : cellNumber b p k = cellNumber b' p' k') :
    b = b' ∧ p = p' ∧ k = k' := by
  cases b <;> cases b' <;> cases p <;> cases p' <;>
    simp only [cellNumber, Peer.index, reduceCtorEq, true_and, false_and] at h ⊢ <;> omega

/-- Settles O12: the reset words by their names, and both links at their reset state. -/
theorem powerOnState : Obligations.PowerOnState := by
  intro cfg
  refine ⟨rteRead_rteReset_named cfg, fun p => ?_, rfl⟩
  rw [link_resetWith]
  exact ⟨rfl, rfl, rfl, rfl, rfl, rfl, rfl⟩

/-- Settles O13: RESET empties every buffer's list of written bytes, and the cells are numbered apart. -/
theorem buffersAreFreeAfterReset : Obligations.BuffersAreFreeAfterReset := by
  refine ⟨fun s t hexec b p k => ?_, fun _ _ _ _ _ _ => cellNumber_inj⟩
  obtain ⟨-, rfl⟩ := exec_next hexec
  rw [withResult_bufByte, effect, latchUpdate_bufByte, bufByte_resetBlock]

/-- A word below 0x61 is no liveness counter. -/
theorem ne_liveCnt_of_lt {a : Addr} (h : a.toNat < 0x61) (p : Peer) : a ≠ liveCnt p := by
  rintro rfl
  cases p <;> exact absurd h (by decide)

/-- After power-on no raw fault is present and none is latched (R276). -/
theorem latchesAgree_resetWith (cfg : Config) : latchesAgree (State.resetWith cfg) := by
  intro k _
  rw [bit_resetWith cfg (ne_liveCnt_of_lt (by decide)), bit_resetWith cfg (ne_liveCnt_of_lt (by decide))]
  exact ⟨nofun, nofun⟩

/-- After power-on every counter is within its limit, the liveness counters at theirs (R311). -/
theorem countersInRange_resetWith {cfg : Config} (hc : cfg.wf = true) : countersInRange (State.resetWith cfg) := by
  obtain ⟨-, -, -, -, hdly⟩ := Config.wf_counts hc
  have zero : ∀ {a : Addr}, a.toNat < 0x61 → (State.resetWith cfg).rdNat a = 0 :=
    fun h => rdNat_resetWith cfg (ne_liveCnt_of_lt h)
  refine ⟨fun p => ?_, ?_, ?_, fun g => ?_, ?_⟩
  · rw [State.rdNat, rd_resetWith_liveCnt]; rfl
  · rw [zero (by decide)]; exact Nat.zero_le _
  · rw [zero (by decide)]; exact Nat.zero_le _
  · rw [zero (by cases g <;> decide), bit_resetWith cfg (ne_liveCnt_of_lt (by decide))]
    exact (hdly g).1
  · rw [zero (by decide)]; exact Nat.zero_le _

/-- After power-on no duty is driven (R54). -/
theorem dutiesInRange_resetWith {cfg : Config} (hc : cfg.wf = true) : dutiesInRange (State.resetWith cfg) := by
  intro i (hi : i < cfg.nfan)
  have hn := (Config.nfan_bounds hc).2
  rw [rdNat_resetWith cfg fun p => (ne_fanAddr (by omega) .duty (by cases p <;> decide)).symm]
  exact Nat.zero_le _

/-- After power-on no buffer byte is due to be read (R322). -/
theorem readsWrittenBytes_resetWith (cfg : Config) (p : Peer) : readsWrittenBytes (State.resetWith cfg) p := by
  have frm : ∀ n, (State.resetWith cfg).bit (frmStat p) n = false :=
    bit_resetWith cfg (frmStat_ne_liveCnt p)
  unfold readsWrittenBytes
  rw [link_resetWith, frm, frm]
  exact ⟨nofun, fun h => absurd rfl h, nofun, nofun⟩

/-- Settles O59: the invariants one by one, from the words and the links after power-on. -/
theorem resetMeetsTheInvariants : Obligations.ResetMeetsTheInvariants := by
  intro cfg hc
  have known : knownSeqState (State.resetWith cfg) := by
    unfold knownSeqState
    rw [rd_resetWith cfg (ne_liveCnt_of_lt (by decide))]; decide
  have enables : enablesOnlyInOn (State.resetWith cfg) := fun _ =>
    enableOutputs_eq_zero _ fun j _ => bit_resetWith cfg (ne_liveCnt_of_lt (by decide)) j
  have failure : failureBitsAgree (State.resetWith cfg) := fun p => by
    rw [bit_resetWith cfg comStat_ne_liveCnt, bit_resetWith cfg comStat_ne_liveCnt]
  exact ⟨memory_wf_resetWith cfg, latchesAgree_resetWith cfg, known, enables, dutiesInRange_resetWith hc,
    countersInRange_resetWith hc, failure, cursorsInRange_reset, cursorsInRange_reset,
    readsWrittenBytes_resetWith cfg, rfl, by decide⟩

end Sys2Proof.Machine

/-! The owners of the words an operation writes (spec/10_state.md R23, spec/40_rte_access.md R143). -/

namespace Sys2Proof.Machine

/-- Two words of different owners are at different addresses. -/
theorem ne_of_ownerOf {cfg : Config} {a b : Addr} {o : Owner} (hb : ownerOf cfg b = o) (ha : ownerOf cfg a ≠ o) :
    a ≠ b := by
  rintro rfl
  exact ha hb

/-- FLT_LAT is the latch's (R23). -/
theorem ownerOf_fltLat (cfg : Config) : ownerOf cfg fltLat = .latch := rfl

/-- The words at 0x10 to 0x17 are tmctrl's (R23). -/
theorem ownerOf_tmctrl (cfg : Config) {a : Addr} (ha : 0x10 ≤ a.toNat ∧ a.toNat ≤ 0x17) :
    ownerOf cfg a = .tmctrl := by
  have hne : a ≠ 0x18 := by rintro rfl; exact absurd ha (by decide)
  rw [ownerOf, if_neg hne, if_pos ha]

/-- FAN_TARGET is fanctrl's (R23). -/
theorem ownerOf_fanTarget (cfg : Config) : ownerOf cfg fanTarget = .fanctrl := rfl

/-- A write the environment is expected to make goes to a word of the environment, of the framer or of intcom
(R143). -/
theorem ownerOf_of_writeConforms {s : State} {b : Addr} {d : Word} (hn : s.cfg.nfan ≤ 4)
    (h : writeConforms s b d = true) :
    ownerOf s.cfg b = .env ∨ ownerOf s.cfg b = .framer ∨ ownerOf s.cfg b = .intcom := by
  obtain ⟨hcom, -, hfrm⟩ := ownerOf_com hn
  simp only [writeConforms, Bool.or_eq_true, Bool.and_eq_true, beq_iff_eq] at h
  obtain (henv | ⟨rfl | rfl, -⟩) | ⟨rfl, -⟩ := h
  · exact .inl henv
  · exact .inr (.inl (hfrm .pri))
  · exact .inr (.inl (hfrm .sec))
  · exact .inr (.inr hcom)

/-- FANSTAT_TICK leaves every word that is none of the six it writes in a fan's record (R231). -/
theorem fanstatTick_rd_ne (s : State) {a : Addr}
    (h : ∀ i, i < s.cfg.nfan → ∀ x : FanWord, x ≠ .ovr → x ≠ .duty → a ≠ fanAddr i x) :
    ((fans s.cfg).foldl fanstatFan s).rd a = s.rd a := by
  refine foldl_rd_ne (T := fun i a => ∃ x : FanWord, x ≠ .ovr ∧ x ≠ .duty ∧ a = fanAddr i x) ?_ s
    fun i hi ⟨x, hovr, hduty, ha⟩ => h i (mem_fans.1 hi) x hovr hduty ha
  intro u i b hb
  have word : ∀ x : FanWord, x ≠ .ovr → x ≠ .duty → b ≠ fanAddr i x :=
    fun x hovr hduty e => hb ⟨x, hovr, hduty, e⟩
  exact fanstatFan_rd_ne u i (word _ (by decide) (by decide)) (word _ (by decide) (by decide))
    (word _ (by decide) (by decide)) (word _ (by decide) (by decide)) (word _ (by decide) (by decide))
    (word _ (by decide) (by decide))

/-- GPIO_TICK, but for the latch rule, leaves every word that is not tmctrl's (R250, R252). -/
theorem debounced_rd_ne (s : State) {a : Addr} (h : ownerOf s.cfg a ≠ .tmctrl) :
    (debounce .bulk (debounce .swen (debounce .halt s))).rd a = s.rd a := by
  have db : a ≠ gpioDb := ne_of_ownerOf (ownerOf_tmctrl _ (by decide)) h
  have cnt : ∀ g, a ≠ gpioCnt g := fun g => ne_of_ownerOf (ownerOf_tmctrl _ (by cases g <;> decide)) h
  rw [debounce_rd_ne _ _ db (cnt _), debounce_rd_ne _ _ db (cnt _), debounce_rd_ne _ _ db (cnt _)]

/-- SEQ_TICK, but for the latch rule, leaves every word that is not tmctrl's (R250, R261). -/
theorem seqArm_rd_of_owner (s : State) {a : Addr} (h : ownerOf s.cfg a ≠ .tmctrl) : (seqArm s).rd a = s.rd a :=
  seqArm_rd_ne s (ne_of_ownerOf (ownerOf_tmctrl _ (by decide)) h) (ne_of_ownerOf (ownerOf_tmctrl _ (by decide)) h)
    (ne_of_ownerOf (ownerOf_tmctrl _ (by decide)) h) (ne_of_ownerOf (ownerOf_tmctrl _ (by decide)) h)

/-- FAN_TICK, but for the latch rule, leaves every word that is neither fanctrl's nor the environment's (R211). -/
theorem fanTick_rd_of_owner (s : State) (hn : s.cfg.nfan ≤ 4) {a : Addr} (hfan : ownerOf s.cfg a ≠ .fanctrl)
    (henv : ownerOf s.cfg a ≠ .env) : (fanTick s).rd a = s.rd a :=
  fanTick_rd_ne s (ne_of_ownerOf (ownerOf_fanTarget _) hfan) fun _ hi =>
    ⟨ne_of_ownerOf (ownerOf_fanAddr hn hi .ovr) henv, ne_of_ownerOf (ownerOf_fanAddr hn hi .stat) hfan,
      ne_of_ownerOf (ownerOf_fanAddr hn hi .duty) hfan⟩

/-- FANSTAT_TICK, but for the latch rule, leaves every word that is not fanctrl's (R231). -/
theorem fanstatTick_rd_of_owner (s : State) (hn : s.cfg.nfan ≤ 4) {a : Addr} (hfan : ownerOf s.cfg a ≠ .fanctrl) :
    ((fans s.cfg).foldl fanstatFan s).rd a = s.rd a :=
  fanstatTick_rd_ne s fun _ hi x hovr _ =>
    ne_of_ownerOf ((ownerOf_fanAddr hn hi x).trans (if_neg hovr)) hfan

/-- LIVE_TICK, but for the latch rule, leaves every word that is not intcom's (R195). -/
theorem liveTick_rd_of_owner (s : State) (hn : s.cfg.nfan ≤ 4) {a : Addr} (h : ownerOf s.cfg a ≠ .intcom) :
    (liveStep .sec (liveStep .pri s)).rd a = s.rd a := by
  obtain ⟨hcom, hcnt, -⟩ := ownerOf_com hn
  have com : a ≠ comStat := ne_of_ownerOf hcom h
  rw [liveStep_rd_ne _ _ (ne_of_ownerOf (hcnt _) h) com, liveStep_rd_ne _ _ (ne_of_ownerOf (hcnt _) h) com]

/-- RX_DRAIN under conforming layouts leaves the words of tmctrl and of fanctrl (R181, R335). -/
theorem rxDrain_rd_of_owner (s : State) (p : Peer) (hn : s.cfg.nfan ≤ 4) (hl : layoutsConform s.cfg = true)
    {a : Addr} (h : mayWrite (.rxDrain p) (ownerOf s.cfg a) = false) : (effect (.rxDrain p) s).rd a = s.rd a := by
  simp only [mayWrite, Bool.or_eq_false_iff, beq_eq_false_iff_ne] at h
  obtain ⟨⟨⟨hintcom, henv⟩, hframer⟩, hlatch⟩ := h
  obtain ⟨hcom, hcnt, hfrm⟩ := ownerOf_com hn
  simp only [effect]
  split
  · rw [drainFinish_rd_ne p _ (ne_of_ownerOf (hcnt p) hintcom) (ne_of_ownerOf hcom hintcom)
        (ne_of_ownerOf (hfrm p) hframer) (ne_of_ownerOf (ownerOf_fltLat _) hlatch),
      drainFields_rd_ne p _ _ s (ne_of_ownerOf hcom hintcom) fun hnamed => henv (ownerOf_named hl hnamed)]
  · rfl

/-- A conforming operation leaves every word of the owners it does not act for (R23, R143). -/
theorem effect_rd_of_owner (i : Instr) (s : State) {a : Addr} (hc : s.cfg.wf = true)
    (hl : layoutsConform s.cfg = true) (ho : opConforms s i = true) (hi : Instr.wf s.cfg i = true)
    (h : mayWrite i (ownerOf s.cfg a) = false) : (effect i s).rd a = s.rd a := by
  have hn := (Config.nfan_bounds hc).2
  obtain ⟨-, -, hfrm⟩ := ownerOf_com hn
  have latched : ownerOf s.cfg a ≠ .latch → ∀ u, u.rd a = s.rd a → (latchUpdate u).rd a = s.rd a :=
    fun hlatch u hu => (State.rd_latchUpdate_ne u (ne_of_ownerOf (ownerOf_fltLat _) hlatch)).trans hu
  have touched : ∀ p, LinkTouch p s (effect i s) → ownerOf s.cfg a ≠ .framer → ownerOf s.cfg a ≠ .latch →
      (effect i s).rd a = s.rd a := fun p ht hframer hlatch =>
    ht.rd a (ne_of_ownerOf (hfrm p) hframer) (ne_of_ownerOf (ownerOf_fltLat _) hlatch)
  cases i <;> simp only [mayWrite, Bool.or_eq_false_iff, beq_eq_false_iff_ne, reduceCtorEq] at h
  case regRd => rfl
  case regWr b d =>
    obtain ⟨⟨⟨henv, hframer⟩, hintcom⟩, hlatch⟩ := h
    have hab : a ≠ b := by
      rintro rfl
      obtain he | he | he := ownerOf_of_writeConforms hn ho
      · exact henv he
      · exact hframer he
      · exact hintcom he
    exact latched hlatch _ (State.rd_wr_ne s d hab)
  case gpioTick => exact latched h.2 _ (debounced_rd_ne s h.1)
  case seqTick => exact latched h.2 _ (seqArm_rd_of_owner s h.1)
  case fanTick =>
    obtain ⟨⟨hfan, henv⟩, hlatch⟩ := h
    exact latched hlatch _ (fanTick_rd_of_owner s hn hfan henv)
  case tachPulse k =>
    have hk : k.val < s.cfg.nfan := by simpa [Instr.wf] using hi
    exact latched h.2 _ (State.rd_wr_ne s _ (ne_of_ownerOf (ownerOf_fanAddr hn hk .pulse) h.1))
  case fanstatTick => exact latched h.2 _ (fanstatTick_rd_of_owner s hn h.1)
  case liveTick => exact latched h.2 _ (liveTick_rd_of_owner s hn h.1)
  case rxByte p b => exact touched p (effect_linkTouch s (by simp)) h.1 h.2
  case rxIdle p => exact touched p (effect_linkTouch s (by simp)) h.1 h.2
  case rxDrain p => exact rxDrain_rd_of_owner s p hn hl (by simpa [mayWrite] using h)
  case txStart p => exact touched p (effect_linkTouch s (by simp)) h.1 h.2
  case txByte p => exact touched p (effect_linkTouch s (by simp)) h.1 h.2

/-- Settles O26: a word of any other owner reads as before. -/
theorem onlyOwnersWrite : Obligations.OnlyOwnersWrite := by
  intro i s t a hc hl ho hexec hne
  obtain ⟨hi, rfl⟩ := exec_next hexec
  by_contra hmay
  exact hne (effect_rd_of_owner i s hc hl ho hi (Bool.eq_false_iff.mpr hmay))

end Sys2Proof.Machine

/-! The duties (spec/10_state.md R54). -/

namespace Sys2Proof.Machine

/-- Every duty FAN_TICK can write is at most DUTY_FULL (WF8, WF9, R222, R223). -/
theorem nextDuty_le {s : State} (hc : s.cfg.wf = true) (anyOvr : Bool) (duty : Nat) (err : Int) :
    (nextDuty s anyOvr duty err).toNat ≤ s.cfg.dutyFull.toNat := by
  obtain ⟨-, -, -, -, hmax, hboot, hacloss⟩ := Config.wf_orders hc
  unfold nextDuty
  split
  · exact hboot
  · split
    · exact hacloss
    · have hslew : (slewDuty s.cfg anyOvr duty err).toNat ≤ s.cfg.dutyMax.toNat := by unfold slewDuty; omega
      exact (Nat.mod_le _ _).trans (hslew.trans hmax)

/-- The slew of every fan leaves every duty in range, whatever it was (R222, R223). -/
theorem slewed_duty_le {s : State} (hc : s.cfg.wf = true) (anyOvr : Bool) (err : Nat → Int) {i : Nat}
    (hi : i < s.cfg.nfan) :
    ((fans s.cfg).foldl (slewFan anyOvr err) s).rdNat (fanAddr i .duty) ≤ s.cfg.dutyFull.toNat := by
  have hn := (Config.nfan_bounds hc).2
  obtain ⟨u, hu, key⟩ := foldl_at (T := fun j a => a = fanAddr j .duty) (slewFan_rteOnly anyOvr err)
    (fun v j a h => slewFan_rd_ne _ _ v j h) (fans_nodup s.cfg) (mem_fans.2 hi) s
  have others : ∀ j ∈ fans s.cfg, j ≠ i → fanAddr i .duty ≠ fanAddr j .duty := fun j hj hji e =>
    hji ((fanAddr_inj (by omega) ((mem_fans.1 hj).trans_le hn)).1 e).1.symm
  unfold State.rdNat
  rw [(key _ others).2, slewFan, State.rd_wr_self, ← hu.cfg]
  exact nextDuty_le (hu.cfg ▸ hc) ..

/-- FAN_TICK leaves every duty in range (R211, R222). -/
theorem fanTick_duty_le {s : State} (hc : s.cfg.wf = true) {i : Nat} (hi : i < s.cfg.nfan) :
    (fanTick s).rdNat (fanAddr i .duty) ≤ s.cfg.dutyFull.toNat := by
  have hcfg : ((fans s.cfg).foldl (arbitrateFan (targetSpeed s)) (s.wr fanTarget (trunc16 (targetSpeed s)))).cfg
      = s.cfg := (RteOnly.foldl (arbitrateFan_rteOnly _) _ _).cfg
  have hslew := fun o e => slewed_duty_le (hcfg ▸ hc) o e (hcfg ▸ hi)
  rw [hcfg] at hslew
  exact hslew _ _

/-- The duty word of a fan after each operation that may write words of fanctrl; every other operation leaves it
(R23). -/
theorem effect_duty (i : Instr) {s : State} (hc : s.cfg.wf = true) (hl : layoutsConform s.cfg = true)
    (ho : opConforms s i = true) (hi : Instr.wf s.cfg i = true) {k : Nat} (hk : k < s.cfg.nfan) :
    (effect i s).rdNat (fanAddr k .duty) ≤ s.cfg.dutyFull.toNat
      ∨ (effect i s).rdNat (fanAddr k .duty) = s.rdNat (fanAddr k .duty) := by
  have hn := (Config.nfan_bounds hc).2
  have hk4 : k < 4 := by omega
  have latch : ∀ u, (latchUpdate u).rd (fanAddr k .duty) = u.rd (fanAddr k .duty) :=
    fun u => State.rd_latchUpdate_ne u (ne_fanAddr hk4 .duty (by decide)).symm
  have other : ∀ {j : Nat} {x : FanWord}, j < 4 → x ≠ .duty → fanAddr k .duty ≠ fanAddr j x :=
    fun hj hx e => hx ((fanAddr_inj hk4 hj).1 e).2.symm
  have kept : (effect i s).rd (fanAddr k .duty) = s.rd (fanAddr k .duty) → (effect i s).rdNat (fanAddr k .duty)
      = s.rdNat (fanAddr k .duty) := congrArg BitVec.toNat
  by_cases hmay : mayWrite i .fanctrl = false
  · exact .inr (kept (effect_rd_of_owner i s hc hl ho hi (by rw [ownerOf_fanAddr hn hk]; exact hmay)))
  · cases i <;> simp [mayWrite] at hmay
    case reset =>
      have hzero := rd_resetBlock s fun p => (ne_fanAddr hk4 .duty (a := liveCnt p) (by cases p <;> decide)).symm
      left
      rw [State.rdNat, effect, latch, hzero]
      exact Nat.zero_le _
    case fanTick =>
      left
      rw [State.rdNat, effect, latch]
      exact fanTick_duty_le hc hk
    case tachPulse j => exact .inr (kept ((latch _).trans (State.rd_wr_ne s _ (other j.isLt (by decide)))))
    case fanstatTick =>
      exact .inr (kept ((latch _).trans (fanstatTick_rd_ne s fun j hj x _ hx => other (by omega) hx)))

/-- Settles O33: FAN_TICK writes clamped duties, RESET zeroes them, and no other operation writes a duty. -/
theorem dutiesStayInRange : Obligations.DutiesStayInRange := by
  intro s t hco h hstep
  refine step_keeps_conforming (Inv := dutiesInRange) (fun _ _ hu => hu) (fun i u v hc hl ho hu hexec => ?_)
    hco h hstep
  obtain ⟨hi, rfl⟩ := exec_next hexec
  have hcfg := (effect_cfg_port i u).1
  intro k hk
  rw [withResult_cfg, hcfg] at hk
  rw [withResult_rdNat, withResult_cfg, hcfg]
  obtain hle | heq := effect_duty i hc hl ho hi hk
  · exact hle
  · rw [heq]; exact hu k hk

end Sys2Proof.Machine

/-! The step, and the output pins (spec/30_encoding.md R110 to R113, spec/10_state.md R64). -/

namespace Sys2Proof

/-- Format N takes a word whose `a` and `d` are zero (R112). -/
theorem formatN_cmdWord (o : BitVec 8) (i : Instr) : formatN (cmdWord o 0 0) i = .ok i := by
  simp [formatN, aField_cmdWord, dField_cmdWord]

/-- Format A reads the address back (R112). -/
theorem formatA_cmdWord (o : BitVec 8) (a : Addr) (mk : Addr → Instr) :
    formatA (cmdWord o a 0) mk = .ok (mk a) := by
  simp [formatA, aField_cmdWord, dField_cmdWord]

/-- Format AD reads the address and the data back (R112). -/
theorem formatAD_cmdWord (o : BitVec 8) (a : Addr) (d : Word) (mk : Addr → Word → Instr) :
    formatAD (cmdWord o a d) mk = .ok (mk a d) := by
  simp [formatAD, aField_cmdWord, dField_cmdWord]

/-- Format F reads the fan back (R112). -/
theorem formatF_cmdWord (o : BitVec 8) (k : Fin 4) (mk : Fin 4 → Instr) :
    formatF (cmdWord o (BitVec.ofNat 8 k.val) 0) mk = .ok (mk k) := by
  have hk : (BitVec.ofNat 8 k.val).toNat = k.val := by rw [BitVec.toNat_ofNat]; omega
  simp [formatF, aField_cmdWord, dField_cmdWord, hk]

/-- Format P reads the peer back (R112). -/
theorem formatP_cmdWord (o : BitVec 8) (p : Peer) (mk : Peer → Instr) :
    formatP (cmdWord o p.field 0) mk = .ok (mk p) := by
  simp [formatP, aField_cmdWord, dField_cmdWord, peerOf_field]

/-- Format PB reads the peer and the byte back (R112). -/
theorem formatPB_cmdWord (o : BitVec 8) (p : Peer) (byte : Byte) (mk : Peer → Byte → Instr) :
    formatPB (cmdWord o p.field (byte.setWidth 16)) mk = .ok (mk p byte) := by
  have high : (byte.setWidth 16).extractLsb' 8 8 = 0#8 := by
    apply BitVec.eq_of_getLsbD_eq
    intro j hj
    simp
  have low : (byte.setWidth 16).extractLsb' 0 8 = byte := by
    apply BitVec.eq_of_getLsbD_eq
    intro j hj
    simp [hj, show j < 16 by omega]
  simp [formatPB, aField_cmdWord, dField_cmdWord, peerOf_field, high, low]

/-- The word of an operation decodes to it: its `op` selects its row, and the row's format reads the operands
back (R111 to R113). -/
theorem decode_encode (i : Instr) : decode (encode i) = .ok i := by
  cases i <;> rw [encode, decode, opField_cmdWord]
  case regRd a => exact formatA_cmdWord ..
  case regWr a d => exact formatAD_cmdWord ..
  case tachPulse k => exact formatF_cmdWord ..
  case rxByte p byte => exact formatPB_cmdWord ..
  case rxIdle p => exact formatP_cmdWord ..
  case rxDrain p => exact formatP_cmdWord ..
  case txStart p => exact formatP_cmdWord ..
  case txByte p => exact formatP_cmdWord ..
  all_goals exact formatN_cmdWord ..

end Sys2Proof

namespace Sys2Proof.Machine

/-- A whole word presented stands first at the port (R110). -/
theorem withFetchWord_toNat_port (s : State) (w : Cmd) : (s.withFetchWord 32 w.toNat).port = w :: s.port := by
  have hw : BitVec.ofNat 32 (w.toNat % 2 ^ 32) = w := by
    rw [Nat.mod_eq_of_lt w.isLt, BitVec.ofNat_toNat, BitVec.setWidth_eq]
  show BitVec.ofNat 32 (w.toNat % 2 ^ 32) :: s.port = w :: s.port
  rw [hw]

/-- Once the presented word is taken the state is the one it was presented to. -/
theorem withFetchWord_withPort (s : State) (n w : Nat) : (s.withFetchWord n w).withPort s.port = s := rfl

/-- With nothing presented a step keeps the state (log entry 2). -/
theorem step_of_idle {s : State} (hc : s.cfg.wf = true) (hp : s.port = []) : step s = .next s := by
  unfold step fetch
  rw [if_pos hc, hp]

/-- Under a configuration that is not well-formed a step is refused (R10). -/
theorem step_of_illFormed {s : State} (hc : s.cfg.wf = false) : step s = .refused .illFormedConfig := by
  unfold step fetch
  rw [hc, if_neg Bool.false_ne_true]

/-- Settles O6: `fetch` takes the first word of the port, and the word of an operation decodes to it. -/
theorem stepRunsPresentedOperation : Obligations.StepRunsPresentedOperation := by
  refine ⟨fun s w rest i hc hp hd hi => step_of_port hc hp hd hi, fun s i hc hi => ?_,
    fun s hc hp => step_of_idle hc hp, fun s hc => step_of_illFormed hc⟩
  have hstep := step_of_port (s := s.withFetchWord 32 (encode i).toNat) hc (withFetchWord_toNat_port s (encode i))
    (decode_encode i) hi
  rwa [withFetchWord_withPort] at hstep

/-- Settles O60: each pin is defined as the copy of its bit, and the duty channels list the fans in order. -/
theorem pinsMirrorTheWords : Obligations.PinsMirrorTheWords := by
  intro s
  refine ⟨rfl, rfl, rfl, rfl, rfl, rfl, rfl, rfl, ?_, fun i hi => ?_⟩
  · simp [pins]
  · simp [pins, List.getElem?_range hi]

end Sys2Proof.Machine

/-! The serialisation of a field (spec/20_memory.md R83). -/

namespace Sys2Proof.Machine

/-- Each byte is one base-256 digit of the value, the lowest first. -/
theorem leBytes_getElem? {n k : Nat} (v : Nat) (h : k < n) :
    (leBytes n v)[k]? = some (BitVec.ofNat 8 (v / 256 ^ k % 256)) := by
  induction n generalizing v k with
  | zero => exact absurd h k.not_lt_zero
  | succ n ih =>
    cases k with
    | zero => simp [leBytes]
    | succ k =>
      rw [leBytes, List.getElem?_cons_succ, ih (v / 256) (Nat.lt_of_succ_lt_succ h), Nat.div_div_eq_div_mul,
        ← Nat.pow_succ']

/-- The n bytes of a value are read back as its n lowest base-256 digits, whatever its size. -/
theorem leValue_leBytes (n v : Nat) : leValue (leBytes n v) = v % 256 ^ n := by
  induction n generalizing v with
  | zero => simp [leBytes, leValue, Nat.mod_one]
  | succ n ih =>
    have digit : (BitVec.ofNat 8 (v % 256)).toNat = v % 256 := Nat.mod_mod v 256
    rw [leBytes, leValue, ih, digit, Nat.pow_succ', Nat.mod_mul]

/-- The first byte is the value's lowest digit and the rest its quotient by 256, so serialising what was read
gives the bytes back. -/
theorem leBytes_leValue (bs : List Byte) : leBytes bs.length (leValue bs) = bs := by
  induction bs with
  | nil => rfl
  | cons b rest ih =>
    have hb : b.toNat < 256 := b.isLt
    have hmod : (b.toNat + 256 * leValue rest) % 256 = b.toNat := by omega
    have hdiv : (b.toNat + 256 * leValue rest) / 256 = leValue rest := by omega
    rw [List.length_cons, leValue, leBytes, hmod, hdiv, ih, BitVec.ofNat_toNat, BitVec.setWidth_eq]

/-- Settles O15: the bytes are the base-256 digits, and reading and serialising undo each other. -/
theorem fieldsAreLittleEndian : Obligations.FieldsAreLittleEndian :=
  ⟨fun _ v _ hk => leBytes_getElem? v hk, leBytes_length,
    fun n v hv => (leValue_leBytes n v).trans (Nat.mod_eq_of_lt hv), leBytes_leValue⟩

end Sys2Proof.Machine

/-! The command words: each operation has one word, the opcode map lists those words, and a word that is none
of them is illegal (spec/30_encoding.md R111 to R114). -/

namespace Sys2Proof

/-- A word is put together from its three fields (R111). -/
theorem cmdWord_eq_of_fields {w : Cmd} {o a : BitVec 8} {d : BitVec 16} (ho : opField w = o) (ha : aField w = a)
    (hd : dField w = d) : cmdWord o a d = w := by
  rw [← ho, ← ha, ← hd, cmdWord_fields]

/-- The `op` of a word, from its number in the opcode map (R113). -/
theorem opField_eq_of_toNat {w : Cmd} {n : Nat} (h : (opField w).toNat = n) : opField w = BitVec.ofNat 8 n := by
  rw [← h, BitVec.ofNat_toNat, BitVec.setWidth_eq]

/-- A field with the value 0 is zero (R111). -/
theorem eq_zero_of_toNat_eq {n : Nat} {x : BitVec n} (h : x.toNat = 0) : x = 0 :=
  BitVec.eq_of_toNat_eq (h.trans BitVec.toNat_zero.symm)

/-- A word of format F, from the ranges of its fields (R112). -/
theorem exists_fan_of_fields {w : Cmd} {o : BitVec 8} (ho : opField w = o) (ha : (aField w).toNat < 4)
    (hd : (dField w).toNat = 0) : ∃ k : Fin 4, k.val = (aField w).toNat ∧ cmdWord o (BitVec.ofNat 8 k.val) 0 = w :=
  ⟨⟨_, ha⟩, rfl, cmdWord_eq_of_fields ho (by rw [BitVec.ofNat_toNat, BitVec.setWidth_eq])
    (eq_zero_of_toNat_eq hd)⟩

/-- An `a` below 2 names a peer (R112). -/
theorem exists_peer_field {a : BitVec 8} (h : a.toNat < 2) : ∃ p : Peer, a = p.field := by
  obtain h0 | h1 : a.toNat = 0 ∨ a.toNat = 1 := by omega
  · exact ⟨.pri, BitVec.eq_of_toNat_eq h0⟩
  · exact ⟨.sec, BitVec.eq_of_toNat_eq h1⟩

/-- A word of format P, from the ranges of its fields (R112). -/
theorem exists_peer_of_fields {w : Cmd} {o : BitVec 8} (ho : opField w = o) (ha : (aField w).toNat < 2)
    (hd : (dField w).toNat = 0) : ∃ p : Peer, cmdWord o p.field 0 = w := by
  obtain ⟨p, hp⟩ := exists_peer_field ha
  exact ⟨p, cmdWord_eq_of_fields ho hp (eq_zero_of_toNat_eq hd)⟩

/-- A word of format PB, from the ranges of its fields (R112). -/
theorem exists_peer_byte_of_fields {w : Cmd} {o : BitVec 8} (ho : opField w = o) (ha : (aField w).toNat < 2)
    (hd : (dField w).toNat < 256) : ∃ (p : Peer) (byte : Byte), cmdWord o p.field (byte.setWidth 16) = w := by
  obtain ⟨p, hp⟩ := exists_peer_field ha
  have hbyte : dField w = ((dField w).setWidth 8).setWidth 16 :=
    BitVec.eq_of_toNat_eq (by rw [BitVec.toNat_setWidth, BitVec.toNat_setWidth]; omega)
  exact ⟨p, _, cmdWord_eq_of_fields ho hp hbyte⟩

/-! What a format accepts is a word of that format, with the operand it hands on (R112). -/

theorem formatN_eq_ok {w : Cmd} {o : BitVec 8} {i j : Instr} (ho : opField w = o) (h : formatN w j = .ok i) :
    j = i ∧ cmdWord o 0 0 = w := by
  unfold formatN at h
  split_ifs at h with ha hd
  exact ⟨Except.ok.inj h, cmdWord_eq_of_fields ho (not_not.mp ha) (not_not.mp hd)⟩

theorem formatA_eq_ok {w : Cmd} {o : BitVec 8} {i : Instr} {mk : Addr → Instr} (ho : opField w = o)
    (h : formatA w mk = .ok i) : ∃ a, mk a = i ∧ cmdWord o a 0 = w := by
  unfold formatA at h
  split_ifs at h with hd
  exact ⟨_, Except.ok.inj h, cmdWord_eq_of_fields ho rfl (not_not.mp hd)⟩

theorem formatAD_eq_ok {w : Cmd} {o : BitVec 8} {i : Instr} {mk : Addr → Word → Instr} (ho : opField w = o)
    (h : formatAD w mk = .ok i) : ∃ a d, mk a d = i ∧ cmdWord o a d = w :=
  ⟨_, _, Except.ok.inj h, cmdWord_eq_of_fields ho rfl rfl⟩

theorem formatF_eq_ok {w : Cmd} {o : BitVec 8} {i : Instr} {mk : Fin 4 → Instr} (ho : opField w = o)
    (h : formatF w mk = .ok i) : ∃ k, mk k = i ∧ cmdWord o (BitVec.ofNat 8 k.val) 0 = w := by
  unfold formatF at h
  split_ifs at h with ha hd
  exact ⟨_, Except.ok.inj h, cmdWord_eq_of_fields ho (by rw [BitVec.ofNat_toNat, BitVec.setWidth_eq])
    (not_not.mp hd)⟩

theorem formatP_eq_ok {w : Cmd} {o : BitVec 8} {i : Instr} {mk : Peer → Instr} (ho : opField w = o)
    (h : formatP w mk = .ok i) : ∃ p, mk p = i ∧ cmdWord o p.field 0 = w := by
  unfold formatP at h
  split at h
  · cases h
  · next p hp =>
    split_ifs at h with hd
    exact ⟨p, Except.ok.inj h, cmdWord_eq_of_fields ho (peerOf_ok hp) (not_not.mp hd)⟩

/-- A `d` whose high byte is zero is its low byte, widened (R112). -/
theorem eq_setWidth_of_high_zero {d : BitVec 16} (h : d.extractLsb' 8 8 = 0) :
    d = (d.extractLsb' 0 8).setWidth 16 := by
  have high : d.toNat >>> 8 % 2 ^ 8 = 0 := by
    rw [← BitVec.extractLsb'_toNat, h]; rfl
  have lt := d.isLt
  rw [Nat.shiftRight_eq_div_pow] at high
  apply BitVec.eq_of_toNat_eq
  rw [BitVec.toNat_setWidth, BitVec.extractLsb'_toNat, Nat.shiftRight_zero]
  omega

theorem formatPB_eq_ok {w : Cmd} {o : BitVec 8} {i : Instr} {mk : Peer → Byte → Instr} (ho : opField w = o)
    (h : formatPB w mk = .ok i) :
    ∃ p byte, mk p byte = i ∧ cmdWord o p.field (byte.setWidth 16) = w := by
  unfold formatPB at h
  split at h
  · cases h
  · next p hp =>
    split_ifs at h with hd
    exact ⟨p, _, Except.ok.inj h,
      cmdWord_eq_of_fields ho (peerOf_ok hp) (eq_setWidth_of_high_zero (not_not.mp hd))⟩

/-- A word that decodes is the word of its operation: the `op` selects the row, and the row's format leaves no
other field free than its operands (R111 to R114). -/
theorem encode_of_decode {w : Cmd} {i : Instr} (h : decode w = .ok i) : encode i = w := by
  unfold decode at h
  split at h
  -- the rows by their format, numbered in the order of the map
  case h_1 ho | h_4 ho | h_5 ho | h_6 ho | h_8 ho | h_9 ho =>
    obtain ⟨rfl, hw⟩ := formatN_eq_ok (opField_eq_of_toNat ho) h
    exact hw
  case h_2 ho =>
    obtain ⟨a, rfl, hw⟩ := formatA_eq_ok (opField_eq_of_toNat ho) h
    exact hw
  case h_3 ho =>
    obtain ⟨a, d, rfl, hw⟩ := formatAD_eq_ok (opField_eq_of_toNat ho) h
    exact hw
  case h_7 ho =>
    obtain ⟨k, rfl, hw⟩ := formatF_eq_ok (opField_eq_of_toNat ho) h
    exact hw
  case h_11 ho | h_12 ho | h_13 ho | h_14 ho =>
    obtain ⟨p, rfl, hw⟩ := formatP_eq_ok (opField_eq_of_toNat ho) h
    exact hw
  case h_10 ho =>
    obtain ⟨p, byte, rfl, hw⟩ := formatPB_eq_ok (opField_eq_of_toNat ho) h
    exact hw
  case h_15 => cases h

/-- Decoding and encoding are inverse to each other (R111 to R114). -/
theorem decode_eq_ok_iff {w : Cmd} {i : Instr} : decode w = .ok i ↔ encode i = w :=
  ⟨encode_of_decode, fun h => h ▸ decode_encode i⟩

/-- Settles O1: a format reads back the operands that the word of an operation was made of. -/
theorem decodeOfEncode : Obligations.DecodeOfEncode := decode_encode

/-- Settles O2: each format pins down every bit of the word it accepts. -/
theorem encodeOfDecode : Obligations.EncodeOfDecode := fun _ _ => encode_of_decode

/-- Settles O4: each sample is the word of the operation it stands for. -/
theorem sampleWordsDecode : Obligations.SampleWordsDecode :=
  ⟨decode_encode .reset, decode_encode (.regRd 0x60), decode_encode (.regWr 0x02 0x0009), decode_encode .seqTick,
    decode_encode (.tachPulse 1), decode_encode .liveTick, decode_encode (.rxByte .sec 0xFF),
    decode_encode (.txStart .sec)⟩

end Sys2Proof

/-! The opcode map (spec/30_encoding.md R113). -/

namespace Sys2Proof

/-- Every operation's word is covered by the row with its mnemonic (R112, R113). -/
theorem encodesInMap (i : Instr) : Laws.EncodesInMap.Statement i := by
  cases i with
  | reset => exact Laws.EncodesInMap.reset
  | regRd a => exact Laws.EncodesInMap.regRd a
  | regWr a d => exact Laws.EncodesInMap.regWr a d
  | gpioTick => exact Laws.EncodesInMap.gpioTick
  | seqTick => exact Laws.EncodesInMap.seqTick
  | fanTick => exact Laws.EncodesInMap.fanTick
  | tachPulse k => exact Laws.EncodesInMap.tachPulse k
  | fanstatTick => exact Laws.EncodesInMap.fanstatTick
  | liveTick => exact Laws.EncodesInMap.liveTick
  | rxByte p byte => exact Laws.EncodesInMap.rxByte p byte
  | rxIdle p => exact Laws.EncodesInMap.rxIdle p
  | rxDrain p => exact Laws.EncodesInMap.rxDrain p
  | txStart p => exact Laws.EncodesInMap.txStart p
  | txByte p => exact Laws.EncodesInMap.txByte p

/-- A field that is zero under a mask has bits outside the mask only. -/
theorem toNat_le_of_and_eq_zero {n : Nat} {x mask : BitVec n} (h : x &&& mask = 0#n) : x.toNat ≤ (~~~mask).toNat := by
  have hx : x = x &&& ~~~mask := calc
    x = x &&& (mask ||| ~~~mask) := by rw [BitVec.or_not_self, BitVec.and_allOnes]
    _ = x &&& ~~~mask := by rw [BitVec.and_or_distrib_left, h, BitVec.zero_or]
  rw [hx, BitVec.toNat_and]
  exact Nat.and_le_right

/-- A row whose mask takes the whole of `op` covers words of its own `op` only, and of those the ones whose other
fields are zero under the mask (R113). -/
theorem fields_of_covers {m : String} {o ma : BitVec 8} {md : BitVec 16} {w : Cmd}
    (h : OpRow.covers ⟨m, cmdWord o 0 0, cmdWord 0xFF ma md⟩ w = true) :
    opField w = o ∧ (aField w).toNat ≤ (~~~ma).toNat ∧ (dField w).toNat ≤ (~~~md).toNat := by
  obtain ⟨ho, ha, hd⟩ := (covers_iff ..).mp h
  exact ⟨BitVec.and_allOnes.symm.trans ho, toNat_le_of_and_eq_zero ha, toNat_le_of_and_eq_zero hd⟩

/-! What a row covers is a word of its format (R112, R113). -/

theorem word_of_covers_formatN {m : String} {o : BitVec 8} {w : Cmd}
    (h : OpRow.covers ⟨m, cmdWord o 0 0, cmdWord 0xFF 0xFF 0xFFFF⟩ w = true) : cmdWord o 0 0 = w := by
  obtain ⟨ho, ha, hd⟩ := fields_of_covers h
  exact cmdWord_eq_of_fields ho (eq_zero_of_toNat_eq (Nat.le_zero.mp ha)) (eq_zero_of_toNat_eq (Nat.le_zero.mp hd))

theorem word_of_covers_formatP {m : String} {o : BitVec 8} {w : Cmd}
    (h : OpRow.covers ⟨m, cmdWord o 0 0, cmdWord 0xFF 0xFE 0xFFFF⟩ w = true) :
    ∃ p : Peer, cmdWord o p.field 0 = w := by
  obtain ⟨ho, ha, hd⟩ := fields_of_covers h
  exact exists_peer_of_fields ho (Nat.lt_succ_of_le ha) (Nat.le_zero.mp hd)

/-- A covered word is the word of an operation with the row's mnemonic (R113). -/
theorem exists_encode_of_covers {r : OpRow} {w : Cmd} (hr : r ∈ opcodeMap) (h : r.covers w = true) :
    ∃ i : Instr, i.mnemonic = r.mnemonic ∧ encode i = w := by
  simp only [opcodeMap, List.cons_append, List.nil_append, List.mem_cons, List.not_mem_nil, or_false] at hr
  obtain rfl | rfl | rfl | rfl | rfl | rfl | rfl | rfl | rfl | rfl | rfl | rfl | rfl | rfl := hr
  · exact ⟨.reset, rfl, word_of_covers_formatN (o := 0x01) h⟩
  · obtain ⟨ho, -, hd⟩ := fields_of_covers (o := 0x10) (ma := 0) (md := 0xFFFF) h
    exact ⟨.regRd (aField w), rfl, cmdWord_eq_of_fields ho rfl (eq_zero_of_toNat_eq (Nat.le_zero.mp hd))⟩
  · obtain ⟨ho, -, -⟩ := fields_of_covers (o := 0x11) (ma := 0) (md := 0) h
    exact ⟨.regWr (aField w) (dField w), rfl, cmdWord_eq_of_fields ho rfl rfl⟩
  · exact ⟨.gpioTick, rfl, word_of_covers_formatN (o := 0x20) h⟩
  · exact ⟨.seqTick, rfl, word_of_covers_formatN (o := 0x21) h⟩
  · exact ⟨.fanTick, rfl, word_of_covers_formatN (o := 0x30) h⟩
  · obtain ⟨ho, ha, hd⟩ := fields_of_covers (o := 0x31) (ma := 0xFC) (md := 0xFFFF) h
    obtain ⟨k, -, hw⟩ := exists_fan_of_fields ho (Nat.lt_succ_of_le ha) (Nat.le_zero.mp hd)
    exact ⟨.tachPulse k, rfl, hw⟩
  · exact ⟨.fanstatTick, rfl, word_of_covers_formatN (o := 0x32) h⟩
  · exact ⟨.liveTick, rfl, word_of_covers_formatN (o := 0x40) h⟩
  · obtain ⟨ho, ha, hd⟩ := fields_of_covers (o := 0x41) (ma := 0xFE) (md := 0xFF00) h
    obtain ⟨p, byte, hw⟩ := exists_peer_byte_of_fields ho (Nat.lt_succ_of_le ha) (Nat.lt_succ_of_le hd)
    exact ⟨.rxByte p byte, rfl, hw⟩
  · obtain ⟨p, hw⟩ := word_of_covers_formatP (o := 0x42) h
    exact ⟨.rxIdle p, rfl, hw⟩
  · obtain ⟨p, hw⟩ := word_of_covers_formatP (o := 0x43) h
    exact ⟨.rxDrain p, rfl, hw⟩
  · obtain ⟨p, hw⟩ := word_of_covers_formatP (o := 0x44) h
    exact ⟨.txStart p, rfl, hw⟩
  · obtain ⟨p, hw⟩ := word_of_covers_formatP (o := 0x45) h
    exact ⟨.txByte p, rfl, hw⟩

/-- A row of the opcode map is told by its mnemonic (R113). -/
theorem opcodeMap_mnemonic_inj : ∀ r ∈ opcodeMap, ∀ r' ∈ opcodeMap, r.mnemonic = r'.mnemonic → r = r' := by
  decide

/-- Settles O3: the words that decode are the operations' words, and a row covers exactly the words of the
operations with its mnemonic. -/
theorem wordsDecodeByTheirRow : Obligations.WordsDecodeByTheirRow := by
  refine ⟨fun w => ⟨?_, ?_⟩, fun w i hi r hr => ⟨fun hc => ?_, fun hm => ?_⟩⟩
  · rintro ⟨i, hi⟩
    obtain ⟨r, hr, -, hc⟩ := encodesInMap i
    exact ⟨r, hr, encode_of_decode hi ▸ hc⟩
  · rintro ⟨r, hr, hc⟩
    obtain ⟨i, -, hw⟩ := exists_encode_of_covers hr hc
    exact ⟨i, decode_eq_ok_iff.mpr hw⟩
  · obtain ⟨j, hm, hw⟩ := exists_encode_of_covers hr hc
    have hij : i = j := Except.ok.inj (hi.symm.trans (decode_eq_ok_iff.mpr hw))
    rw [hij, hm]
  · obtain ⟨r', hr', hm', hc⟩ := encodesInMap i
    rw [opcodeMap_mnemonic_inj r hr r' hr' (hm.trans hm'.symm), ← encode_of_decode hi]
    exact hc

end Sys2Proof

/-! Illegal words (spec/30_encoding.md R114). -/

namespace Sys2Proof.Machine

/-- The word of a legal operation is not illegal: its fields are in the ranges of its format (R112, R114). -/
theorem not_wordIllegal_encode {cfg : Config} {i : Instr} (h : Instr.wf cfg i = true) :
    ¬ wordIllegal cfg (encode i) := by
  have peer : ∀ p : Peer, ¬ 2 ≤ p.field.toNat := fun p => by cases p <;> decide
  unfold wordIllegal
  cases i <;> simp only [encode, opField_cmdWord, aField_cmdWord, dField_cmdWord]
  case tachPulse k =>
    have fan : (BitVec.ofNat 8 k.val).toNat = k.val := by rw [BitVec.toNat_ofNat]; omega
    have exists_fan : ¬ cfg.nfan ≤ k.val := Nat.not_le.mpr (of_decide_eq_true h)
    have two_bits : ¬ 4 ≤ k.val := Nat.not_le.mpr k.isLt
    rw [fan]
    simp [exists_fan, two_bits]
  case rxByte p byte =>
    have eight_bits : ¬ 256 ≤ (byte.setWidth 16).toNat := by rw [BitVec.toNat_setWidth]; omega
    simp [peer p, -BitVec.toNat_setWidth, eight_bits]
  case rxIdle p | rxDrain p | txStart p | txByte p => simp [peer p]
  all_goals simp

/-- A word that is not illegal is the word of a legal operation: its `op` is in the map, and the fields are in the
ranges of the format (R112 to R114). -/
theorem exists_encode_of_not_wordIllegal {cfg : Config} {w : Cmd} (h : ¬ wordIllegal cfg w) :
    ∃ i, Instr.wf cfg i = true ∧ encode i = w := by
  simp only [wordIllegal, not_or, not_and, not_not, not_le] at h
  obtain ⟨hop, hN, hA, hF, hP, hPB⟩ := h
  have formatN : ∀ n, (opField w).toNat = n → n ∈ [0x01, 0x20, 0x21, 0x30, 0x32, 0x40] →
      cmdWord (BitVec.ofNat 8 n) 0 0 = w := fun n ho hn =>
    cmdWord_eq_of_fields (opField_eq_of_toNat ho) (eq_zero_of_toNat_eq (hN (ho ▸ hn)).1)
      (eq_zero_of_toNat_eq (hN (ho ▸ hn)).2)
  have formatP : ∀ n, (opField w).toNat = n → n ∈ [0x42, 0x43, 0x44, 0x45] →
      ∃ p : Peer, cmdWord (BitVec.ofNat 8 n) p.field 0 = w := fun n ho hn =>
    exists_peer_of_fields (opField_eq_of_toNat ho) (hP (ho ▸ hn)).1 (hP (ho ▸ hn)).2
  simp only [List.mem_cons, List.not_mem_nil, or_false] at hop
  obtain ho | ho | ho | ho | ho | ho | ho | ho | ho | ho | ho | ho | ho | ho := hop
  · exact ⟨.reset, rfl, formatN _ ho (by decide)⟩
  · exact ⟨.regRd (aField w), rfl, cmdWord_eq_of_fields (opField_eq_of_toNat ho) rfl (eq_zero_of_toNat_eq (hA ho))⟩
  · exact ⟨.regWr (aField w) (dField w), rfl, cmdWord_eq_of_fields (opField_eq_of_toNat ho) rfl rfl⟩
  · exact ⟨.gpioTick, rfl, formatN _ ho (by decide)⟩
  · exact ⟨.seqTick, rfl, formatN _ ho (by decide)⟩
  · exact ⟨.fanTick, rfl, formatN _ ho (by decide)⟩
  · obtain ⟨hfan, hlt, hd⟩ := hF ho
    obtain ⟨k, hk, hw⟩ := exists_fan_of_fields (opField_eq_of_toNat ho) hlt hd
    exact ⟨.tachPulse k, decide_eq_true (hk ▸ hfan), hw⟩
  · exact ⟨.fanstatTick, rfl, formatN _ ho (by decide)⟩
  · exact ⟨.liveTick, rfl, formatN _ ho (by decide)⟩
  · obtain ⟨ha, hd⟩ := hPB ho
    obtain ⟨p, byte, hw⟩ := exists_peer_byte_of_fields (opField_eq_of_toNat ho) ha hd
    exact ⟨.rxByte p byte, rfl, hw⟩
  · obtain ⟨p, hw⟩ := formatP _ ho (by decide)
    exact ⟨.rxIdle p, rfl, hw⟩
  · obtain ⟨p, hw⟩ := formatP _ ho (by decide)
    exact ⟨.rxDrain p, rfl, hw⟩
  · obtain ⟨p, hw⟩ := formatP _ ho (by decide)
    exact ⟨.txStart p, rfl, hw⟩
  · obtain ⟨p, hw⟩ := formatP _ ho (by decide)
    exact ⟨.txByte p, rfl, hw⟩

/-- A word names a legal operation exactly when it is not illegal (R114). -/
theorem exists_decode_wf_iff {cfg : Config} {w : Cmd} :
    (∃ i, decode w = .ok i ∧ Instr.wf cfg i = true) ↔ ¬ wordIllegal cfg w := by
  constructor
  · rintro ⟨i, hd, hi⟩
    rw [← encode_of_decode hd]
    exact not_wordIllegal_encode hi
  · intro h
    obtain ⟨i, hi, hw⟩ := exists_encode_of_not_wordIllegal h
    exact ⟨i, decode_eq_ok_iff.mpr hw, hi⟩

/-- A step performs the first word exactly when it names a legal operation (R110, R114). -/
theorem exists_step_next_iff {s : State} {w : Cmd} {rest : List Cmd} (hc : s.cfg.wf = true)
    (hp : s.port = w :: rest) : (∃ t, step s = .next t) ↔ ∃ i, decode w = .ok i ∧ Instr.wf s.cfg i = true := by
  constructor
  · rintro ⟨t, ht⟩
    obtain ⟨-, ⟨hnil, -⟩ | ⟨w', rest', i, hp', hd, hi, -⟩⟩ := step_next ht
    · rw [hp] at hnil; cases hnil
    · rw [hp] at hp'; cases hp'; exact ⟨i, hd, hi⟩
  · rintro ⟨i, hd, hi⟩
    exact ⟨_, (step_of_port hc hp hd hi).trans (exec_of_wf i (s.withPort rest) hi)⟩

/-- A step is refused exactly when it answers no next state: there is no fault (R290). -/
theorem exists_step_refused_iff (s : State) : (∃ r, step s = .refused r) ↔ ¬ ∃ t, step s = .next t := by
  cases step s with
  | next t => simp
  | fault f => cases f
  | refused r => simp

/-- Settles O5: a step that is not refused performs a legal operation, and the words of those are the words that
are not illegal. -/
theorem illegalWordsAreRefused : Obligations.IllegalWordsAreRefused := by
  intro s w rest hc hp
  rw [exists_step_refused_iff, exists_step_next_iff hc hp, exists_decode_wf_iff, not_not]

end Sys2Proof.Machine

/-! The outgoing frame, part by part (spec/30_encoding.md R115). -/

namespace Sys2Proof.Machine

/-- The address byte and the payload of a layout (R115, R153). -/
theorem addressed_length (s : State) (address : Byte) (l : Layout) :
    (address :: payloadBytes s l).length = 1 + Layout.pay l := by
  rw [List.length_cons, payloadBytes_length, Nat.add_comm]

/-- The bytes of a field stand behind the address and the fields before it (R115). -/
theorem outgoingFrame_field {s : State} {p : Peer} {l1 l2 : Layout} {e : Entry}
    (h : s.cfg.txLayout.get p = l1 ++ e :: l2) :
    ((outgoingFrame s p).drop (1 + Layout.pay l1)).take e.bytes = leBytes e.bytes (entryValue s e) := by
  have frame : ∃ after, outgoingFrame s p
      = (s.cfg.addrPeer.get p :: payloadBytes s l1) ++ (leBytes e.bytes (entryValue s e) ++ after) := by
    simp [outgoingFrame, h, payloadBytes_append, payloadBytes]
  obtain ⟨after, hf⟩ := frame
  rw [hf, List.drop_left' (addressed_length ..), List.take_left' (leBytes_length ..)]

/-- The check bytes stand behind the payload and are taken over everything before them (R115). -/
theorem outgoingFrame_check (s : State) (p : Peer) :
    (outgoingFrame s p).drop (1 + Layout.pay (s.cfg.txLayout.get p))
      = check s.cfg.chkKind ((outgoingFrame s p).take (1 + Layout.pay (s.cfg.txLayout.get p))) := by
  rw [outgoingFrame, List.drop_left' (addressed_length ..), List.take_left' (addressed_length ..)]

/-- Settles O43: the frame is the address, the payload part by part and the check bytes. -/
theorem outgoingFrameShape : Obligations.OutgoingFrameShape := fun s p =>
  ⟨outgoingFrame_length s p, rfl, fun _ _ _ h => outgoingFrame_field h, outgoingFrame_check s p⟩

end Sys2Proof.Machine

/-! RESET, REG_RD and REG_WR (spec/40_rte_access.md R140 to R142). -/

namespace Sys2Proof.Machine

/-- A bit after a word write is the bit of the word then held (R15). -/
theorem bit_wr_held (s : State) (a b : Addr) (d : Word) (n : Nat) :
    (s.wr a d).bit b n = (if b = a then d else s.rd b).getLsbD n := by
  rw [State.bit, State.rd_wr]

/-- After the zeroing of RESET no raw fault is present and none is latched (R140, R276): its words are those after
power-on. -/
theorem latchesAgree_resetBlock (s : State) : latchesAgree (resetBlock s) :=
  latchesAgree_congr (s := State.resetWith s.cfg) (fun _ _ => rfl) (latchesAgree_resetWith s.cfg)

/-- The words RESET leaves, by their names: its latch rule finds nothing to change (R75, R140). -/
theorem rd_effect_reset (s : State) (a : Addr) :
    (effect .reset s).rd a = if a = liveCnt .pri then s.cfg.liveReset.pri
      else if a = liveCnt .sec then s.cfg.liveReset.sec else 0 :=
  calc (effect .reset s).rd a = (resetBlock s).rd a := latchesAgree_idem (latchesAgree_resetBlock s) a
    _ = _ := rteRead_rteReset_named s.cfg a

/-- RESET leaves both links at their reset state (R140). -/
theorem effect_reset_link (s : State) (p : Peer) : (effect .reset s).link p = Link.reset := by
  rw [effect, latchUpdate_link, resetBlock_link]

/-- Settles O10: the store is a word write, and the latch rule reads the three words as they stand after it. -/
theorem regWrStoresWord : Obligations.RegWrStoresWord := by
  intro s a d
  have rteOnly : RteOnly s (effect (.regWr a d) s) := (RteOnly.wr ..).trans (latchUpdate_rteOnly _)
  refine ⟨_, exec_of_wf (.regWr a d) s rfl, rfl, rteOnly.outsideKept _, fun b hb => ?_, fun n => ?_⟩
  · rw [withResult_rd, effect, State.rd_latchUpdate_ne _ hb, State.rd_wr]
  · rw [withResult_bit, effect, State.bit_latchUpdate_fltLat, bit_wr_held, bit_wr_held, bit_wr_held]

/-- Settles O11: the words and the links after RESET, whose last act is the latch rule, so that applying it again
changes nothing. -/
theorem resetClearsState : Obligations.ResetClearsState := by
  intro s
  obtain ⟨hcfg, hport⟩ := effect_cfg_port .reset s
  have latched : latchesAgree ((effect .reset s).withResult .none) := latchesAgree_latchUpdate (resetBlock s)
  refine ⟨_, exec_of_wf .reset s rfl, rfl, hcfg, hport, rd_effect_reset s, fun p => ?_, ?_, latchesAgree_idem latched⟩
  · rw [withResult_link, effect_reset_link]
  · exact ⟨rfl, rfl, rfl, rfl, rfl, rfl, rfl⟩

/-- Settles O9: REG_RD has no effect but its result. -/
theorem regRdReturnsWord : Obligations.RegRdReturnsWord := fun s a => exec_of_wf (.regRd a) s rfl

end Sys2Proof.Machine

/-! One operation of the framer as a whole: what it leaves alone, with the latch rule at its end (spec/41_framer.md
R150, spec/00_scope.md R16). -/

namespace Sys2Proof.Machine

/-- `t` is `s` after operations of link `p` that end with the latch rule: nothing outside the link, its FRM_STAT and
FLT_LAT changed, and FLT_LAT follows from the words of `s`. -/
structure FramerStep (p : Peer) (s t : State) : Prop where
  outside : outsideKeptBut p s t
  latched : latchedFrom s t
  words : wordsKept s t [frmStat p, fltLat]

/-- The latch rule after what touches one link only. -/
theorem LinkOnly.framerStep {p : Peer} {s u : State} (h : LinkOnly p s u) (r : Result) :
    FramerStep p s ((latchUpdate u).withResult r) :=
  ⟨h.latched.outsideKeptBut r, h.latchedFrom r, h.latched.wordsKept r⟩

/-- The latch rule applied twice, the raw faults and the clear requests unchanged between, is applied once (R275). -/
theorem latchedFrom_trans {s t u : State} (hraw : t.rd fltRaw = s.rd fltRaw) (hout : t.rd seqOut = s.rd seqOut)
    (hst : latchedFrom s t) (htu : latchedFrom t u) : latchedFrom s u := by
  intro n
  have raw : t.bit fltRaw n = s.bit fltRaw n := by rw [State.bit, hraw, State.bit]
  have out : t.bit seqOut (4 + n) = s.bit seqOut (4 + n) := by rw [State.bit, hout, State.bit]
  rw [htu n, hst n, raw, out]
  split
  · cases s.bit fltRaw n <;> cases s.bit fltLat n <;> cases s.bit seqOut (4 + n) <;> rfl
  · rfl

theorem FramerStep.trans {p : Peer} {s t u : State} (h : FramerStep p s t) (k : FramerStep p t u) :
    FramerStep p s u := by
  obtain ⟨⟨hcfg, hlink, hport, hepoch⟩, hlatch, hwords⟩ := h
  obtain ⟨⟨kcfg, klink, kport, kepoch⟩, klatch, kwords⟩ := k
  refine ⟨⟨kcfg.trans hcfg, fun q hq => (klink q hq).trans (hlink q hq), kport.trans hport, kepoch.trans hepoch⟩,
    latchedFrom_trans (hwords _ ?_) (hwords _ ?_) hlatch klatch, fun a ha => (kwords a ha).trans (hwords a ha)⟩
  · cases p <;> decide
  · cases p <;> decide

/-- Where the latches agree with the latch rule, FLT_LAT is left alone (R275, R276). -/
theorem FramerStep.rd_fltLat {p : Peer} {s t : State} (h : FramerStep p s t) (hs : latchesAgree s) :
    t.rd fltLat = s.rd fltLat := by
  apply word_eq_of_bits
  intro n _
  have bit : t.bit fltLat n = (latchUpdate s).bit fltLat n :=
    (h.latched n).trans (State.bit_latchUpdate_fltLat s n).symm
  rw [State.bit, State.bit, latchesAgree_idem hs] at bit
  exact bit

/-- RX_BYTE, RX_IDLE, TX_START and TX_BYTE change nothing or work on their link and end with the latch rule (R16). -/
theorem effect_framer {i : Instr} {p : Peer} (s : State)
    (h : i = .rxIdle p ∨ i = .txStart p ∨ i = .txByte p ∨ ∃ b, i = .rxByte p b) :
    effect i s = s ∨ ∃ u, LinkOnly p s u ∧ effect i s = latchUpdate u := by
  obtain rfl | rfl | rfl | ⟨b, rfl⟩ := h
  · exact .inr ⟨_, rxBoundary_linkOnly p s, rfl⟩
  · exact .inr ⟨_, LinkOnly.ite (LinkOnly.frmSet ..) (txBegin_linkOnly p s), rfl⟩
  · by_cases hbusy : s.bit (frmStat p) bTxBusy = true
    · exact .inr ⟨_, LinkOnly.ite (LinkOnly.frmClear ..) (txAdvance_linkOnly p s), if_pos hbusy⟩
    · exact .inl (if_neg hbusy)
  · by_cases hignored : rxIgnores p s = true
    · exact .inl (if_pos hignored)
    · exact .inr ⟨_, rxAccept_linkOnly p b s, if_neg hignored⟩

/-! The framer reads its own link only (spec/41_framer.md R150). -/

theorem AgreeLink.updateLink {p : Peer} {s u : State} (h : AgreeLink p s u) (f : Link → Link) :
    AgreeLink p (s.setLink p (f (s.link p))) (u.setLink p (f (u.link p))) := by
  rw [h.link]; exact h.setLink _

theorem AgreeLink.ite {p : Peer} {s t u v : State} {c d : Prop} [Decidable c] [Decidable d] (hcd : c ↔ d)
    (hsu : AgreeLink p s u) (htv : AgreeLink p t v) : AgreeLink p (if c then s else t) (if d then u else v) := by
  by_cases hd : d
  · rw [if_pos (hcd.mpr hd), if_pos hd]; exact hsu
  · rw [if_neg (mt hcd.mp hd), if_neg hd]; exact htv

theorem rxBoundary_agree {p : Peer} {s u : State} (h : AgreeLink p s u) :
    AgreeLink p (rxBoundary p s) (rxBoundary p u) :=
  (AgreeLink.ite (by rw [h.link]) ((h.wrBit bRxAbort true).updateLink fun l => { l with rxCnt := 0 }) h).updateLink
    fun l => { l with rxSkip := false }

theorem txAdvance_agree {p : Peer} {s u : State} (h : AgreeLink p s u) :
    AgreeLink p (txAdvance p s) (txAdvance p u) :=
  have moved := h.updateLink fun l => { l with txIdx := l.txIdx + 1 }
  AgreeLink.ite (by rw [h.link]) (moved.wrBit bTxBusy false) moved

theorem rxIgnores_agree {p : Peer} {s u : State} (h : AgreeLink p s u) : rxIgnores p s = rxIgnores p u := by
  unfold rxIgnores; rw [h.bit, h.link]

/-- Two states whose links agree run RX_BYTE, RX_IDLE and TX_BYTE to states whose links agree (R150). -/
theorem effect_agree {i : Instr} {p : Peer} {s u : State} (h : AgreeLink p s u)
    (hi : i = .rxIdle p ∨ i = .txByte p ∨ ∃ b, i = .rxByte p b) : AgreeLink p (effect i s) (effect i u) := by
  obtain rfl | rfl | ⟨b, rfl⟩ := hi
  · exact (rxBoundary_agree h).latch
  · exact AgreeLink.ite (by rw [h.bit])
      (AgreeLink.ite (by rw [h.link]) (h.wrBit bTxBusy false) (txAdvance_agree h)).latch h
  · exact AgreeLink.ite (by rw [rxIgnores_agree h]) h (rxAccept_agree h b).latch

/-- Two states whose links agree hand over the same byte (R150, R168). -/
theorem resultOf_agree {i : Instr} {p : Peer} {s u : State} (h : AgreeLink p s u)
    (hi : i = .rxIdle p ∨ i = .txByte p ∨ ∃ b, i = .rxByte p b) : resultOf i s = resultOf i u := by
  obtain rfl | rfl | ⟨b, rfl⟩ := hi
  · rfl
  · simp only [resultOf, h.bit, h.link, h.byte]
  · rfl

/-- Settles O51: a framer's operation works on its own link and then latches, and what it does reads its link and
FRM_STAT only. -/
theorem linksAreIndependent : Obligations.LinksAreIndependent := by
  refine ⟨fun s t p i hi hexec => ?_, fun s u p i hi hcfg hepoch hlink hfrm => ?_⟩
  · obtain ⟨-, rfl⟩ := exec_next hexec
    obtain hsame | ⟨u, hu, heffect⟩ := effect_framer s hi
    · rw [hsame]
      have touch := (LinkOnly.refl p s).touch
      exact ⟨touch.outsideKeptBut _, touch.wordsKept _, fun _ => rfl⟩
    · rw [heffect]
      have step := hu.framerStep (resultOf i s)
      exact ⟨step.outside, step.words, step.rd_fltLat⟩
  · have legal : ∀ cfg, Instr.wf cfg i = true := by
      intro cfg
      obtain rfl | rfl | ⟨b, rfl⟩ := hi <;> rfl
    have agree : AgreeLink p s u := ⟨hcfg, hepoch, hlink, hfrm⟩
    have after := effect_agree agree hi
    refine ⟨_, _, exec_of_wf i s (legal _), exec_of_wf i u (legal _), ?_, after.frm, resultOf_agree agree hi⟩
    rw [withResult_link, withResult_link, after.link]

end Sys2Proof.Machine

/-! Sending a frame: TX_BYTE, and a whole transmission (spec/41_framer.md R167, R168). -/

namespace Sys2Proof.Machine

/-- FRM_STAT after an operation's latch rule and result is as the operation's own writes left it. -/
theorem frm_bit_latched (u : State) (r : Result) (p : Peer) (n : Nat) :
    ((latchUpdate u).withResult r).bit (frmStat p) n = u.bit (frmStat p) n := by
  rw [withResult_bit, latchUpdate_frm_bit]

/-- The links after an operation's latch rule and result are as the operation's own writes left them. -/
theorem link_latched (u : State) (r : Result) (p : Peer) : ((latchUpdate u).withResult r).link p = u.link p := by
  rw [withResult_link, latchUpdate_link]

/-- An operation that writes one bit of a word keeps the others. -/
theorem bitsKept_singleton {s t : State} {a : Addr} {k : Nat} {b : Nat → Bool}
    (h : ∀ n, t.bit a n = if n = k then b n else s.bit a n) : bitsKept s t a [k] := fun n hn => by
  rw [h n, if_neg (fun e => hn (List.mem_singleton.mpr e))]

/-- TX_BYTE with nothing being sent (R168). -/
theorem exec_txByte_idle {s : State} {p : Peer} (h : s.bit (frmStat p) bTxBusy = false) :
    exec (.txByte p) s = .next (s.withResult .none) := by
  simp [exec, execTxByte, finish, h]

/-- TX_BYTE past the end of the frame (R168). -/
theorem exec_txByte_past {s : State} {p : Peer} (h : s.bit (frmStat p) bTxBusy = true)
    (hpast : (s.link p).txLen ≤ (s.link p).txIdx) :
    exec (.txByte p) s = .next ((latchUpdate (frmClear p bTxBusy s)).withResult .none) := by
  simp [exec, execTxByte, finish, h, hpast]

/-- TX_BYTE before the end of the frame (R168). -/
theorem exec_txByte_next {s : State} {p : Peer} (h : s.bit (frmStat p) bTxBusy = true)
    (hlt : (s.link p).txIdx < (s.link p).txLen) :
    exec (.txByte p) s = .next ((latchUpdate (txAdvance p s)).withResult
      (.byte (s.bufByte .txbuf p (s.link p).txIdx))) := by
  simp [exec, execTxByte, finish, h, hlt]

/-- TX_BUSY of a link that sends stays exactly while a byte is left (R168). -/
theorem txAdvance_busy {s : State} {p : Peer} (h : s.bit (frmStat p) bTxBusy = true) :
    (txAdvance p s).bit (frmStat p) bTxBusy = decide ((s.link p).txIdx + 1 < (s.link p).txLen) := by
  rw [txAdvance_bit, h]
  by_cases hlast : (s.link p).txLen ≤ (s.link p).txIdx + 1
  · simp [hlast]
  · simp [hlast, Nat.lt_of_not_le hlast]

/-- Settles O44: nothing sent, past the end, and a byte handed over. -/
theorem txByteHandsOverTheNextByte : Obligations.TxByteHandsOverTheNextByte := by
  refine ⟨fun s p hidle => exec_txByte_idle hidle, fun s p hbusy => ?_⟩
  by_cases hpast : (s.link p).txLen ≤ (s.link p).txIdx
  · have step := (LinkOnly.frmClear p bTxBusy s).framerStep .none
    have bits : ∀ n, ((latchUpdate (frmClear p bTxBusy s)).withResult .none).bit (frmStat p) n
        = if n = bTxBusy then false else s.bit (frmStat p) n := fun n => by
      rw [frm_bit_latched, frmClear_bit _ _ _ (by decide)]
    refine ⟨_, exec_txByte_past hbusy hpast, step.outside, step.latched, step.words, bitsKept_singleton bits, ?_⟩
    rw [if_pos hpast]
    exact ⟨rfl, by rw [link_latched, frmClear_link], by rw [bits, if_pos rfl]⟩
  · have step := (txAdvance_linkOnly p s).framerStep (.byte (s.bufByte .txbuf p (s.link p).txIdx))
    refine ⟨_, exec_txByte_next hbusy (Nat.lt_of_not_le hpast), step.outside, step.latched, step.words,
      fun n hn => ?_, ?_⟩
    · rw [frm_bit_latched, txAdvance_bit, if_neg fun e => hn (List.mem_singleton.mpr e.1)]
    · rw [if_neg hpast]
      exact ⟨rfl, by rw [link_latched, txAdvance_link], by rw [frm_bit_latched, txAdvance_busy hbusy]⟩

/-- TX_BYTE before the end of the frame: the byte handed over, and the link it leaves (R168). -/
theorem exec_txByte_sends {s : State} {p : Peer} (hbusy : s.bit (frmStat p) bTxBusy = true)
    (hlt : (s.link p).txIdx < (s.link p).txLen) :
    ∃ t, exec (.txByte p) s = .next t ∧ t.result = .byte (s.bufByte .txbuf p (s.link p).txIdx)
      ∧ t.link p = { s.link p with txIdx := (s.link p).txIdx + 1 } ∧ t.epoch = s.epoch
      ∧ t.bit (frmStat p) bTxBusy = decide ((s.link p).txIdx + 1 < (s.link p).txLen) := by
  obtain ⟨t, hexec, ⟨-, -, -, hepoch⟩, -, -, -, hcase⟩ := txByteHandsOverTheNextByte.2 s p hbusy
  rw [if_neg (Nat.not_le.mpr hlt)] at hcase
  obtain ⟨hbyte, hlink, hend⟩ := hcase
  exact ⟨t, hexec, hbyte, hlink, hepoch, hend⟩

/-- A buffer's bytes are told by the buffer and the number of resets. -/
theorem bufBytes_of_buf {s t : State} {b : BufName} {p : Peer} (hbuf : (t.link p).buf b = (s.link p).buf b)
    (hepoch : t.epoch = s.epoch) (k n : Nat) : t.bufBytes b p k n = s.bufBytes b p k n :=
  State.bufBytes_congr fun j _ _ => by rw [State.bufByte, hbuf, hepoch, State.bufByte]

/-- With nothing being sent no byte is handed over. -/
theorem txBytes_idle {s : State} {p : Peer} (h : s.bit (frmStat p) bTxBusy = false) (fuel : Nat) :
    txBytes p fuel s = ([], s) := by
  cases fuel with
  | zero => rfl
  | succ fuel => rw [txBytes, h, if_neg Bool.false_ne_true]

/-- One TX_BYTE of a transmission: its byte, then the bytes that follow (R167). -/
theorem txBytes_succ {s t : State} {p : Peer} {b : Byte} (h : s.bit (frmStat p) bTxBusy = true)
    (hexec : exec (.txByte p) s = .next t) (hb : t.result = .byte b) (fuel : Nat) :
    txBytes p (fuel + 1) s = (b :: (txBytes p fuel t).1, (txBytes p fuel t).2) := by
  have hexec : execTxByte p s = .next t := hexec
  simp [txBytes, h, hexec, hb]

/-- A transmission whose TX_BUSY says whether bytes are left hands over just those, and then TX_BUSY is 0 (R167). -/
theorem txBytes_rest {n fuel : Nat} {s : State} {p : Peer}
    (hbusy : s.bit (frmStat p) bTxBusy = decide ((s.link p).txIdx < (s.link p).txLen))
    (hleft : (s.link p).txIdx + n = (s.link p).txLen) (hfuel : n ≤ fuel) :
    (txBytes p fuel s).1 = s.bufBytes .txbuf p (s.link p).txIdx n
      ∧ ((txBytes p fuel s).2).bit (frmStat p) bTxBusy = false := by
  induction n generalizing fuel s with
  | zero =>
    have hdone : s.bit (frmStat p) bTxBusy = false := hbusy.trans (decide_eq_false (by omega))
    rw [txBytes_idle hdone]
    exact ⟨rfl, hdone⟩
  | succ n ih =>
    obtain ⟨fuel, rfl⟩ : ∃ m, fuel = m + 1 := ⟨fuel - 1, by omega⟩
    have hsends : s.bit (frmStat p) bTxBusy = true := hbusy.trans (decide_eq_true (by omega))
    obtain ⟨t, hexec, hbyte, hlink, hepoch, hgoes⟩ := exec_txByte_sends hsends (by omega)
    have hidx : (t.link p).txIdx = (s.link p).txIdx + 1 := by rw [hlink]
    have hlen : (t.link p).txLen = (s.link p).txLen := by rw [hlink]
    have hbuf : (t.link p).buf .txbuf = (s.link p).buf .txbuf := by rw [hlink]; rfl
    obtain ⟨hbytes, hend⟩ := ih (by rw [hgoes, hidx, hlen]) (by omega) (Nat.le_of_succ_le_succ hfuel)
    rw [txBytes_succ hsends hexec hbyte, State.bufBytes, hbytes, hidx, bufBytes_of_buf hbuf hepoch]
    exact ⟨rfl, hend⟩

/-- TX_START of a link that neither sends nor receives begins the transmission (R190). -/
theorem exec_txStart_begins {s : State} {p : Peer} (hbusy : s.bit (frmStat p) bTxBusy = false)
    (hcnt : (s.link p).rxCnt = 0) :
    exec (.txStart p) s = .next ((latchUpdate (txBegin p s)).withResult .none) := by
  simp [exec, execTxStart, finish, txRefuses, hbusy, hcnt]

/-- The link once a transmission is begun (R190). -/
theorem txBegin_link (p : Peer) (s : State) : (txBegin p s).link p =
    { s.link p with txbuf := bufWriteBytes (s.link p).txbuf 0 (outgoingFrame s p),
                    txLen := (outgoingFrame s p).length, txIdx := 0 } := by
  simp [txBegin]

/-- FRM_STAT once a transmission is begun (R190). -/
theorem txBegin_bit (p : Peer) (s : State) (n : Nat) :
    (txBegin p s).bit (frmStat p) n = if n = bTxBusy then true else s.bit (frmStat p) n := by
  simp only [txBegin]
  rw [frmSet_bit _ _ _ (by decide), State.bit_setLink]

/-- A run of bytes written from the start of a buffer that it fits is read back. -/
theorem bufBytes_of_written {s : State} {b : BufName} {p : Peer} {m : Buf} {f : List Byte}
    (hbuf : (s.link p).buf b = bufWriteBytes m 0 f) (hlen : f.length ≤ bufMax) :
    s.bufBytes b p 0 f.length = f := by
  refine bufBytes_of_cells s b p 0 f fun j hj => ?_
  rw [hbuf, cellGet?_bufWriteBytes f m 0 _ (by omega), if_pos (by omega)]
  simp [hj]

/-- Settles O45: TX_START fills TXBUF with the frame, and the cursor runs over it byte by byte. -/
theorem transmissionSendsTheFrame : Obligations.TransmissionSendsTheFrame := by
  intro s p hc hidle hcnt
  have hfits : (outgoingFrame s p).length ≤ bufMax := (outgoingFrame_length s p).trans_le (flen_tx_le hc p)
  have hpos : 0 < (outgoingFrame s p).length := Nat.zero_lt_succ _
  generalize ht : (latchUpdate (txBegin p s)).withResult .none = t
  have hexec : execTxStart p s = .next t := ht ▸ exec_txStart_begins hidle hcnt
  have hlink := (link_latched (txBegin p s) .none p).trans (txBegin_link p s)
  rw [ht] at hlink
  have hidx : (t.link p).txIdx = 0 := by rw [hlink]
  have hlen : (t.link p).txLen = (outgoingFrame s p).length := by rw [hlink]
  have hbusy : t.bit (frmStat p) bTxBusy = decide ((t.link p).txIdx < (t.link p).txLen) := by
    rw [hidx, hlen, decide_eq_true hpos, ← ht, frm_bit_latched, txBegin_bit, if_pos rfl]
  obtain ⟨hbytes, hend⟩ := txBytes_rest hbusy (by rw [hidx, hlen, Nat.zero_add]) hfits
  have hbuf : (t.link p).buf .txbuf = bufWriteBytes (s.link p).txbuf 0 (outgoingFrame s p) := by rw [hlink]; rfl
  rw [hidx, bufBytes_of_written hbuf hfits] at hbytes
  rw [txFrame, hexec]
  exact ⟨hbytes, hend⟩

end Sys2Proof.Machine

/-! Receiving: a frame boundary, and a byte outside and inside a frame (spec/41_framer.md R155 to R162). -/

namespace Sys2Proof.Machine

/-- A frame boundary leaves the receiver waiting for an address byte, whatever it was doing (R162). -/
theorem rxBoundary_link (p : Peer) (s : State) :
    (rxBoundary p s).link p = { s.link p with rxCnt := 0, rxSkip := false } := by
  unfold rxBoundary
  simp only [State.link_setLink_self]
  split
  · simp [rxToIdle]
  · next h =>
    have hcnt : (s.link p).rxCnt = 0 := by omega
    rw [← hcnt]

/-- A frame boundary sets RX_ABORT when a frame was being assembled (R162). -/
theorem rxBoundary_bit (p : Peer) (s : State) (n : Nat) :
    (rxBoundary p s).bit (frmStat p) n =
      if n = bRxAbort then s.bit (frmStat p) n || decide (0 < (s.link p).rxCnt) else s.bit (frmStat p) n := by
  unfold rxBoundary
  simp only [State.bit_setLink]
  split
  · next h =>
    rw [rxToIdle, State.bit_setLink, frmSet_bit _ _ _ (by decide), decide_eq_true h, Bool.or_true]
  · next h =>
    rw [decide_eq_false h, Bool.or_false, ite_self]

/-- RX_IDLE marks the boundary, and the latch rule follows (R16, R162). -/
theorem exec_rxIdle (p : Peer) (s : State) :
    exec (.rxIdle p) s = .next ((latchUpdate (rxBoundary p s)).withResult .none) := rfl

/-- Settles O49: the receiver waits again, and RX_ABORT records a frame cut short. -/
theorem rxIdleMarksABoundary : Obligations.RxIdleMarksABoundary := by
  intro s p
  have step := (rxBoundary_linkOnly p s).framerStep .none
  have bits : ∀ n, ((latchUpdate (rxBoundary p s)).withResult .none).bit (frmStat p) n = _ :=
    fun n => (frm_bit_latched ..).trans (rxBoundary_bit p s n)
  exact ⟨_, exec_rxIdle p s, rfl, step.outside, (link_latched ..).trans (rxBoundary_link p s),
    (bits bRxAbort).trans (if_pos rfl), bitsKept_singleton bits, step.latched, step.words⟩

/-- An ignored byte changes nothing (R155, R158). -/
theorem exec_rxByte_ignored {s : State} {p : Peer} (h : rxIgnores p s = true) (b : Byte) :
    exec (.rxByte p b) s = .next (s.withResult .none) := by
  simp [exec, execRxByte, finish, h]

/-- A byte that is not ignored (R156). -/
theorem exec_rxByte_accepted {s : State} {p : Peer} (h : rxIgnores p s = false) (b : Byte) :
    exec (.rxByte p b) s = .next ((latchUpdate (rxAccept p b s)).withResult .none) := by
  simp [exec, execRxByte, finish, h]

/-- What the receiver ignores: every byte while the link sends, and between frames every byte while it skips. -/
theorem rxIgnores_iff (p : Peer) (s : State) : rxIgnores p s = true ↔
    s.bit (frmStat p) bTxBusy = true ∨ ((s.link p).rxCnt = 0 ∧ (s.link p).rxSkip = true) := by
  simp [rxIgnores]

/-- A byte that starts a frame (R156). -/
theorem rxFirst_address {s : State} {p : Peer} {b : Byte} (h : b = s.cfg.addrOwn ∨ b = s.cfg.addrBcast) :
    rxFirst p b s = rxBegin p b (decide (b ≠ s.cfg.addrOwn)) s := by
  unfold rxFirst
  by_cases hown : b = s.cfg.addrOwn
  · rw [if_pos hown, decide_eq_false (not_not.mpr hown)]
  · rw [if_neg hown, if_pos (h.resolve_left hown), decide_eq_true hown]

/-- A byte that is no address (R158). -/
theorem rxFirst_error {s : State} {p : Peer} {b : Byte} (h : ¬ (b = s.cfg.addrOwn ∨ b = s.cfg.addrBcast)) :
    rxFirst p b s = (frmSet p bAddrErr s).setLink p { s.link p with rxSkip := true } := by
  obtain ⟨hown, hbcast⟩ := not_or.mp h
  rw [rxFirst, if_neg hown, if_neg hbcast]

/-- The link once a frame is begun (R156). -/
theorem rxBegin_link (p : Peer) (b : Byte) (bc : Bool) (s : State) : (rxBegin p b bc s).link p =
    { s.link p with rxBc := bc, rxExp := s.cfg.flen (rxLayoutOf s.cfg p bc), rxa := bufWrite (s.link p).rxa 0 b,
                    rxCnt := 1 } := State.link_setLink_self ..

/-- Beginning a frame writes no word (R156). -/
theorem rxBegin_frm_bit (p : Peer) (b : Byte) (bc : Bool) (s : State) (n : Nat) :
    (rxBegin p b bc s).bit (frmStat p) n = s.bit (frmStat p) n := State.bit_setLink ..

/-- The layout of a frame by its address byte (R116). -/
theorem rxLayoutOf_address (cfg : Config) (p : Peer) (b : Byte) :
    rxLayoutOf cfg p (decide (b ≠ cfg.addrOwn))
      = if b = cfg.addrOwn then cfg.rxLayout.get p else cfg.rxbLayout.get p := by
  by_cases h : b = cfg.addrOwn <;> simp [rxLayoutOf, h]

/-- The bytes of RXA after one was stored there (R156). -/
theorem bufByte_rxa_stored {s t : State} {p : Peer} {k : Nat} {b : Byte}
    (hbuf : (t.link p).rxa = bufWrite (s.link p).rxa k b) (hepoch : t.epoch = s.epoch) (hk : k < bufMax) (j : Nat) :
    t.bufByte .rxa p j = if j = k then b else s.bufByte .rxa p j := by
  have hbuf : (t.link p).buf .rxa = bufWrite ((s.link p).buf .rxa) k b := hbuf
  rw [State.bufByte, hbuf, hepoch, bufByte_of_bufWrite, State.bufByte]
  simp only [hk, and_true]

/-- Settles O46: ignored bytes, the two addresses, and any other byte. -/
theorem rxByteBetweenFrames : Obligations.RxByteBetweenFrames := by
  refine ⟨fun s p b h => exec_rxByte_ignored ((rxIgnores_iff p s).mpr h) b, fun s p b hidle hcnt hskip => ?_⟩
  have accepted : rxIgnores p s = false := by simp [rxIgnores, hidle, hskip]
  have first : rxAccept p b s = rxFirst p b s := if_pos hcnt
  have step := (rxAccept_linkOnly p b s).framerStep .none
  refine ⟨_, exec_rxByte_accepted accepted b, rfl, step.outside, step.latched, step.words, ?_⟩
  by_cases haddr : b = s.cfg.addrOwn ∨ b = s.cfg.addrBcast
  · rw [first, rxFirst_address haddr, if_pos haddr]
    generalize ht : (latchUpdate (rxBegin p b (decide (b ≠ s.cfg.addrOwn)) s)).withResult .none = t
    have hlink := (link_latched _ .none p).trans (rxBegin_link p b (decide (b ≠ s.cfg.addrOwn)) s)
    have hbits : ∀ n, t.bit (frmStat p) n = s.bit (frmStat p) n := fun n => by
      rw [← ht, frm_bit_latched, rxBegin_frm_bit]
    have hepoch : t.epoch = s.epoch := by rw [← ht]; exact (rxBegin_linkOnly ..).epoch
    rw [ht, rxLayoutOf_address] at hlink
    refine ⟨fun n _ => hbits n, hlink, ?_, hbits bAddrErr⟩
    rw [bufByte_rxa_stored (s := s) (k := 0) (b := b) (congrArg Link.rxa hlink) hepoch (by decide), if_pos rfl]
  · rw [first, rxFirst_error haddr, if_neg haddr]
    have bits : ∀ n, ((latchUpdate ((frmSet p bAddrErr s).setLink p { s.link p with rxSkip := true })).withResult
        .none).bit (frmStat p) n = if n = bAddrErr then true else s.bit (frmStat p) n := fun n => by
      rw [frm_bit_latched, State.bit_setLink, frmSet_bit _ _ _ (by decide)]
    exact ⟨bitsKept_singleton bits, by rw [link_latched, State.link_setLink_self], by rw [bits, if_pos rfl]⟩

/-! Inside a frame (spec/41_framer.md R156 to R160). -/

/-- The state once a byte inside a frame is stored and the cursor moved (R156). -/
def rxStore (p : Peer) (b : Byte) (s : State) : State :=
  s.setLink p { s.link p with rxa := bufWrite (s.link p).rxa (s.link p).rxCnt b, rxCnt := (s.link p).rxCnt + 1 }

theorem rxStore_link (p : Peer) (b : Byte) (s : State) : (rxStore p b s).link p =
    { s.link p with rxa := bufWrite (s.link p).rxa (s.link p).rxCnt b, rxCnt := (s.link p).rxCnt + 1 } :=
  State.link_setLink_self ..

theorem rxStore_rd (p : Peer) (b : Byte) (s : State) (a : Addr) : (rxStore p b s).rd a = s.rd a :=
  State.rd_setLink ..

theorem rxStore_bit (p : Peer) (b : Byte) (s : State) (a : Addr) (n : Nat) :
    (rxStore p b s).bit a n = s.bit a n := State.bit_setLink ..

theorem rxStore_cfg (p : Peer) (b : Byte) (s : State) : (rxStore p b s).cfg = s.cfg := State.setLink_cfg ..

theorem rxStore_epoch (p : Peer) (b : Byte) (s : State) : (rxStore p b s).epoch = s.epoch := State.setLink_epoch ..

/-- The bytes assembled once one more is stored (R156). -/
theorem rxStore_bytes {s : State} {p : Peer} (b : Byte) (h : (s.link p).rxCnt < bufMax) :
    (rxStore p b s).bufBytes .rxa p 0 ((s.link p).rxCnt + 1) = s.bufBytes .rxa p 0 (s.link p).rxCnt ++ [b] :=
  rxStored_bytes s p b h _

/-- RX_BYTE inside a frame: the byte is stored, and the frame judged when it is complete (R156). -/
theorem exec_rxByte_inside {s : State} {p : Peer} (b : Byte) (hidle : s.bit (frmStat p) bTxBusy = false)
    (hcnt : 0 < (s.link p).rxCnt) :
    exec (.rxByte p b) s = .next ((latchUpdate
      (if (s.link p).rxCnt + 1 = (s.link p).rxExp then rxToIdle p (rxComplete p (rxStore p b s))
        else rxStore p b s)).withResult .none) := by
  have hne : (s.link p).rxCnt ≠ 0 := Nat.ne_of_gt hcnt
  have inside : rxAccept p b s = rxNext p b s := if_neg hne
  rw [exec_rxByte_accepted (by simp [rxIgnores, hidle, hne]), inside]
  rfl

/-- Settles O47: the byte goes to the cursor's place in RXA, and no word is written before the latch rule. -/
theorem rxByteInsideFrame : Obligations.RxByteInsideFrame := by
  intro s p b hidle hcnt hmore hexp
  have hexec := exec_rxByte_inside b hidle hcnt
  rw [if_neg (by omega)] at hexec
  have step := (LinkOnly.setLink p s { s.link p with
    rxa := bufWrite (s.link p).rxa (s.link p).rxCnt b, rxCnt := (s.link p).rxCnt + 1 }).framerStep .none
  have hlink := (link_latched (rxStore p b s) .none p).trans (rxStore_link p b s)
  have hbyte := bufByte_rxa_stored (t := (latchUpdate (rxStore p b s)).withResult .none) (congrArg Link.rxa hlink)
    (rxStore_epoch p b s) (by omega)
  refine ⟨_, hexec, rfl, step.outside, step.latched, fun a ha => ?_, hlink, ?_, fun k hk => ?_⟩
  · rw [withResult_rd, State.rd_latchUpdate_ne _ (by simpa using ha), rxStore_rd]
  · rw [hbyte, if_pos rfl]
  · rw [hbyte, if_neg hk]

/-- The check of an assembled frame, told by its bytes: the last ones are the check bytes of the ones before
(R153). -/
theorem rxCheckOk_iff {u : State} {p : Peer} {f : List Byte} (hk : u.cfg.chkKind.len ≤ (u.link p).rxExp)
    (hf : u.bufBytes .rxa p 0 (u.link p).rxExp = f) :
    rxCheckOk p u = true ↔ check u.cfg.chkKind (f.take (f.length - u.cfg.chkKind.len))
      = f.drop (f.length - u.cfg.chkKind.len) := by
  have parts := bufBytes_add u .rxa p 0 ((u.link p).rxExp - u.cfg.chkKind.len) u.cfg.chkKind.len
  rw [Nat.sub_add_cancel hk, hf, Nat.zero_add] at parts
  have hlen : f.length = (u.link p).rxExp := by rw [← hf, State.bufBytes_length]
  rw [hlen, parts, List.take_left' (State.bufBytes_length ..), List.drop_left' (State.bufBytes_length ..)]
  simp [rxCheckOk]

/-- A check value has at most two bytes (R151, R152). -/
theorem chkKind_len_le (k : ChkKind) : k.len ≤ 2 := by cases k <;> decide

theorem rxToIdle_link (p : Peer) (u : State) : (rxToIdle p u).link p = { u.link p with rxCnt := 0 } :=
  State.link_setLink_self ..

theorem rxToIdle_bit (p : Peer) (u : State) (a : Addr) (n : Nat) : (rxToIdle p u).bit a n = u.bit a n :=
  State.bit_setLink ..

/-- The link once a frame is handed over (R157). -/
theorem rxHandOver_link (p : Peer) (u : State) : (rxHandOver p u).link p =
    { u.link p with rxc := bufWriteBytes (u.link p).rxc 0 (u.bufBytes .rxa p 0 (u.link p).rxExp),
                    rxcBc := (u.link p).rxBc } := by
  simp [rxHandOver]

theorem rxHandOver_bit (p : Peer) (u : State) (n : Nat) :
    (rxHandOver p u).bit (frmStat p) n = if n = bRxPend then true else u.bit (frmStat p) n := by
  rw [rxHandOver, frmSet_bit _ _ _ (by decide), State.bit_setLink]

/-- The frame just completed is dropped: one sticky bit is set, and the receiver waits for an address byte (R159,
R160). -/
theorem rxDropped {s t : State} {p : Peer} {b : Byte} {n : Nat} (hn : n < 16)
    (ht : t = (latchUpdate (rxToIdle p (frmSet p n (rxStore p b s)))).withResult .none) :
    t.link p = { s.link p with rxCnt := 0, rxa := bufWrite (s.link p).rxa (s.link p).rxCnt b }
      ∧ t.bit (frmStat p) n = true ∧ bitsKept s t (frmStat p) [n] := by
  have bits : ∀ j, t.bit (frmStat p) j = if j = n then true else s.bit (frmStat p) j := fun j => by
    rw [ht, frm_bit_latched, rxToIdle_bit, frmSet_bit _ _ _ hn, rxStore_bit]
  refine ⟨?_, by rw [bits, if_pos rfl], bitsKept_singleton bits⟩
  rw [ht, link_latched, rxToIdle_link, frmSet_link, rxStore_link]

/-- The frame just completed is handed over whole, and the receiver waits for an address byte (R157). -/
theorem rxHandedOver {s t : State} {p : Peer} {b : Byte} {f : List Byte}
    (hf : (rxStore p b s).bufBytes .rxa p 0 (s.link p).rxExp = f) (hexp : (s.link p).rxExp ≤ bufMax)
    (ht : t = (latchUpdate (rxToIdle p (rxHandOver p (rxStore p b s)))).withResult .none) :
    t.link p = { s.link p with rxCnt := 0, rxa := bufWrite (s.link p).rxa (s.link p).rxCnt b,
                               rxc := bufWriteBytes (s.link p).rxc 0 f, rxcBc := (s.link p).rxBc }
      ∧ t.bufBytes .rxc p 0 f.length = f ∧ t.bit (frmStat p) bRxPend = true
      ∧ bitsKept s t (frmStat p) [bRxPend] := by
  have bits : ∀ j, t.bit (frmStat p) j = if j = bRxPend then true else s.bit (frmStat p) j := fun j => by
    rw [ht, frm_bit_latched, rxToIdle_bit, rxHandOver_bit, rxStore_bit]
  have hlink : t.link p = { s.link p with
      rxCnt := 0, rxa := bufWrite (s.link p).rxa (s.link p).rxCnt b, rxc := bufWriteBytes (s.link p).rxc 0 f,
      rxcBc := (s.link p).rxBc } := by
    rw [ht, link_latched, rxToIdle_link, rxHandOver_link, rxStore_link, hf]
  have hlen : f.length ≤ bufMax := by rw [← hf, State.bufBytes_length]; exact hexp
  exact ⟨hlink, bufBytes_of_written (by rw [hlink]; rfl) hlen, by rw [bits, if_pos rfl], bitsKept_singleton bits⟩

/-- Settles O48: the frame's bytes are the ones assembled before and the last one, and the three outcomes are the
branches of `rxComplete`. -/
theorem rxByteCompletesFrame : Obligations.RxByteCompletesFrame := by
  intro s p b hidle hcnt hlast hexp
  have hexec := exec_rxByte_inside b hidle hcnt
  rw [if_pos hlast] at hexec
  have step := (((LinkOnly.setLink p s _ : LinkOnly p s (rxStore p b s)).trans (rxComplete_linkOnly ..)).trans
    (rxToIdle_linkOnly ..)).framerStep .none
  refine ⟨_, hexec, rfl, step.outside, step.latched, step.words, ?_⟩
  intro f body stored
  have hf : (rxStore p b s).bufBytes .rxa p 0 (s.link p).rxExp = f := by
    rw [← hlast, rxStore_bytes b (by omega)]
  have hchk := chkKind_len_le s.cfg.chkKind
  have hok : rxCheckOk p (rxStore p b s) = true ↔ check s.cfg.chkKind (f.take body) = f.drop body := by
    have h := rxCheckOk_iff (u := rxStore p b s) (p := p) (f := f)
    rw [rxStore_cfg, rxStore_link] at h
    exact h (by simp only; omega) hf
  by_cases hcheck : check s.cfg.chkKind (f.take body) = f.drop body
  · rw [if_pos hcheck, rxComplete, if_pos (hok.mpr hcheck), rxStore_bit]
    by_cases hpend : s.bit (frmStat p) bRxPend = true
    · rw [if_pos hpend, if_pos hpend]
      exact rxDropped (by decide) rfl
    · rw [if_neg hpend, if_neg hpend]
      exact rxHandedOver hf hexp rfl
  · rw [if_neg hcheck, rxComplete, if_neg (mt hok.mp hcheck)]
    exact rxDropped (by decide) rfl

end Sys2Proof.Machine

/-! Resynchronisation: a frame boundary and then a whole valid frame (spec/41_framer.md R165). -/

namespace Sys2Proof.Machine

/-- An operation that answers a next state hands it to the rest of the list. -/
theorem perform_cons {i : Instr} {s t : State} (h : exec i s = .next t) (l : List Instr) :
    perform (i :: l) s = perform l t := by
  rw [perform, h]

/-- The receiver of link `p` has assembled the bytes `g` of a frame for this block, and can go on: since `s` only
the link, its FRM_STAT and FLT_LAT changed. -/
structure Assembling (p : Peer) (bc : Bool) (s : State) (g : List Byte) (t : State) : Prop where
  since : FramerStep p s t
  idle : t.bit (frmStat p) bTxBusy = false
  clear : t.bit (frmStat p) bRxPend = false
  count : (t.link p).rxCnt = g.length
  expected : (t.link p).rxExp = s.cfg.flen (rxLayoutOf s.cfg p bc)
  broadcast : (t.link p).rxBc = bc
  bytes : t.bufBytes .rxa p 0 g.length = g

/-- The receiver of link `p` has handed over the frame `f` and waits for an address byte: since `s` only the link, its
FRM_STAT and FLT_LAT changed. -/
structure HandedOver (p : Peer) (bc : Bool) (s : State) (f : List Byte) (t : State) : Prop where
  since : FramerStep p s t
  pending : t.bit (frmStat p) bRxPend = true
  frame : t.bufBytes .rxc p 0 f.length = f
  broadcast : (t.link p).rxcBc = bc
  waiting : (t.link p).rxCnt = 0

/-- The address byte of a normal or of a broadcast frame (R116). -/
def frameAddress (cfg : Config) (bc : Bool) : Byte := if bc then cfg.addrBcast else cfg.addrOwn

/-- The address byte of a frame for this block is one of the two addresses, and tells a broadcast (R116, WF1). -/
theorem frameAddress_spec {cfg : Config} (hc : cfg.wf = true) (bc : Bool) :
    (frameAddress cfg bc = cfg.addrOwn ∨ frameAddress cfg bc = cfg.addrBcast)
      ∧ decide (frameAddress cfg bc ≠ cfg.addrOwn) = bc := by
  cases bc with
  | false => exact ⟨.inl rfl, decide_eq_false (not_not.mpr rfl)⟩
  | true => exact ⟨.inr rfl, decide_eq_true (Config.addrOwn_ne_addrBcast hc).symm⟩

/-- A valid frame is its address byte and the rest, which is not empty (R115, R116, R153). -/
theorem validFrame_cons {cfg : Config} {p : Peer} {bc : Bool} {f : List Byte} (h : validFrame cfg p bc f) :
    ∃ rest, f = frameAddress cfg bc :: rest ∧ rest ≠ [] := by
  obtain ⟨hhead, hlen, -⟩ := h
  obtain ⟨rest, rfl⟩ := List.head?_eq_some_iff.mp hhead
  refine ⟨rest, rfl, ?_⟩
  rintro rfl
  exact absurd (hlen ▸ two_le_flen cfg (rxLayoutOf cfg p bc)) (by simp)

/-- After RX_IDLE the address byte of a frame for this block starts it, whatever the receiver was doing (R156,
R162). -/
theorem assembling_address {s : State} {p : Peer} (bc : Bool) (hc : s.cfg.wf = true)
    (hidle : s.bit (frmStat p) bTxBusy = false) (hclear : s.bit (frmStat p) bRxPend = false) :
    ∃ t u, exec (.rxIdle p) s = .next t ∧ exec (.rxByte p (frameAddress s.cfg bc)) t = .next u
      ∧ Assembling p bc s [frameAddress s.cfg bc] u := by
  obtain ⟨t, hexec, -, houtside, hlink, -, hbits, hlatched, hwords⟩ := rxIdleMarksABoundary s p
  have boundary : FramerStep p s t := ⟨houtside, hlatched, hwords⟩
  have hcfg : t.cfg = s.cfg := houtside.1
  obtain ⟨haddr, htells⟩ := frameAddress_spec hc bc
  obtain ⟨u, hbyte, -, koutside, klatched, kwords, kbits, hcase⟩ :=
    rxByteBetweenFrames.2 t p (frameAddress s.cfg bc) ((hbits _ (by decide)).trans hidle) (by rw [hlink])
      (by rw [hlink])
  rw [hcfg, if_pos haddr, ← rxLayoutOf_address, htells] at hcase
  obtain ⟨klink, hstored, -⟩ := hcase
  have kept : ∀ n, n ∉ [bRxAbort] → n ∉ [bAddrErr] → u.bit (frmStat p) n = s.bit (frmStat p) n :=
    fun n hn kn => (kbits n kn).trans (hbits n hn)
  refine ⟨t, u, hexec, hbyte, boundary.trans ⟨koutside, klatched, kwords⟩, ?_, ?_, ?_, ?_, ?_, ?_⟩
  · exact (kept _ (by decide) (by decide)).trans hidle
  · exact (kept _ (by decide) (by decide)).trans hclear
  · rw [klink]; rfl
  · rw [klink]
  · rw [klink]
  · exact congrArg (fun b => [b]) hstored

/-- A byte inside a frame is added to the bytes assembled (R156). -/
theorem Assembling.add {p : Peer} {bc : Bool} {s t : State} {g : List Byte} (h : Assembling p bc s g t)
    (hc : s.cfg.wf = true) (hg : g ≠ []) (b : Byte)
    (hmore : g.length + 1 < s.cfg.flen (rxLayoutOf s.cfg p bc)) :
    ∃ u, exec (.rxByte p b) t = .next u ∧ Assembling p bc s (g ++ [b]) u := by
  obtain ⟨hsince, hidle, hclear, hcount, hexp, hbc, hbytes⟩ := h
  have hpos := List.length_pos_iff.mpr hg
  have hfits := flen_rx_le hc p bc
  obtain ⟨u, hexec, -, houtside, hlatched, hwords, hlink, hstored, hkept⟩ := rxByteInsideFrame t p b hidle
    (by omega) (by omega) (by omega)
  have step : FramerStep p t u := ⟨houtside, hlatched, fun a ha => hwords a fun hm => ha (List.mem_cons_of_mem _ hm)⟩
  have first : u.bufBytes .rxa p 0 g.length = g :=
    (State.bufBytes_congr fun j _ hj => hkept j (by omega)).trans hbytes
  have last : u.bufByte .rxa p g.length = b := hcount ▸ hstored
  have frm : u.rd (frmStat p) = t.rd (frmStat p) := hwords _ (by simpa using frmStat_ne_fltLat p)
  refine ⟨u, hexec, ⟨hsince.trans step, ?_, ?_, ?_, ?_, ?_, ?_⟩⟩
  · rw [State.bit, frm]; exact hidle
  · rw [State.bit, frm]; exact hclear
  · rw [hlink, List.length_append, ← hcount]; rfl
  · rw [hlink]; exact hexp
  · rw [hlink]; exact hbc
  · rw [List.length_append, List.length_singleton, bufBytes_snoc, Nat.zero_add, first, last]

/-- The last byte of a valid frame hands it over (R157). -/
theorem Assembling.complete {p : Peer} {bc : Bool} {s t : State} {g : List Byte} {b : Byte}
    (h : Assembling p bc s g t) (hc : s.cfg.wf = true) (hg : g ≠ []) (hvalid : validFrame s.cfg p bc (g ++ [b])) :
    ∃ u, exec (.rxByte p b) t = .next u ∧ HandedOver p bc s (g ++ [b]) u := by
  obtain ⟨hsince, hidle, hclear, hcount, hexp, hbc, hbytes⟩ := h
  obtain ⟨-, hlen, hcheck⟩ := hvalid
  have hpos := List.length_pos_iff.mpr hg
  have hfits := flen_rx_le hc p bc
  have hlen' := hlen
  rw [List.length_append, List.length_singleton] at hlen'
  obtain ⟨u, hexec, -, houtside, hlatched, hwords, hcase⟩ := rxByteCompletesFrame t p b hidle
    (by omega) (by omega) (by omega)
  have hcfg : t.cfg = s.cfg := hsince.outside.1
  simp only [hcount, hbytes, hcfg] at hcase
  rw [if_pos hcheck.symm, hclear, if_neg Bool.false_ne_true] at hcase
  obtain ⟨hlink, hrxc, hpend, -⟩ := hcase
  refine ⟨u, hexec, hsince.trans ⟨houtside, hlatched, hwords⟩, hpend, hrxc, ?_, ?_⟩
  · rw [hlink]; exact hbc
  · rw [hlink]

/-- The rest of a valid frame, byte by byte, completes it (R156, R157). -/
theorem Assembling.rest {p : Peer} {bc : Bool} {s t : State} {g rest : List Byte} (h : Assembling p bc s g t)
    (hc : s.cfg.wf = true) (hg : g ≠ []) (hrest : rest ≠ []) (hvalid : validFrame s.cfg p bc (g ++ rest)) :
    ∃ u, perform (rxFrame p rest) t = .next u ∧ HandedOver p bc s (g ++ rest) u := by
  induction rest generalizing g t with
  | nil => exact absurd rfl hrest
  | cons b rest ih =>
    cases rest with
    | nil =>
      obtain ⟨u, hexec, hu⟩ := h.complete hc hg hvalid
      exact ⟨u, perform_cons hexec [], hu⟩
    | cons b' rest =>
      have hlen : (g ++ b :: b' :: rest).length = s.cfg.flen (rxLayoutOf s.cfg p bc) := hvalid.2.1
      simp only [List.length_append, List.length_cons] at hlen
      obtain ⟨u, hexec, hu⟩ := h.add hc hg b (by omega)
      obtain ⟨v, hperform, hv⟩ := ih hu (by simp) (by simp) (List.append_cons g b _ ▸ hvalid)
      exact ⟨v, (perform_cons hexec _).trans hperform, List.append_cons g b _ ▸ hv⟩

/-- Settles O50: the boundary and the address byte start the frame, and the rest of it completes it. -/
theorem receiverResynchronises : Obligations.ReceiverResynchronises := by
  intro s p bc f hc hidle hclear hvalid
  obtain ⟨rest, rfl, hrest⟩ := validFrame_cons hvalid
  obtain ⟨t, u, hboundary, haddress, hu⟩ := assembling_address bc hc hidle hclear
  obtain ⟨v, hperform, hv⟩ := hu.rest hc (List.cons_ne_nil _ _) hrest hvalid
  refine ⟨v, ?_, hv.pending, hv.frame, hv.broadcast, hv.waiting, hv.since.outside, hv.since.latched, hv.since.words⟩
  exact (perform_cons hboundary _).trans ((perform_cons haddress _).trans hperform)

end Sys2Proof.Machine

/-! The check functions (spec/41_framer.md R151, R152). -/

namespace Sys2Proof

theorem byteSum_append (as bs : List Byte) : byteSum (as ++ bs) = byteSum as + byteSum bs := by
  induction as with
  | nil => simp [byteSum]
  | cons a as ih => rw [List.cons_append, byteSum, byteSum, ih, Nat.add_assoc]

/-- SUM8 makes up what is missing to a multiple of 256 (R151). -/
theorem byteSum_sum8 (bs : List Byte) : (byteSum bs + (sum8 bs).toNat) % 256 = 0 := by
  rw [sum8, BitVec.toNat_ofNat]
  omega

theorem crcFrom_append (c : Word) (as bs : List Byte) : crcFrom c (as ++ bs) = crcFrom (crcFrom c as) bs := by
  induction as generalizing c with
  | nil => rfl
  | cons a as ih => exact ih (crcByte c a)

/-- The eight shift steps of a byte (R152). -/
theorem crcByte_eq (c : Word) (b : Byte) : crcByte c b = crcShift^[8] (c ^^^ b.setWidth 16) := rfl

/-- While the bits shifted out are 0, the shift steps of CRC16 only shift (R152). -/
theorem iterate_crcShift (n : Nat) (c : Word) (h : ∀ j, j < n → c.getLsbD j = false) :
    crcShift^[n] c = c >>> n := by
  induction n with
  | zero => simp
  | succ n ih =>
    have low : (c >>> n).getLsbD 0 = false := by
      rw [BitVec.getLsbD_ushiftRight]; exact h n (Nat.lt_succ_self n)
    rw [Function.iterate_succ_apply', ih fun j hj => h j (Nat.lt_succ_of_lt hj), crcShift, low,
      if_neg Bool.false_ne_true, BitVec.shiftRight_add]

/-- A byte equal to the low byte of the running value cancels it: the high byte is left (R152). -/
theorem crcByte_low (c : Word) : crcByte c (c.extractLsb' 0 8) = c >>> 8 := by
  have low : ∀ j, j < 8 → (c ^^^ (c.extractLsb' 0 8).setWidth 16).getLsbD j = false := fun j hj => by
    simp [hj, show j < 16 by omega]
  rw [crcByte_eq, iterate_crcShift 8 _ low]
  apply BitVec.eq_of_getLsbD_eq
  intro j _
  simp [BitVec.getLsbD_of_ge]

/-- CRC16 continued over its own value, the low byte first, ends at 0 (R152). -/
theorem crcFrom_own_bytes (c : Word) : crcFrom c [c.extractLsb' 0 8, c.extractLsb' 8 8] = 0 := by
  have high : c.extractLsb' 8 8 = (c >>> 8).extractLsb' 0 8 := by
    apply BitVec.eq_of_getLsbD_eq
    intro j _
    simp
  calc crcFrom c [c.extractLsb' 0 8, c.extractLsb' 8 8]
      = crcByte (crcByte c (c.extractLsb' 0 8)) (c.extractLsb' 8 8) := rfl
    _ = (c >>> 8) >>> 8 := by rw [crcByte_low, high, crcByte_low]
    _ = 0 := by rw [← BitVec.shiftRight_add]; exact BitVec.ushiftRight_eq_zero (by decide)

/-- Settles O52: SUM8 is the complement of the sum, and CRC16 is cancelled by its own two bytes. -/
theorem checkValuesClose : Obligations.CheckValuesClose := by
  refine ⟨fun bs => ?_, fun bs => ⟨rfl, rfl⟩, fun bs => ?_⟩
  · rw [byteSum_append, check, byteSum, byteSum, Nat.add_zero]
    exact byteSum_sum8 bs
  · rw [check, crc16, crcFrom_append]
    exact crcFrom_own_bytes (crc16 bs)

end Sys2Proof

/-! The bits of COM_STAT (spec/10_state.md R60), and what LIVE_TICK and RX_DRAIN do to the failure bits. -/

namespace Sys2Proof.Machine

/-- Every peer has its own UART_FAIL bit (R60). -/
@[simp] theorem bUartFail_inj {p q : Peer} : bUartFail p = bUartFail q ↔ p = q := by
  cases p <;> cases q <;> decide

/-- Every peer has its own NO_DATA bit (R60). -/
@[simp] theorem bNoData_inj {p q : Peer} : bNoData p = bNoData q ↔ p = q := by
  cases p <;> cases q <;> decide

@[simp] theorem bUartFail_ne_bNoData (p q : Peer) : bUartFail p ≠ bNoData q := by
  cases p <;> cases q <;> decide

@[simp] theorem bNoData_ne_bUartFail (p q : Peer) : bNoData p ≠ bUartFail q := (bUartFail_ne_bNoData q p).symm

@[simp] theorem bUartFail_ne_bComFault (p : Peer) : bUartFail p ≠ bComFault := by cases p <;> decide

@[simp] theorem bNoData_ne_bComFault (p : Peer) : bNoData p ≠ bComFault := by cases p <;> decide

@[simp] theorem bComFault_ne_bUartFail (p : Peer) : bComFault ≠ bUartFail p := (bUartFail_ne_bComFault p).symm

@[simp] theorem bComFault_ne_bNoData (p : Peer) : bComFault ≠ bNoData p := (bNoData_ne_bComFault p).symm

/-- The failure bits and COM_FAULT stand below the VERCHG bits (R60). -/
theorem bUartFail_lt (p : Peer) : bUartFail p < 8 := by cases p <;> decide

theorem bNoData_lt (p : Peer) : bNoData p < 8 := by cases p <;> decide

theorem le_bVerChg (p : Peer) (g : Img) : 8 ≤ bVerChg p g := by cases p <;> cases g <;> decide

/-- No bit below the VERCHG bits is one of them (R60). -/
theorem ne_bVerChg_of_lt {j : Nat} (h : j < 8) (p : Peer) (g : Img) : j ≠ bVerChg p g :=
  (h.trans_le (le_bVerChg p g)).ne

/-- UART_FAIL after one liveness step: the peer that counted down is reported when its counter is at 0 (R195,
R196). -/
theorem liveStep_uartFail (p q : Peer) (s : State) :
    (liveStep p s).bit comStat (bUartFail q) =
      (s.bit comStat (bUartFail q) || (decide (s.rdNat (liveCnt p) ≤ 1) && decide (q = p))) := by
  simp [liveStep_comStat]

/-- NO_DATA after one liveness step (R195, R196). -/
theorem liveStep_noData (p q : Peer) (s : State) :
    (liveStep p s).bit comStat (bNoData q) =
      (s.bit comStat (bNoData q) || (decide (s.rdNat (liveCnt p) ≤ 1) && decide (q = p))) := by
  simp [liveStep_comStat]

/-- COM_FAULT after one liveness step (R196). -/
theorem liveStep_comFault (p : Peer) (s : State) :
    (liveStep p s).bit comStat bComFault =
      (s.bit comStat bComFault || (decide (s.rdNat (liveCnt p) ≤ 1) && s.bit sysIn bVinOk)) := by
  simp [liveStep_comStat]

/-- The other peer's counter keeps its value in a liveness step (R195). -/
theorem liveStep_counter_ne {p q : Peer} (h : q ≠ p) (s : State) :
    (liveStep p s).rdNat (liveCnt q) = s.rdNat (liveCnt q) := by
  rw [State.rdNat, liveStep_rd_ne p s (mt liveCnt_inj.mp h) (comStat_ne_liveCnt q).symm, State.rdNat]

/-- Draining the fields moves no bit of COM_STAT but the VERCHG bits of its peer, when no field is stored there
(R185). -/
theorem drainFields_comStat_ne {p : Peer} {l : Layout} (cur : Nat) (s : State)
    (hn : comStat ∉ l.flatMap Entry.words) {j : Nat} (hj : ∀ g, j ≠ bVerChg p g) :
    (drainFields p cur l s).bit comStat j = s.bit comStat j := by
  rw [Bool.eq_iff_iff, drainFields_comStat p l cur s hn]
  exact or_iff_left fun ⟨_, e, _, _, _, hbit, _⟩ => hj e.img hbit

end Sys2Proof.Machine

/-! Invariants of the words of one owner: kept by the operations that may not write them (spec/10_state.md R23). -/

namespace Sys2Proof.Machine

/-- The condition speaks of the configuration and of the words of one owner only. -/
def AboutWordsOf (o : Owner) (Inv : State → Prop) : Prop :=
  ∀ s t, s.cfg.wf = true → t.cfg = s.cfg → (∀ a, ownerOf s.cfg a = o → t.rd a = s.rd a) → Inv s → Inv t

namespace AboutWordsOf

/-- The latch rule writes FLT_LAT only (R275). -/
theorem keeps_latchUpdate {o : Owner} {Inv : State → Prop} (h : AboutWordsOf o Inv) (ho : o ≠ .latch) {s u : State}
    (hc : s.cfg.wf = true) (hrun : RteOnly s u) (hu : Inv u) : Inv (latchUpdate u) :=
  h u _ (by rw [hrun.cfg]; exact hc) rfl
    (fun _ ha => State.rd_latchUpdate_ne u (ne_of_ownerOf (ownerOf_fltLat _) (ha ▸ ho))) hu

/-- RESET leaves the words as after power-on (R75, R140). -/
theorem keeps_reset {o : Owner} {Inv : State → Prop} (h : AboutWordsOf o Inv) (ho : o ≠ .latch) {s : State}
    (hc : s.cfg.wf = true) (hs : Inv (State.resetWith s.cfg)) : Inv (effect .reset s) :=
  have hblock : Inv (resetBlock s) := h (State.resetWith s.cfg) _ hc rfl (fun _ _ => rfl) hs
  h.keeps_latchUpdate ho (s := resetBlock s) hc (RteOnly.refl _) hblock

/-- An operation that may not write the owner's words keeps the condition (R23, R143). -/
theorem keeps_effect {o : Owner} {Inv : State → Prop} (h : AboutWordsOf o Inv) {i : Instr} {s : State}
    (hc : s.cfg.wf = true) (hl : layoutsConform s.cfg = true) (hop : opConforms s i = true)
    (hi : Instr.wf s.cfg i = true) (hmay : mayWrite i o = false) (hs : Inv s) : Inv (effect i s) :=
  h s _ hc (effect_cfg_port i s).1 (fun _ ha => effect_rd_of_owner i s hc hl hop hi (ha ▸ hmay)) hs

end AboutWordsOf

end Sys2Proof.Machine

/-! The liveness counters and the failure bits (spec/42_intcom.md R195 to R198). -/

namespace Sys2Proof.Machine

/-- The liveness counters keep to their limits (R311), and the failure bits of each peer are equal (R198). -/
def livenessInRange (s : State) : Prop :=
  (∀ p, s.rdNat (liveCnt p) ≤ (s.cfg.liveReset.get p).toNat) ∧ failureBitsAgree s

/-- The condition depends on the counters and on the failure bits only. -/
theorem livenessInRange_congr {s t : State} (hcfg : t.cfg = s.cfg) (hcnt : ∀ p, t.rd (liveCnt p) = s.rd (liveCnt p))
    (hbit : ∀ j, j < 8 → t.bit comStat j = s.bit comStat j) (h : livenessInRange s) : livenessInRange t := by
  refine ⟨fun p => ?_, fun p => ?_⟩
  · rw [State.rdNat, hcnt, hcfg]; exact h.1 p
  · rw [hbit _ (bUartFail_lt p), hbit _ (bNoData_lt p)]; exact h.2 p

theorem livenessInRange_aboutWords : AboutWordsOf .intcom livenessInRange := by
  intro s t hc hcfg hrd
  obtain ⟨hcom, hcnt, -⟩ := ownerOf_com (Config.nfan_bounds hc).2
  exact livenessInRange_congr hcfg (fun p => hrd _ (hcnt p)) fun j _ => by rw [State.bit, hrd _ hcom, State.bit]

/-- A clearing write moves no bit outside its mask (R143). -/
theorem getLsbD_of_clearsOnly {mask old new : Word} (h : clearsOnly mask old new = true) {j : Nat} (hj : j < 16)
    (hm : mask.getLsbD j = false) : new.getLsbD j = old.getLsbD j := by
  simp only [clearsOnly, Bool.and_eq_true, beq_iff_eq] at h
  have hbit := congrArg (fun w => w.getLsbD j) h.1
  simpa only [BitVec.getLsbD_and, BitVec.getLsbD_not, hj, hm, decide_true, Bool.not_false, Bool.and_true] using hbit

/-- A write the environment is expected to make leaves the counters and moves VERCHG bits only (R143). -/
theorem wr_livenessInRange {s : State} {a : Addr} {d : Word} (hc : s.cfg.wf = true)
    (hw : writeConforms s a d = true) (h : livenessInRange s) : livenessInRange (s.wr a d) := by
  obtain ⟨hcom, -, hfrm⟩ := ownerOf_com (Config.nfan_bounds hc).2
  by_cases hcs : a = comStat
  · subst hcs
    have hclears : clearsOnly 0x0F00 (s.rd comStat) d = true := by
      simpa [writeConforms, hcom, comStat_ne_frmStat] using hw
    have low : ∀ j, j < 8 → (0x0F00 : Word).getLsbD j = false := by decide
    refine livenessInRange_congr (s := s) rfl (fun p => State.rd_wr_ne s d (comStat_ne_liveCnt p).symm)
      (fun j hj => ?_) h
    rw [State.bit_wr, if_pos rfl]
    exact getLsbD_of_clearsOnly hclears (by omega) (low j hj)
  · have hother : ownerOf s.cfg a ≠ .intcom := by
      simp only [writeConforms, Bool.or_eq_true, Bool.and_eq_true, beq_iff_eq] at hw
      obtain (henv | ⟨rfl | rfl, -⟩) | ⟨rfl, -⟩ := hw
      · rw [henv]; decide
      · rw [hfrm]; decide
      · rw [hfrm]; decide
      · exact absurd rfl hcs
    exact livenessInRange_aboutWords s _ hc rfl
      (fun b hb => State.rd_wr_ne s d (ne_of_ownerOf hb hother).symm) h

/-- A liveness step counts down and reports both bits of its peer together (R195, R196). -/
theorem liveStep_livenessInRange (p : Peer) {s : State} (h : livenessInRange s) : livenessInRange (liveStep p s) := by
  refine ⟨fun q => ?_, fun q => ?_⟩
  · rw [(liveStep_rteOnly p s).cfg]
    have hq := h.1 q
    by_cases hqp : q = p
    · subst hqp
      rw [liveStep_counter]; omega
    · rwa [liveStep_counter_ne hqp]
  · rw [liveStep_uartFail, liveStep_noData, h.2 q]

/-- The fields of a conforming layout leave the counters and the failure bits (R335). -/
theorem drainFields_livenessInRange {s : State} {p : Peer} {bc : Bool} (hc : s.cfg.wf = true)
    (hl : layoutsConform s.cfg = true) (cur : Nat) (h : livenessInRange s) :
    livenessInRange (drainFields p cur (rxLayoutOf s.cfg p bc) s) := by
  obtain ⟨hcom, hcnt, -⟩ := ownerOf_com (Config.nfan_bounds hc).2
  have unnamed : ∀ a, ownerOf s.cfg a = .intcom → ¬ layoutNames (rxLayoutOf s.cfg p bc) a := fun a ha hnamed => by
    rw [ownerOf_named hl hnamed] at ha; cases ha
  have hcs : comStat ∉ (rxLayoutOf s.cfg p bc).flatMap Entry.words := fun hmem =>
    unnamed _ hcom (layoutNames_words.mpr (List.mem_flatMap.mp hmem))
  exact livenessInRange_congr (drainFields_rteOnly ..).cfg
    (fun q => drainFields_rd_ne _ _ _ _ (comStat_ne_liveCnt q).symm (unnamed _ (hcnt q)))
    (fun j hj => drainFields_comStat_ne cur s hcs (ne_bVerChg_of_lt hj p)) h

/-- The end of RX_DRAIN fills the counter and clears both bits of its peer, and leaves those of the other (R186,
R187). -/
theorem drainFinish_livenessInRange (p : Peer) {s : State} (h : livenessInRange s) :
    livenessInRange (drainFinish p s) := by
  obtain ⟨hlive, hcom, -, -⟩ := drainFinish_facts p s
  refine ⟨fun q => ?_, fun q => ?_⟩
  · rw [(drainFinish_rteOnly p s).cfg]
    by_cases hqp : q = p
    · subst hqp
      rw [State.rdNat, hlive]
    · rw [State.rdNat, drainFinish_rd_ne p s (mt liveCnt_inj.mp hqp) (comStat_ne_liveCnt q).symm
        (frmStat_ne_liveCnt p q).symm (liveCnt_ne_fltLat q)]
      exact h.1 q
  · rw [hcom, hcom, h.2 q]; simp

/-- Every conforming operation keeps the liveness counters and the failure bits in order (R23, R198, R311). -/
theorem effect_livenessInRange (i : Instr) {s : State} (hc : s.cfg.wf = true) (hl : layoutsConform s.cfg = true)
    (ho : opConforms s i = true) (hi : Instr.wf s.cfg i = true) (h : livenessInRange s) :
    livenessInRange (effect i s) := by
  have about := livenessInRange_aboutWords
  by_cases hmay : mayWrite i .intcom = false
  · exact about.keeps_effect hc hl ho hi hmay h
  · cases i <;> simp [mayWrite] at hmay
    case reset =>
      obtain ⟨-, -, -, -, -, hcnt, hbits, -⟩ := resetMeetsTheInvariants s.cfg hc
      exact about.keeps_reset (by decide) hc ⟨hcnt.1, hbits⟩
    case regWr a d => exact about.keeps_latchUpdate (by decide) hc (RteOnly.wr ..) (wr_livenessInRange hc ho h)
    case liveTick =>
      exact about.keeps_latchUpdate (by decide) hc ((liveStep_rteOnly .pri s).trans (liveStep_rteOnly .sec _))
        (liveStep_livenessInRange .sec (liveStep_livenessInRange .pri h))
    case rxDrain p =>
      simp only [effect]
      split
      · exact drainFinish_livenessInRange p (drainFields_livenessInRange hc hl 1 h)
      · exact h

end Sys2Proof.Machine

/-! The counters of the sequencer and of the debounce (spec/44_tmctrl.md R252, R262, R264). -/

namespace Sys2Proof.Machine

/-- The delay and debounce counters keep to their limits (R311), the retry counter to its budget (R264). -/
def tmctrlInRange (s : State) : Prop :=
  s.rdNat seqDlyCnt ≤ s.cfg.seqStartDelay.toNat ∧ s.rdNat seqRetryCnt ≤ s.cfg.retryBudget.toNat
    ∧ ∀ g : Sig, s.rdNat (gpioCnt g) < debounceThr s.cfg g (s.bit gpioDb g.index)

/-- A threshold as a word chosen by the debounced level (R253). -/
theorem debounceThr_eq (cfg : Config) (g : Sig) (db : Bool) :
    debounceThr cfg g db = (if db then cfg.disDly.get g else cfg.enDly.get g).toNat := by cases db <;> rfl

/-- The counters in range, owner by owner. -/
theorem countersInRange_iff (s : State) :
    countersInRange s ↔ (∀ p, s.rdNat (liveCnt p) ≤ (s.cfg.liveReset.get p).toNat) ∧ tmctrlInRange s
      ∧ s.rdNat fanTarget ≤ s.cfg.fanRpmMax.toNat := by
  simp only [countersInRange, tmctrlInRange, debounceThr_eq, and_assoc]

theorem tmctrlInRange_aboutWords : AboutWordsOf .tmctrl tmctrlInRange := by
  intro s t _ hcfg hrd h
  have word : ∀ a : Addr, 0x10 ≤ a.toNat ∧ a.toNat ≤ 0x17 → t.rd a = s.rd a := fun a ha => hrd a (ownerOf_tmctrl _ ha)
  have hcnt : ∀ g, t.rd (gpioCnt g) = s.rd (gpioCnt g) := fun g => word _ (by cases g <;> decide)
  simp only [tmctrlInRange, State.rdNat, State.bit, hcfg, word seqDlyCnt (by decide), word seqRetryCnt (by decide),
    word gpioDb (by decide), hcnt]
  exact h

/-- No threshold of a well-formed configuration is 0 (WF10). -/
theorem debounceThr_pos {cfg : Config} (hc : cfg.wf = true) (g : Sig) (db : Bool) : 0 < debounceThr cfg g db := by
  obtain ⟨-, -, -, -, hdly⟩ := Config.wf_counts hc
  cases db
  · exact (hdly g).1
  · exact (hdly g).2

/-- The debounce of a signal keeps its counter below the threshold of the level it leaves: at the threshold the
level flips and the counter restarts (R252, R253). -/
theorem debounce_cnt_lt {s : State} (hc : s.cfg.wf = true) (g : Sig)
    (h : s.rdNat (gpioCnt g) < debounceThr s.cfg g (s.bit gpioDb g.index)) :
    (debounce g s).rdNat (gpioCnt g) < debounceThr s.cfg g ((debounce g s).bit gpioDb g.index) := by
  rw [debounce_cnt, debounce_db]
  by_cases hdiff : s.bit gpioRaw g.index ≠ s.bit gpioDb g.index
  · by_cases hflip : debounceThr s.cfg g (s.bit gpioDb g.index) ≤ s.rdNat (gpioCnt g) + 1
    · rw [if_pos hdiff, if_pos hflip]
      exact debounceThr_pos hc g _
    · rw [if_pos hdiff, if_neg hflip, if_neg fun k => hflip k.2.2]
      omega
  · rw [if_neg hdiff, if_neg fun k => hdiff k.2.1]
    omega

/-- The debounce of one signal keeps every counter of tmctrl in range (R252). -/
theorem debounce_tmctrlInRange (g : Sig) {s : State} (hc : s.cfg.wf = true) (h : tmctrlInRange s) :
    tmctrlInRange (debounce g s) := by
  obtain ⟨hdly, hretry, hcnt⟩ := h
  have hcfg := (debounce_rteOnly g s).cfg
  have word : ∀ a, a ≠ gpioDb → a ≠ gpioCnt g → (debounce g s).rdNat a = s.rdNat a := fun a hdb hne => by
    rw [State.rdNat, debounce_rd_ne g s hdb hne, State.rdNat]
  refine ⟨?_, ?_, fun k => ?_⟩
  · rw [word _ (by decide) (by cases g <;> decide), hcfg]; exact hdly
  · rw [word _ (by decide) (by cases g <;> decide), hcfg]; exact hretry
  · rw [hcfg]
    by_cases hkg : k = g
    · subst hkg
      exact debounce_cnt_lt hc k (hcnt k)
    · have hbit : (debounce g s).bit gpioDb k.index = s.bit gpioDb k.index := by
        rw [debounce_db, if_neg fun e => hkg (Sig.index_inj.mp e.1)]
      rw [word _ (gpioCnt_ne k).1 (mt gpioCnt_inj.mp hkg), hbit]
      exact hcnt k

/-- The INIT arm leaves the delay counter within the start delay (R262). -/
theorem seqInitArm_dly (s : State) : (seqInitArm s).rdNat seqDlyCnt ≤ s.cfg.seqStartDelay.toNat := by
  have held : (s.wrField seqOut 0 4 0).rdNat seqDlyCnt = s.rdNat seqDlyCnt := by
    rw [State.rdNat, State.rd_wrField, if_neg (by decide), State.rdNat]
  simp only [seqInitArm, held, State.wrField_cfg]
  split
  · rw [State.rdNat_wr, if_pos rfl]; exact Nat.zero_le _
  · have hle := Nat.mod_le (s.rdNat seqDlyCnt + 1) (2 ^ 16)
    rw [State.rdNat_wr, if_pos rfl, trunc16, BitVec.toNat_ofNat]; omega

/-- The INIT arm leaves the retry counter (R262). -/
theorem seqInitArm_rd_ne (s : State) {a : Addr} (h1 : a ≠ seqOut) (h2 : a ≠ seqState) (h3 : a ≠ seqDlyCnt) :
    (seqInitArm s).rd a = s.rd a := by
  simp only [seqInitArm]
  split <;> simp [State.rd_wr_ne, State.rd_wrField, *]

/-- Re-arming writes SEQ_OUT and the retry counter (R263). -/
theorem seqRearm_rd_ne (s : State) {a : Addr} (h1 : a ≠ seqOut) (h2 : a ≠ seqRetryCnt) :
    (seqRearm s).rd a = s.rd a := by
  unfold seqRearm
  split
  · rw [State.rd_wr_ne _ _ h2, State.rd_wrField, if_neg h1]
  · rfl

/-- The automatic clear writes SEQ_OUT and the retry counter (R264). -/
theorem seqAutoClear_rd_ne (s : State) {a : Addr} (h1 : a ≠ seqOut) (h2 : a ≠ seqRetryCnt) :
    (seqAutoClear s).rd a = s.rd a := by
  unfold seqAutoClear
  split
  · rw [State.rd_wr_ne _ _ h2, State.rd_wrBit, if_neg h1, State.rd_wrBit, if_neg h1]
  · rfl

/-- The IDLE arm after its two clears writes SEQ_OUT and SEQ_STATE (R263, R264). -/
theorem seqIdleArm_rd (ok : Bool) (s : State) {a : Addr} (h1 : a ≠ seqOut) (h2 : a ≠ seqState) :
    (seqIdleArm ok s).rd a = (seqAutoClear (seqRearm s)).rd a := by
  simp only [seqIdleArm]
  split
  · rw [State.rd_wr_ne _ _ h2, State.rd_wrField, if_neg h1]
  · rfl

/-- The ON arm writes SEQ_OUT and SEQ_STATE (R265). -/
theorem seqOnArm_rd_ne (ok : Bool) (s : State) {a : Addr} (h1 : a ≠ seqOut) (h2 : a ≠ seqState) :
    (seqOnArm ok s).rd a = s.rd a := by
  simp only [seqOnArm]
  split
  · split <;> simp [State.rd_wrField, State.rd_wrBit, h1]
  · rw [State.rd_wr_ne _ _ h2, State.rd_wrField, if_neg h1]

/-- The retry counter after re-arming: 0, or as it was (R263). -/
theorem seqRearm_retry_le (s : State) : (seqRearm s).rdNat seqRetryCnt ≤ s.rdNat seqRetryCnt := by
  unfold seqRearm
  split
  · rw [State.rdNat_wr, if_pos rfl]; exact Nat.zero_le _
  · exact Nat.le_refl _

/-- The automatic clear counts a retry only while budget is left (R264). -/
theorem seqAutoClear_retry_le {s : State} (h : s.rdNat seqRetryCnt ≤ s.cfg.retryBudget.toNat) :
    (seqAutoClear s).rdNat seqRetryCnt ≤ s.cfg.retryBudget.toNat := by
  unfold seqAutoClear
  split
  · next hdue =>
    have hleft : s.rdNat seqRetryCnt < s.cfg.retryBudget.toNat := by
      simp only [autoClearDue, Bool.and_eq_true, decide_eq_true_eq] at hdue
      obtain ⟨⟨-, hleft⟩, -⟩ := hdue
      exact hleft
    have hle := Nat.mod_le (satU16 (s.rdNat seqRetryCnt + 1)) (2 ^ 16)
    have hsat : satU16 (s.rdNat seqRetryCnt + 1) ≤ s.rdNat seqRetryCnt + 1 := Nat.min_le_left ..
    rw [State.rdNat_wr, if_pos rfl, trunc16, BitVec.toNat_ofNat]; omega
  · exact h

/-- SEQ_TICK keeps the delay counter within the start delay (R262, R266). -/
theorem seqArm_dly_le {s : State} (h : s.rdNat seqDlyCnt ≤ s.cfg.seqStartDelay.toNat) :
    (seqArm s).rdNat seqDlyCnt ≤ s.cfg.seqStartDelay.toNat := by
  have kept : ∀ {u : State}, u.rd seqDlyCnt = s.rd seqDlyCnt → u.rdNat seqDlyCnt ≤ s.cfg.seqStartDelay.toNat :=
    fun hu => by rwa [State.rdNat, hu]
  unfold seqArm
  split
  · exact seqInitArm_dly s
  · split
    · exact kept (by rw [seqIdleArm_rd _ _ (by decide) (by decide), seqAutoClear_rd_ne _ (by decide) (by decide),
        seqRearm_rd_ne _ (by decide) (by decide)])
    · split
      · exact kept (seqOnArm_rd_ne _ s (by decide) (by decide))
      · split
        · rw [seqOffArm, State.rdNat_wr, if_pos rfl]; exact Nat.zero_le _
        · exact kept (State.rd_wr_ne s _ (by decide))

/-- SEQ_TICK keeps the retry counter within its budget (R263, R264). -/
theorem seqArm_retry_le {s : State} (h : s.rdNat seqRetryCnt ≤ s.cfg.retryBudget.toNat) :
    (seqArm s).rdNat seqRetryCnt ≤ s.cfg.retryBudget.toNat := by
  have kept : ∀ {u : State}, u.rd seqRetryCnt = s.rd seqRetryCnt → u.rdNat seqRetryCnt ≤ s.cfg.retryBudget.toNat :=
    fun hu => by rwa [State.rdNat, hu]
  unfold seqArm
  split
  · exact kept (seqInitArm_rd_ne s (by decide) (by decide) (by decide))
  · split
    · have hcfg : (seqRearm s).cfg = s.cfg := by unfold seqRearm; split <;> rfl
      have hauto := seqAutoClear_retry_le (hcfg ▸ (seqRearm_retry_le s).trans h)
      rw [State.rdNat, seqIdleArm_rd _ _ (by decide) (by decide), ← hcfg]
      exact hauto
    · split
      · exact kept (seqOnArm_rd_ne _ s (by decide) (by decide))
      · split
        · exact kept (by rw [seqOffArm, State.rd_wr_ne _ _ (by decide), State.rd_wr_ne _ _ (by decide),
            State.rd_wrField, if_neg (by decide)])
        · exact kept (State.rd_wr_ne s _ (by decide))

/-- SEQ_TICK keeps every counter of tmctrl in range (R261). -/
theorem seqArm_tmctrlInRange {s : State} (h : tmctrlInRange s) : tmctrlInRange (seqArm s) := by
  obtain ⟨hdly, hretry, hcnt⟩ := h
  have word : ∀ a : Addr, 0x14 ≤ a.toNat → (seqArm s).rd a = s.rd a := fun a ha => by
    refine seqArm_rd_ne s ?_ ?_ ?_ ?_ <;> (rintro rfl; exact absurd ha (by decide))
  unfold tmctrlInRange
  rw [(seqArm_rteOnly s).cfg]
  refine ⟨seqArm_dly_le hdly, seqArm_retry_le hretry, fun g => ?_⟩
  rw [State.rdNat, State.bit, word _ (by cases g <;> decide), word _ (by decide)]
  exact hcnt g

/-- Every conforming operation keeps the counters of tmctrl in range (R23, R311). -/
theorem effect_tmctrlInRange (i : Instr) {s : State} (hc : s.cfg.wf = true) (hl : layoutsConform s.cfg = true)
    (ho : opConforms s i = true) (hi : Instr.wf s.cfg i = true) (h : tmctrlInRange s) : tmctrlInRange (effect i s) := by
  have about := tmctrlInRange_aboutWords
  by_cases hmay : mayWrite i .tmctrl = false
  · exact about.keeps_effect hc hl ho hi hmay h
  · cases i <;> simp [mayWrite] at hmay
    case reset =>
      obtain ⟨-, hreset, -⟩ := (countersInRange_iff _).mp (countersInRange_resetWith hc)
      exact about.keeps_reset (by decide) hc hreset
    case gpioTick =>
      have halt := debounce_rteOnly .halt s
      have swen := halt.trans (debounce_rteOnly .swen _)
      have bulk := swen.trans (debounce_rteOnly .bulk _)
      exact about.keeps_latchUpdate (by decide) hc bulk (debounce_tmctrlInRange .bulk (swen.cfg ▸ hc)
        (debounce_tmctrlInRange .swen (halt.cfg ▸ hc) (debounce_tmctrlInRange .halt hc h)))
    case seqTick =>
      exact about.keeps_latchUpdate (by decide) hc (seqArm_rteOnly s) (seqArm_tmctrlInRange h)

end Sys2Proof.Machine

/-! The fan target (spec/10_state.md R50), and all the ranges together. -/

namespace Sys2Proof.Machine

/-- FAN_TARGET keeps to FAN_RPM_MAX (R50). -/
def targetInRange (s : State) : Prop := s.rdNat fanTarget ≤ s.cfg.fanRpmMax.toNat

theorem targetInRange_aboutWords : AboutWordsOf .fanctrl targetInRange := by
  intro s t _ hcfg hrd h
  rw [targetInRange, State.rdNat, hrd _ (ownerOf_fanTarget _), hcfg]
  exact h

/-- Every conforming operation keeps FAN_TARGET in range: FAN_TICK clamps it, RESET zeroes it, and the operations on
the fans' records leave it (R23, R50, R216). -/
theorem effect_targetInRange (i : Instr) {s : State} (hc : s.cfg.wf = true) (hl : layoutsConform s.cfg = true)
    (ho : opConforms s i = true) (hi : Instr.wf s.cfg i = true) (h : targetInRange s) : targetInRange (effect i s) := by
  have about := targetInRange_aboutWords
  have hn := (Config.nfan_bounds hc).2
  by_cases hmay : mayWrite i .fanctrl = false
  · exact about.keeps_effect hc hl ho hi hmay h
  · cases i <;> simp [mayWrite] at hmay
    case reset =>
      obtain ⟨-, -, hreset⟩ := (countersInRange_iff _).mp (countersInRange_resetWith hc)
      exact about.keeps_reset (by decide) hc hreset
    case fanTick =>
      have hrun : RteOnly s (fanTick s) := ((RteOnly.wr ..).trans (RteOnly.foldl (arbitrateFan_rteOnly _) _ _)).trans
        (RteOnly.foldl (slewFan_rteOnly _ _) _ _)
      have hset : targetInRange (fanTick s) := by
        rw [targetInRange, fanTick_target s hc, hrun.cfg]
        exact targetSpeed_le s
      exact about.keeps_latchUpdate (by decide) hc hrun hset
    case tachPulse k =>
      have hkept : targetInRange (s.wr (fanAddr k .pulse) (trunc16 (satU16 (s.rdNat (fanAddr k .pulse) + 1)))) := by
        rw [targetInRange, State.rdNat_wr, if_neg (ne_fanAddr k.isLt .pulse (by decide))]
        exact h
      exact about.keeps_latchUpdate (by decide) hc (RteOnly.wr ..) hkept
    case fanstatTick =>
      have hrun := RteOnly.foldl fanstatFan_rteOnly (fans s.cfg) s
      have hkept : targetInRange ((fans s.cfg).foldl fanstatFan s) := by
        rw [targetInRange, State.rdNat, hrun.cfg,
          fanstatTick_rd_ne s fun j hj x _ _ => ne_fanAddr (by omega) x (by decide)]
        exact h
      exact about.keeps_latchUpdate (by decide) hc hrun hkept

/-- Settles O40: each owner's counters are kept in range by the operations that may write them, and the other
operations leave them. -/
theorem countersStayInRange : Obligations.CountersStayInRange := by
  intro s t hco h hstep
  refine step_keeps_conforming (Inv := fun u => countersInRange u ∧ failureBitsAgree u) (fun _ _ hu => hu)
    (fun i u v hc hl ho hu hexec => ?_) hco h hstep
  obtain ⟨hi, rfl⟩ := exec_next hexec
  obtain ⟨hcounters, hbits⟩ := hu
  obtain ⟨hlive, htm, hfan⟩ := (countersInRange_iff u).mp hcounters
  obtain ⟨klive, kbits⟩ := effect_livenessInRange i hc hl ho hi ⟨hlive, hbits⟩
  have ktm := effect_tmctrlInRange i hc hl ho hi htm
  have kfan := effect_targetInRange i hc hl ho hi hfan
  exact ⟨(countersInRange_iff (effect i u)).mpr ⟨klive, ktm, kfan⟩, kbits⟩

end Sys2Proof.Machine

/-! LIVE_TICK, and a run of them (spec/42_intcom.md R195 to R197). -/

namespace Sys2Proof.Machine

/-- LIVE_TICK's own writes, the latch rule still to come (R195). -/
def liveTicked (s : State) : State := liveStep .sec (liveStep .pri s)

/-- LIVE_TICK counts and reports, and the latch rule follows (R16, R195). -/
theorem exec_liveTick (s : State) : exec .liveTick s = .next ((latchUpdate (liveTicked s)).withResult .none) := rfl

theorem liveTicked_rteOnly (s : State) : RteOnly s (liveTicked s) :=
  (liveStep_rteOnly .pri s).trans (liveStep_rteOnly .sec _)

/-- LIVE_TICK writes COM_STAT and the two counters only (R195). -/
theorem liveTicked_rd_ne (s : State) {a : Addr} (hcom : a ≠ comStat) (hcnt : ∀ p, a ≠ liveCnt p) :
    (liveTicked s).rd a = s.rd a := by
  rw [liveTicked, liveStep_rd_ne _ _ (hcnt .sec) hcom, liveStep_rd_ne _ _ (hcnt .pri) hcom]

/-- Each counter counts once in a LIVE_TICK (R195). -/
theorem liveTicked_counter (s : State) (p : Peer) : (liveTicked s).rdNat (liveCnt p) = s.rdNat (liveCnt p) - 1 := by
  cases p
  · rw [liveTicked, liveStep_counter_ne (by decide), liveStep_counter]
  · rw [liveTicked, liveStep_counter, liveStep_counter_ne (by decide)]

/-- LIVE_TICK sets UART_FAIL of the peers whose counter it leaves at 0 (R195, R196). -/
theorem liveTicked_uartFail (s : State) (p : Peer) : (liveTicked s).bit comStat (bUartFail p) =
    (s.bit comStat (bUartFail p) || decide ((liveTicked s).rdNat (liveCnt p) = 0)) := by
  rw [liveTicked_counter, liveTicked, liveStep_uartFail, liveStep_uartFail, liveStep_counter_ne (by decide)]
  cases p <;> simp [Nat.sub_eq_zero_iff_le]

/-- LIVE_TICK sets NO_DATA of the peers whose counter it leaves at 0 (R195, R196). -/
theorem liveTicked_noData (s : State) (p : Peer) : (liveTicked s).bit comStat (bNoData p) =
    (s.bit comStat (bNoData p) || decide ((liveTicked s).rdNat (liveCnt p) = 0)) := by
  rw [liveTicked_counter, liveTicked, liveStep_noData, liveStep_noData, liveStep_counter_ne (by decide)]
  cases p <;> simp [Nat.sub_eq_zero_iff_le]

/-- LIVE_TICK sets COM_FAULT when it leaves a counter at 0 while VIN_OK (R196). -/
theorem liveTicked_comFault (s : State) : (liveTicked s).bit comStat bComFault = true ↔
    s.bit comStat bComFault = true ∨ (s.bit sysIn bVinOk = true ∧ ∃ p, (liveTicked s).rdNat (liveCnt p) = 0) := by
  have some_peer : (∃ p, (liveTicked s).rdNat (liveCnt p) = 0) ↔
      s.rdNat (liveCnt .pri) ≤ 1 ∨ s.rdNat (liveCnt .sec) ≤ 1 := by
    simp only [liveTicked_counter, Nat.sub_eq_zero_iff_le]
    exact ⟨fun ⟨p, hp⟩ => by cases p <;> simp [hp], fun h => h.elim (⟨.pri, ·⟩) (⟨.sec, ·⟩)⟩
  have vin : (liveStep .pri s).bit sysIn bVinOk = s.bit sysIn bVinOk := by
    rw [State.bit, liveStep_rd_ne _ _ (by decide) (by decide), State.bit]
  rw [some_peer, liveTicked, liveStep_comFault, liveStep_comFault, liveStep_counter_ne (by decide), vin]
  simp only [Bool.or_eq_true, Bool.and_eq_true, decide_eq_true_eq]
  rw [or_assoc, ← or_and_right, and_comm]

/-- LIVE_TICK moves no other bit of COM_STAT (R196). -/
theorem liveTicked_bitsKept (s : State) :
    bitsKept s (liveTicked s) comStat [bUartFail .pri, bNoData .pri, bUartFail .sec, bNoData .sec, bComFault] := by
  intro n hn
  simp only [List.mem_cons, List.not_mem_nil, or_false, not_or] at hn
  obtain ⟨huPri, hnPri, huSec, hnSec, hfault⟩ := hn
  simp [liveTicked, liveStep_comStat, huPri, hnPri, huSec, hnSec, hfault]

/-- Settles O38: both steps, peer by peer, and then the latch rule. -/
theorem liveTickCountsDown : Obligations.LiveTickCountsDown := by
  intro s
  have latch : ∀ a, a ≠ fltLat → ∀ n, ((latchUpdate (liveTicked s)).withResult .none).bit a n
      = (liveTicked s).bit a n := fun a ha n => by
    rw [withResult_bit, State.bit_latchUpdate_ne _ ha]
  have com := latch comStat comStat_ne_fltLat
  have cnt : ∀ p, ((latchUpdate (liveTicked s)).withResult .none).rdNat (liveCnt p)
      = (liveTicked s).rdNat (liveCnt p) := fun p => by
    rw [withResult_rdNat, State.rdNat, State.rd_latchUpdate_ne _ (liveCnt_ne_fltLat p), State.rdNat]
  have source : ∀ a, a = fltRaw ∨ a = fltLat ∨ a = seqOut → (liveTicked s).rd a = s.rd a := fun a ha => by
    refine liveTicked_rd_ne s ?_ fun p => ?_
    · obtain rfl | rfl | rfl := ha <;> decide
    · exact ne_liveCnt_of_lt (by obtain rfl | rfl | rfl := ha <;> decide) p
  refine ⟨_, exec_liveTick s, rfl, ((liveTicked_rteOnly s).trans (latchUpdate_rteOnly _)).outsideKept _,
    fun p => ?_, ?_, fun n hn => ?_, ?_, fun a ha => ?_⟩
  · rw [cnt, com, com]
    exact ⟨liveTicked_counter s p, liveTicked_uartFail s p, liveTicked_noData s p⟩
  · simp only [com, cnt]
    exact liveTicked_comFault s
  · rw [com]
    exact liveTicked_bitsKept s n hn
  · have latched : latchedFrom s (latchUpdate (liveTicked s)) :=
      latchedFrom_of s (liveTicked s) _ rfl (source _ (.inl rfl)) (source _ (.inr (.inl rfl)))
        fun n _ => by rw [State.bit, source _ (.inr (.inr rfl)), State.bit]
    exact fun n => (withResult_bit ..).trans (latched n)
  · simp only [List.mem_cons, List.not_mem_nil, or_false, not_or] at ha
    obtain ⟨hcom, hpri, hsec, hlat⟩ := ha
    rw [withResult_rd, State.rd_latchUpdate_ne _ hlat]
    exact liveTicked_rd_ne s hcom fun p => by cases p <;> assumption

/-- Settles O39, by induction on the number of ticks: the counter goes down by one with each, and the tick that
leaves it at 0 reports the peer. -/
theorem silentPeerIsReportedAtTheNthTick : Obligations.SilentPeerIsReportedAtTheNthTick := by
  intro s p n
  induction n with
  | zero => exact ⟨s, rfl, rfl, fun _ => ⟨rfl, rfl⟩, nofun⟩
  | succ n ih =>
    obtain ⟨t, hrun, hcnt, hbefore, -⟩ := ih
    obtain ⟨u, hexec, -, -, hpeer, -⟩ := liveTickCountsDown t
    obtain ⟨ucnt, uuart, unodata⟩ := hpeer p
    have hleft : u.rdNat (liveCnt p) = s.rdNat (liveCnt p) - (n + 1) := by omega
    refine ⟨u, ?_, hleft, fun hlt => ?_, fun _ hle => ?_⟩
    · rw [repeatOp_succ]
      exact perform_snoc hrun hexec
    · have hnot : ¬ u.rdNat (liveCnt p) = 0 := by omega
      obtain ⟨tuart, tnodata⟩ := hbefore (by omega)
      rw [uuart, unodata, decide_eq_false hnot, Bool.or_false, Bool.or_false]
      exact ⟨tuart, tnodata⟩
    · have hzero : u.rdNat (liveCnt p) = 0 := by omega
      rw [uuart, unodata, decide_eq_true hzero, Bool.or_true, Bool.or_true]
      exact ⟨rfl, rfl⟩

end Sys2Proof.Machine

/-! TX_START, refused and accepted (spec/42_intcom.md R190, R192). -/

namespace Sys2Proof.Machine

/-- TX_START on a link that sends or receives records the refusal, and the latch rule follows (R16, R192). -/
theorem exec_txStart_refused {s : State} {p : Peer} (h : s.bit (frmStat p) bTxBusy = true ∨ 0 < (s.link p).rxCnt) :
    exec (.txStart p) s = .next ((latchUpdate (frmSet p bTxRefused s)).withResult .none) := by
  have hrefuses : txRefuses p s = true := by simpa [txRefuses] using h
  simp [exec, execTxStart, finish, hrefuses]

/-- Settles O41: one sticky bit is set, and the latch rule changes nothing where the latches agree with it. -/
theorem txStartIsRefused : Obligations.TxStartIsRefused := by
  intro s p h
  have step := (LinkOnly.frmSet p bTxRefused s).framerStep .none
  have rteOnly : RteOnly s (latchUpdate (frmSet p bTxRefused s)) := (RteOnly.wr ..).trans (latchUpdate_rteOnly _)
  have bits : ∀ n, ((latchUpdate (frmSet p bTxRefused s)).withResult .none).bit (frmStat p) n
      = if n = bTxRefused then true else s.bit (frmStat p) n := fun n => by
    rw [frm_bit_latched, frmSet_bit _ _ _ (by decide)]
  exact ⟨_, exec_txStart_refused h, rfl, rteOnly.outsideKept _, by rw [bits, if_pos rfl], bitsKept_singleton bits,
    step.latched, step.rd_fltLat, step.words⟩

/-- A run of bytes written from the start of a buffer that it fits leaves the bytes behind it. -/
theorem bufByte_past_written {s t : State} {b : BufName} {p : Peer} {f : List Byte} {k : Nat}
    (hbuf : (t.link p).buf b = bufWriteBytes ((s.link p).buf b) 0 f) (hepoch : t.epoch = s.epoch)
    (hlen : f.length ≤ bufMax) (hk : f.length ≤ k) : t.bufByte b p k = s.bufByte b p k := by
  rw [State.bufByte, hbuf, cellGet?_bufWriteBytes f _ 0 k (by omega), if_neg (by omega), hepoch, State.bufByte]

/-- Settles O42: the link holds the frame, its length and a cursor at its start, and TX_BUSY is raised. -/
theorem txStartBuildsFrame : Obligations.TxStartBuildsFrame := by
  intro s p hc hidle hcnt
  have step := (txBegin_linkOnly p s).framerStep .none
  have bits : ∀ n, ((latchUpdate (txBegin p s)).withResult .none).bit (frmStat p) n
      = if n = bTxBusy then true else s.bit (frmStat p) n := fun n => by rw [frm_bit_latched, txBegin_bit]
  have hlink := (link_latched (txBegin p s) .none p).trans (txBegin_link p s)
  have hexec := exec_txStart_begins hidle hcnt
  have hresult : ((latchUpdate (txBegin p s)).withResult .none).result = .none := rfl
  generalize (latchUpdate (txBegin p s)).withResult .none = t at step bits hlink hexec hresult
  obtain ⟨-, -, -, hepoch⟩ := step.outside
  have hfits : (outgoingFrame s p).length ≤ bufMax := (outgoingFrame_length s p).trans_le (flen_tx_le hc p)
  have hlen : (t.link p).txLen = (outgoingFrame s p).length := by rw [hlink]
  have hbuf : (t.link p).buf .txbuf = bufWriteBytes ((s.link p).buf .txbuf) 0 (outgoingFrame s p) := by rw [hlink]; rfl
  refine ⟨t, hexec, hresult, step.outside, hlen.trans (outgoingFrame_length s p), by rw [hlink], ?_, fun k hk => ?_,
    by rw [hlink], by rw [bits, if_pos rfl], bitsKept_singleton bits, step.latched, step.words⟩
  · rw [hlen]; exact bufBytes_of_written hbuf hfits
  · exact bufByte_past_written hbuf hepoch hfits (hlen ▸ hk)

end Sys2Proof.Machine

/-! RX_DRAIN: what follows the fields (spec/42_intcom.md R181, R186, R187). -/

namespace Sys2Proof.Machine

/-- RX_DRAIN with nothing pending (R181). -/
theorem exec_rxDrain_idle {s : State} {p : Peer} (h : s.bit (frmStat p) bRxPend = false) :
    exec (.rxDrain p) s = .next (s.withResult .none) := by
  simp [exec, execRxDrain, finish, h]

/-- RX_DRAIN of a pending frame (R181). -/
theorem exec_rxDrain_pending {s : State} {p : Peer} (h : s.bit (frmStat p) bRxPend = true) :
    exec (.rxDrain p) s = .next
      ((drainFinish p (drainFields p 1 (rxLayoutOf s.cfg p (s.link p).rxcBc) s)).withResult .none) := by
  simp [exec, execRxDrain, finish, h]

/-- There are two peers. -/
theorem exists_ne_peer_iff {P : Peer → Prop} (p : Peer) : (∃ q, q ≠ p ∧ P q) ↔ P (otherPeer p) := by
  constructor
  · rintro ⟨q, hq, h⟩
    cases p <;> cases q
    · exact absurd rfl hq
    · exact h
    · exact h
    · exact absurd rfl hq
  · exact fun h => ⟨otherPeer p, by cases p <;> decide, h⟩

/-- COM_FAULT falls with the last failed peer (R187). -/
theorem drainFinish_comFault (p : Peer) (u : State) : (drainFinish p u).bit comStat bComFault = true ↔
    u.bit comStat bComFault = true ∧ ∃ q, q ≠ p ∧ u.bit comStat (bUartFail q) = true := by
  obtain ⟨-, hcom, -, -⟩ := drainFinish_facts p u
  rw [hcom, exists_ne_peer_iff (P := fun q => u.bit comStat (bUartFail q) = true)]
  simp

/-- The end of RX_DRAIN moves the failure bits of its peer and COM_FAULT in COM_STAT, and nothing else of it
(R186, R187). -/
theorem drainFinish_comStat_ne {p : Peer} (u : State) {j : Nat} (hu : j ≠ bUartFail p) (hn : j ≠ bNoData p)
    (hf : j ≠ bComFault) : (drainFinish p u).bit comStat j = u.bit comStat j := by
  obtain ⟨-, hcom, -, -⟩ := drainFinish_facts p u
  simp [hcom, hu, hn, hf]

/-- Settles O53: the end of RX_DRAIN, word by word, over the state the fields leave. -/
theorem rxDrainCreditsThePeer : Obligations.RxDrainCreditsThePeer := by
  refine fun s p => ⟨exec_rxDrain_idle, ?_⟩
  intro hpend u
  have hfields : RteOnly s u := drainFields_rteOnly ..
  have hexec : exec (.rxDrain p) s = .next ((drainFinish p u).withResult .none) := exec_rxDrain_pending hpend
  clear_value u
  obtain ⟨hlive, hcom, hfrm, hlat⟩ := drainFinish_facts p u
  refine ⟨_, hexec, rfl, (hfields.trans (drainFinish_rteOnly p u)).outsideKept _, ?_, ?_, ?_,
    drainFinish_comFault p u, fun n hn => ?_, ?_, bitsKept_singleton hfrm, hlat, fun a ha => ?_⟩
  · rw [withResult_rd, hlive, hfields.cfg]
  · rw [withResult_bit, hcom]; simp
  · rw [withResult_bit, hcom]; simp
  · simp only [List.mem_cons, List.not_mem_nil, or_false, not_or] at hn
    obtain ⟨huart, hnodata, hfault⟩ := hn
    exact drainFinish_comStat_ne u huart hnodata hfault
  · rw [withResult_bit, hfrm, if_pos rfl]
  · simp only [List.mem_cons, List.not_mem_nil, or_false, not_or] at ha
    obtain ⟨hcnt, hstat, hframe, hlatch⟩ := ha
    exact drainFinish_rd_ne p u hcnt hstat hframe hlatch

/-- Settles O55: the fields set VERCHG bits as they differ, and the end of the operation moves none. -/
theorem rxDrainFlagsVersionChanges : Obligations.RxDrainFlagsVersionChanges := by
  intro s p g hpend l hn
  have kept : ∀ q, (drainFinish p (drainFields p 1 l s)).bit comStat (bVerChg q g)
      = (drainFields p 1 l s).bit comStat (bVerChg q g) := fun q =>
    drainFinish_comStat_ne _ (ne_bVerChg_of_lt (bUartFail_lt p) q g).symm (ne_bVerChg_of_lt (bNoData_lt p) q g).symm
      (ne_bVerChg_of_lt (by decide) q g).symm
  refine ⟨_, exec_rxDrain_pending hpend, ?_, fun q hq => ?_⟩
  · have image : ∀ e : Entry, bVerChg p g = bVerChg p e.img ↔ e.img = g := fun e => by
      rw [bVerChg_inj]
      exact ⟨fun h => h.2.symm, fun h => ⟨rfl, h.symm⟩⟩
    have flags := drainFields_comStat p l 1 s hn (bVerChg p g)
    rw [← kept] at flags
    simp only [image] at flags
    exact flags
  · exact (kept q).trans (drainFields_comStat_ne 1 s hn fun h e => hq (bVerChg_inj.mp e).1)

end Sys2Proof.Machine

/-! RX_DRAIN: the fields (spec/42_intcom.md R181, R183, R184). -/

namespace Sys2Proof.Machine

/-- Draining the fields leaves every word but COM_STAT that is no word of an entry (R181). -/
theorem drainFields_rd_unnamed {p : Peer} {l : Layout} (cur : Nat) (s : State) {a : Addr} (hcom : a ≠ comStat)
    (h : a ∉ l.flatMap Entry.words) : (drainFields p cur l s).rd a = s.rd a :=
  drainFields_rd_ne p l cur s hcom fun hnamed => h (List.mem_flatMap.mpr (layoutNames_words.mp hnamed))

/-- A word that no later entry names holds what its entry stored there (R181). -/
theorem drainFields_rd_entry {p : Peer} {l1 l2 : Layout} {e : Entry} (cur : Nat) (s : State) {a : Addr}
    (hcom : a ≠ comStat) (h : a ∉ l2.flatMap Entry.words) :
    ∃ u, (drainFields p cur (l1 ++ e :: l2) s).rd a =
      (storeEntry u e (drainedValue e (leValue (s.bufBytes .rxc p (cur + Layout.pay l1) e.bytes)))).rd a := by
  rw [drainFields_append, drainFields, drainFields_rd_unnamed _ _ hcom h,
    bufBytes_rteOnly (drainFields_rteOnly p l1 cur s), drainEntry]
  exact ⟨_, rfl⟩

/-- The first word of an entry, once stored: the low word of a 32-bit field, else the whole field (R88, R89). -/
theorem storeEntry_rdNat_addr (u : State) {e : Entry} {v : Nat} (hv : e.width ≠ .w32 → v < 65536) :
    (storeEntry u e v).rdNat e.addr = if e.width = .w32 then v % 65536 else v := by
  rw [State.rdNat, storeEntry_rd]
  cases hw : e.width
  · simp [trunc16, Nat.mod_eq_of_lt (hv (by simp [hw]))]
  · simp [trunc16, Nat.mod_eq_of_lt (hv (by simp [hw]))]
  · simp [trunc16]

/-- The second word of a 32-bit entry, once stored: the high word of the field (R88). -/
theorem storeEntry_rdNat_addr_succ (u : State) {e : Entry} {v : Nat} (hw : e.width = .w32) (hv : v < 256 ^ 4) :
    (storeEntry u e v).rdNat (e.addr + 1) = v / 65536 := by
  have hhigh : v / 65536 < 65536 := by omega
  rw [State.rdNat, storeEntry_rd, hw]
  simp [trunc16, hhigh]

/-- The entries of a layout of received frames meet L2 and L5 (R121). -/
theorem entry_of_rxWf {chk : ChkKind} {l : Layout} {e : Entry} (h : Layout.rxWf chk l = true) (he : e ∈ l) :
    e.widthOk = true ∧ e.rangeOk = true := by
  simp only [Layout.rxWf, Layout.wf, Bool.and_eq_true, List.all_eq_true] at h
  obtain ⟨⟨⟨⟨-, hwidth⟩, -⟩, -⟩, hrange⟩ := h
  exact ⟨hwidth e he, hrange e he⟩

/-- A field of 8 or 16 bits is stored as a word (R184, R89). -/
theorem drainedValue_lt_word {e : Entry} {bs : List Byte} (hr : e.rangeOk = true) (hw : e.width ≠ .w32)
    (hb : bs.length = e.bytes) : drainedValue e (leValue bs) < 65536 := by
  have hbytes : e.bytes ≤ 2 := by
    unfold Entry.bytes
    cases hk : e.width
    · decide
    · decide
    · exact absurd hk hw
  have hpow : 256 ^ bs.length ≤ 256 ^ 2 := Nat.pow_le_pow_right (by decide) (hb ▸ hbytes)
  exact drainedValue_lt hr ((leValue_lt bs).trans_le hpow)

/-- A 32-bit field is a VER field, stored as received (L2, R183). -/
theorem drainedValue_of_w32 {e : Entry} (hok : e.widthOk = true) (hw : e.width = .w32) (v : Nat) :
    drainedValue e v = v := by
  cases hk : e.kind
  case ver => simp [drainedValue, hk]
  all_goals simp [Entry.widthOk, hk, hw] at hok

/-- A field of 32 bits is stored as a pair of words (R88, R183). -/
theorem drainedValue_lt_of_w32 {e : Entry} {bs : List Byte} (hok : e.widthOk = true) (hw : e.width = .w32)
    (hb : bs.length = e.bytes) : drainedValue e (leValue bs) < 256 ^ 4 := by
  have hlen : bs.length = 4 := by rw [hb, Entry.bytes, hw]; rfl
  rw [drainedValue_of_w32 hok hw, ← hlen]
  exact leValue_lt bs

/-- Settles O54: each word holds what the last entry that names it stored there, and the end of the operation writes
its own words only. -/
theorem rxDrainStoresFields : Obligations.RxDrainStoresFields := by
  intro s p hc hpend l own
  have hwf : Layout.rxWf s.cfg.chkKind l = true := rxLayoutOf_wf hc p (s.link p).rxcBc
  have after : ∀ a, a ∉ own → ((drainFinish p (drainFields p 1 l s)).withResult .none).rd a
      = (drainFields p 1 l s).rd a := fun a ha => by
    simp only [own, List.mem_cons, List.not_mem_nil, or_false, not_or] at ha
    obtain ⟨hcnt, hstat, hframe, hlatch⟩ := ha
    exact drainFinish_rd_ne p _ hcnt hstat hframe hlatch
  have com : ∀ a, a ∉ own → a ≠ comStat := fun a ha e => ha (by simp [own, e])
  refine ⟨_, exec_rxDrain_pending hpend, fun a ha hnamed => ?_, ?_⟩
  · exact (after a ha).trans (drainFields_rd_unnamed 1 s (com a ha) hnamed)
  · intro l1 e l2 hl v
    obtain ⟨hwidth, hrange⟩ := entry_of_rxWf hwf (hl ▸ List.mem_append_right l1 (List.mem_cons_self ..))
    have stored : ∀ a, a ∉ own → a ∉ l2.flatMap Entry.words →
        ∃ u, ((drainFinish p (drainFields p 1 l s)).withResult .none).rdNat a = (storeEntry u e v).rdNat a :=
      fun a ha hlater => by
        obtain ⟨u, hu⟩ := drainFields_rd_entry (l1 := l1) (e := e) 1 s (com a ha) hlater
        exact ⟨u, by rw [State.rdNat, after a ha, hl, hu]; rfl⟩
    refine ⟨fun ha hlater => ?_, fun hw ha hlater => ?_⟩
    · obtain ⟨u, hu⟩ := stored _ ha hlater
      exact hu.trans (storeEntry_rdNat_addr u fun hw => drainedValue_lt_word hrange hw (State.bufBytes_length ..))
    · obtain ⟨u, hu⟩ := stored _ ha hlater
      exact hu.trans (storeEntry_rdNat_addr_succ u hw
        (drainedValue_lt_of_w32 hwidth hw (State.bufBytes_length ..)))

end Sys2Proof.Machine

/-! The clamp of a calibration field (spec/42_intcom.md R184). -/

namespace Sys2Proof.Machine

/-- A word is told by its value. -/
theorem trunc16_toNat (w : Word) : trunc16 w.toNat = w := by
  rw [trunc16, BitVec.ofNat_toNat, BitVec.setWidth_eq]

/-- A value in the two's complement range is read back from its word (R13). -/
theorem s16_u16 {v : Int} (hlo : -32768 ≤ v) (hhi : v ≤ 32767) : s16 (u16 v) = v := by
  rw [s16, u16, BitVec.toInt_ofInt]
  exact Int.bmod_eq_of_le (by omega) (by omega)

/-- Settles O56: the clamp of each sign lies in the range of that sign, so the word holds it exactly. -/
theorem calibrationIsClamped : Obligations.CalibrationIsClamped := by
  refine fun e w => ⟨fun hk => ?_, fun hk hr => ?_⟩
  · unfold drainedValue
    split
    · exact absurd ‹_› hk
    · rfl
  · have hclamp : drainedValue e w.toNat = clampCal e w.toNat := by simp [drainedValue, hk]
    simp only [Entry.rangeOk, hk, Bool.and_eq_true, decide_eq_true_eq] at hr
    obtain ⟨hle, hsign⟩ := hr
    refine ⟨fun hs => ?_, fun hs => ⟨?_, ?_⟩⟩
    · simp only [hs, Bool.false_eq_true, if_false, Bool.and_eq_true, decide_eq_true_eq] at hsign
      rw [hclamp, clampCal, hs, if_neg Bool.false_ne_true]
      omega
    · simp only [hs, if_true, Bool.and_eq_true, decide_eq_true_eq] at hsign
      rw [hclamp, clampCal, hs, if_pos rfl, trunc16_toNat, trunc16_toNat]
      exact s16_u16 (by omega) (by omega)
    · rw [hclamp, clampCal, hs, if_pos rfl]
      exact BitVec.isLt _

end Sys2Proof.Machine

/-! The baseline of a stage table (spec/43_fanctrl.md R213, R216). -/

namespace Sys2Proof.Machine

/-- PWL is its loop over the whole table, whatever the table (R213). -/
theorem exists_pwl_eq_pwlFrom {tbl : List Stage} (h : stagesWf tbl = true) (t : Int) :
    ∃ below, pwl tbl t = pwlFrom below tbl t := by
  cases tbl with
  | nil => exact ⟨0, rfl⟩
  | cons a l => exact ⟨a.smin.toNat, pwl_eq h t⟩

/-- At and below the first stage's temperature the baseline is that stage's minimum (R213). -/
theorem pwl_of_le_tmin {st : Stage} {t : Int} (h : t ≤ s16 st.tmin) (rest : List Stage) :
    pwl (st :: rest) t = st.smin.toNat := if_pos h

/-- Inside a stage the baseline is the interpolation (R213). -/
theorem pwl_in_stage {tbl : List Stage} {st : Stage} {t : Int} (h : stagesWf tbl = true) (hst : st ∈ tbl)
    (hmin : s16 st.tmin ≤ t) (hmax : t < s16 st.tmax) : pwl tbl t = stageSpeed st t := by
  obtain ⟨below, hloop⟩ := exists_pwl_eq_pwlFrom h t
  rw [hloop, pwlFrom_in hst below h hmin hmax]

/-- At and above the end of a stage the baseline depends on that stage's maximum and the later stages only (R213). -/
theorem pwl_past_stage {l r : List Stage} {a : Stage} {t : Int} (h : stagesWf (l ++ a :: r) = true)
    (hmax : s16 a.tmax ≤ t) : pwl (l ++ a :: r) t = pwlFrom a.smax.toNat r t := by
  obtain ⟨below, hloop⟩ := exists_pwl_eq_pwlFrom h t
  rw [hloop, pwlFrom_skip below h hmax]

/-- Settles O29: past a stage the loop stops at once where the table ends or the next stage has not begun. -/
theorem baselineSpeed : Obligations.BaselineSpeed := by
  intro tbl t h
  refine ⟨?_, fun st hst hmin hmax => pwl_in_stage h hst hmin hmax, ?_, ?_⟩
  · rintro st rest rfl hle
    exact pwl_of_le_tmin hle rest
  · rintro l a b r rfl hmax hmin
    rw [pwl_past_stage h hmax, pwlFrom, if_pos hmin]
  · rintro l st rfl hmax
    rw [pwl_past_stage h hmax, pwlFrom]

/-- Settles O30: the loop never falls when the temperature rises, and PWL is that loop from the first stage on. -/
theorem baselineSpeedIsMonotone : Obligations.BaselineSpeedIsMonotone := by
  intro tbl t u h htu
  cases tbl with
  | nil => exact le_refl _
  | cons a l =>
    have starts : ∀ b r, a :: l = b :: r → (a.smin.toNat : Int) ≤ b.smin.toNat := by
      rintro b r ⟨⟩
      exact le_refl _
    rw [pwl_eq h, pwl_eq h]
    exact (pwlFrom_mono h starts t u htu).2

end Sys2Proof.Machine

/-! TACH_PULSE, and what the latch rule and the result at the end of an operation do to the words of the fans
(spec/00_scope.md R16, spec/43_fanctrl.md R230). -/

namespace Sys2Proof.Machine

/-- The end of an operation touches FLT_LAT only (R16). -/
theorem rd_latched_ne (u : State) (r : Result) {a : Addr} (h : a ≠ fltLat) :
    ((latchUpdate u).withResult r).rd a = u.rd a := by rw [withResult_rd, State.rd_latchUpdate_ne u h]

/-- The latch rule works on the words the operation found, when its own writes left its three words alone (R275). -/
theorem latchedFrom_latched {s u : State} (r : Result)
    (h : ∀ a, a = fltRaw ∨ a = fltLat ∨ a = seqOut → u.rd a = s.rd a) :
    latchedFrom s ((latchUpdate u).withResult r) := fun n =>
  (withResult_bit ..).trans (latchedFrom_of s u _ rfl (h _ (.inl rfl)) (h _ (.inr (.inl rfl)))
    (fun _ _ => by rw [State.bit, h _ (.inr (.inr rfl)), State.bit]) n)

/-- No word of a fan is FLT_LAT (R22, R51). -/
theorem fanAddr_ne_fltLat {i : Nat} (hi : i < 4) (x : FanWord) : fanAddr i x ≠ fltLat :=
  (ne_fanAddr hi x (by decide)).symm

/-- Different words of two fans, or of one, are at different addresses (R51). -/
theorem fanAddr_ne_of_word {i j : Nat} (hi : i < 4) (hj : j < 4) {x y : FanWord} (h : x ≠ y) :
    fanAddr i x ≠ fanAddr j y := fun e => h ((fanAddr_inj hi hj).1 e).2

/-- The end of an operation leaves the words of the fans (R16). -/
theorem rd_fan_latched (u : State) (r : Result) {i : Nat} (hi : i < 4) (x : FanWord) :
    ((latchUpdate u).withResult r).rd (fanAddr i x) = u.rd (fanAddr i x) := rd_latched_ne u r (fanAddr_ne_fltLat hi x)

theorem rdNat_fan_latched (u : State) (r : Result) {i : Nat} (hi : i < 4) (x : FanWord) :
    ((latchUpdate u).withResult r).rdNat (fanAddr i x) = u.rdNat (fanAddr i x) :=
  congrArg BitVec.toNat (rd_fan_latched u r hi x)

theorem bit_fan_latched (u : State) (r : Result) {i : Nat} (hi : i < 4) (x : FanWord) (n : Nat) :
    ((latchUpdate u).withResult r).bit (fanAddr i x) n = u.bit (fanAddr i x) n :=
  congrArg (BitVec.getLsbD · n) (rd_fan_latched u r hi x)

/-- A saturated value is held exactly by its word (R13). -/
theorem trunc16_satU16_toNat (n : Nat) : (trunc16 (satU16 n)).toNat = min n 65535 := by
  rw [trunc16, BitVec.toNat_ofNat]
  exact Nat.mod_eq_of_lt (Nat.lt_succ_of_le (Nat.min_le_right n 65535))

/-- TACH_PULSE writes one word, and the latch rule follows (R16, R230). -/
theorem exec_tachPulse {s : State} {i : Fin 4} (h : i.val < s.cfg.nfan) : exec (.tachPulse i) s = .next
    ((latchUpdate (s.wr (fanAddr i .pulse) (trunc16 (satU16 (s.rdNat (fanAddr i .pulse) + 1))))).withResult
      .none) :=
  exec_of_wf _ s (decide_eq_true h)

/-- TACH_PULSE of a fan that does not exist is refused (R114). -/
theorem exec_tachPulse_refused {s : State} {i : Fin 4} (h : s.cfg.nfan ≤ i.val) :
    exec (.tachPulse i) s = .refused (.noSuchFan i) := if_neg (Nat.not_lt.mpr h)

/-- Settles O34: one write of the fan's PULSE word, which none of the latch rule's words is. -/
theorem tachPulseCounts : Obligations.TachPulseCounts := by
  refine fun s i => ⟨fun hi => ?_, exec_tachPulse_refused⟩
  have others : ∀ a, a = fltRaw ∨ a = fltLat ∨ a = seqOut → a ≠ fanAddr i .pulse := fun a ha =>
    ne_fanAddr i.isLt .pulse (by obtain rfl | rfl | rfl := ha <;> decide)
  refine ⟨_, exec_tachPulse hi, rfl, ((RteOnly.wr ..).trans (latchUpdate_rteOnly _)).outsideKept _, ?_,
    latchedFrom_latched _ fun a ha => State.rd_wr_ne s _ (others a ha), fun a ha => ?_⟩
  · rw [rdNat_fan_latched _ _ i.isLt, State.rdNat_wr, if_pos rfl, trunc16_satU16_toNat]
  · simp only [List.mem_cons, List.not_mem_nil, or_false, not_or] at ha
    rw [rd_latched_ne _ _ ha.2, State.rd_wr_ne _ _ ha.1]

end Sys2Proof.Machine

/-! FAN_TICK's target (spec/43_fanctrl.md R212 to R216). -/

namespace Sys2Proof.Machine

/-- FAN_TICK makes its own writes, and the latch rule follows (R16, R211). -/
theorem exec_fanTick (s : State) : exec .fanTick s = .next ((latchUpdate (fanTick s)).withResult .none) :=
  exec_of_wf .fanTick s rfl

/-- The load term as the shift the rule writes (R214). -/
theorem loadTerm_eq_shift (s : State) : loadTerm s = if s.rdNat loadMeas > s.cfg.loadThr.toNat then
    ((s.rdNat loadMeas - s.cfg.loadThr.toNat) * s.cfg.loadSlope.toNat) >>> 12 else 0 := by
  rw [Nat.shiftRight_eq_div_pow, loadTerm, fanQ]

/-- The line-voltage term as the shift the rule writes (R215). -/
theorem vinTerm_eq_shift (s : State) : vinTerm s = if s.cfg.fanVinEn then
    (s.rdNat vinMeas * s.cfg.vinSlope.toNat) >>> 12 else 0 := by
  rw [Nat.shiftRight_eq_div_pow, vinTerm, fanQ]

/-- The table of either line is well-formed (WF3 to WF6). -/
theorem stagesWf_lineTable {s : State} (hc : s.cfg.wf = true) : stagesWf (lineTable s) = true := by
  obtain ⟨hlo, hhi⟩ := Config.wf_tables hc
  rw [lineTable]
  split <;> assumption

/-- The clamped sum is never negative, so the target is that sum (R216). -/
theorem targetSpeed_eq_min {s : State} (hc : s.cfg.wf = true) : (targetSpeed s : Int)
    = min (pwl (lineTable s) (tempSelect s) + loadTerm s + vinTerm s) s.cfg.fanRpmMax.toNat := by
  have hbase := pwl_nonneg (stagesWf_lineTable hc) (tempSelect s)
  exact Int.toNat_of_nonneg (le_min (by omega) (Int.natCast_nonneg _))

/-- Settles O31: FAN_TARGET holds the target, and the target is the clamped sum of the three terms. -/
theorem fanTickStoresTarget : Obligations.FanTickStoresTarget := by
  intro s hc
  refine ⟨_, exec_fanTick s, ?_⟩
  intro temp table load vin
  have htemp : tempSelect s = temp := rfl
  have htable : lineTable s = table := rfl
  have hload : (loadTerm s : Int) = load := congrArg _ (loadTerm_eq_shift s)
  have hvin : (vinTerm s : Int) = vin := congrArg _ (vinTerm_eq_shift s)
  have hstored : ((latchUpdate (fanTick s)).withResult .none).rdNat fanTarget = targetSpeed s :=
    (congrArg BitVec.toNat (rd_latched_ne _ _ (by decide))).trans (fanTick_target s hc)
  rw [hstored, targetSpeed_eq_min hc, htemp, htable, hload, hvin]

end Sys2Proof.Machine

/-! FANSTAT_TICK (spec/43_fanctrl.md R231 to R233). -/

namespace Sys2Proof.Machine

/-- FANSTAT_TICK makes its own writes fan by fan, and the latch rule follows (R16, R231). -/
theorem exec_fanstatTick (s : State) :
    exec .fanstatTick s = .next ((latchUpdate ((fans s.cfg).foldl fanstatFan s)).withResult .none) :=
  exec_of_wf .fanstatTick s rfl

/-- A FANSTAT_TICK leaves each fan's record as its own window left it (R16, R231). -/
theorem rd_fan_of_fanstatTick {s t : State} {i : Nat} (hc : s.cfg.wf = true) (hi : i < s.cfg.nfan)
    (ht : exec .fanstatTick s = .next t) (x : FanWord) :
    t.rd (fanAddr i x) = ((fans s.cfg).foldl fanstatFan s).rd (fanAddr i x) := by
  obtain ⟨-, rfl⟩ := exec_next ht
  exact rd_fan_latched _ _ (hi.trans_le (Config.nfan_bounds hc).2) x

/-- The speed of the window is stored, and the count starts again (R231, R233). -/
theorem fanstatTick_speed {s t : State} {i : Nat} (hc : s.cfg.wf = true) (hi : i < s.cfg.nfan)
    (ht : exec .fanstatTick s = .next t) :
    t.rdNat (fanAddr i .speed) = windowSpeed s.cfg (s.rd (fanAddr i .pulse)) ∧ t.rdNat (fanAddr i .pulse) = 0 := by
  obtain ⟨hspeed, hpulse, -⟩ := fanstat_at s hc hi
  simp only [State.rdNat, rd_fan_of_fanstatTick hc hi ht]
  rw [hspeed, hpulse]
  exact ⟨trunc16_satU16_toNat _, rfl⟩

/-- The three counters of consecutive windows (R232). -/
theorem fanstatTick_counters {s t : State} {i : Nat} (hc : s.cfg.wf = true) (hi : i < s.cfg.nfan)
    (ht : exec .fanstatTick s = .next t) :
    let spd := windowSpeed s.cfg (s.rd (fanAddr i .pulse))
    t.rdNat (fanAddr i .warnCnt)
        = (if spd < s.cfg.warnThr.toNat then min (s.rdNat (fanAddr i .warnCnt) + 1) 65535 else 0)
      ∧ t.rdNat (fanAddr i .failCnt)
        = (if spd < s.cfg.failThr.toNat then min (s.rdNat (fanAddr i .failCnt) + 1) 65535 else 0)
      ∧ t.rdNat (fanAddr i .okCnt)
        = (if spd > s.cfg.recovThr.toNat then min (s.rdNat (fanAddr i .okCnt) + 1) 65535 else 0) := by
  obtain ⟨-, -, hwarn, hfail, hok, -⟩ := fanstat_at s hc hi
  simp only [State.rdNat, rd_fan_of_fanstatTick hc hi ht]
  rw [hwarn, hfail, hok]
  exact ⟨countWindow_toNat _ _, countWindow_toNat _ _, countWindow_toNat _ _⟩

/-- The status bits: with INPUT_OK the judgments on the counters just written, else as before (R231, R232). -/
theorem fanstatTick_stat_bit {s t : State} {i : Nat} (hc : s.cfg.wf = true) (hi : i < s.cfg.nfan)
    (ht : exec .fanstatTick s = .next t) (n : Nat) : t.bit (fanAddr i .stat) n =
      if s.bit sysIn bInputOk then
        (if n = bWarn then !decide (s.cfg.mOk.toNat ≤ t.rdNat (fanAddr i .okCnt))
            && (s.bit (fanAddr i .stat) bWarn || decide (s.cfg.nWarn.toNat ≤ t.rdNat (fanAddr i .warnCnt)))
          else if n = bFail then !decide (s.cfg.mOk.toNat ≤ t.rdNat (fanAddr i .okCnt))
            && (s.bit (fanAddr i .stat) bFail || decide (s.cfg.nFail.toNat ≤ t.rdNat (fanAddr i .failCnt)))
          else s.bit (fanAddr i .stat) n)
      else s.bit (fanAddr i .stat) n := by
  obtain ⟨-, -, hwarn, hfail, hok, hstat⟩ := fanstat_at s hc hi
  simp only [State.bit, State.rdNat, rd_fan_of_fanstatTick hc hi ht]
  rw [hstat, hwarn, hfail, hok, State.bit]
  split
  · exact judge_bit ..
  · rfl

/-- Settles O35: each fan's words after the window, one group after another, and the frame of the six words. -/
theorem fanstatTickJudgesEveryFan : Obligations.FanstatTickJudgesEveryFan := by
  intro s hc
  have hn := (Config.nfan_bounds hc).2
  have source : ∀ a, a = fltRaw ∨ a = fltLat ∨ a = seqOut → ((fans s.cfg).foldl fanstatFan s).rd a = s.rd a :=
    fun a ha => fanstatTick_rd_ne s fun j hj x _ _ =>
      ne_fanAddr (by omega) x (by obtain rfl | rfl | rfl := ha <;> decide)
  refine ⟨_, exec_fanstatTick s, rfl,
    ((RteOnly.foldl fanstatFan_rteOnly _ _).trans (latchUpdate_rteOnly _)).outsideKept _,
    latchedFrom_latched _ source, fun a hlat ha => ?_, fun i hi => ?_⟩
  · rw [rd_latched_ne _ _ hlat]
    refine fanstatTick_rd_ne s fun j hj x hovr hduty => ?_
    obtain ⟨hpulse, hspeed, hwarn, hfail, hok, hstat⟩ := ha j hj
    cases x with
    | ovr => exact absurd rfl hovr
    | duty => exact absurd rfl hduty
    | pulse => exact hpulse
    | speed => exact hspeed
    | stat => exact hstat
    | warnCnt => exact hwarn
    | failCnt => exact hfail
    | okCnt => exact hok
  · have ht := exec_fanstatTick s
    intro spd w f k
    obtain ⟨hspeed, hpulse⟩ := fanstatTick_speed hc hi ht
    obtain ⟨hwarn, hfail, hok⟩ : _ = w ∧ _ = f ∧ _ = k := fanstatTick_counters hc hi ht
    have hstat := fanstatTick_stat_bit hc hi ht
    rw [hwarn, hfail, hok] at hstat
    refine ⟨hspeed, hpulse, hwarn, hfail, hok, fun n hn => ?_, hstat bWarn, hstat bFail⟩
    simp only [List.mem_cons, List.not_mem_nil, or_false, not_or] at hn
    rw [hstat, if_neg hn.1, if_neg hn.2, ite_self]

/-- Settles O36: a counter at its limit is not 0, so the window's speed is above RECOV_THR, and the other two counters
are 0. -/
theorem judgmentsAreExclusive : Obligations.JudgmentsAreExclusive := by
  intro s t i hc hi ht hlimit
  obtain ⟨-, hfail_le, hwarn_le, -⟩ := Config.wf_orders hc
  obtain ⟨hnWarn, hnFail, hmOk, -⟩ := Config.wf_counts hc
  obtain ⟨hwarn, hfail, hok⟩ := fanstatTick_counters hc hi ht
  have recovered : windowSpeed s.cfg (s.rd (fanAddr i .pulse)) > s.cfg.recovThr.toNat := by
    by_contra hle
    rw [hok, if_neg hle] at hlimit
    omega
  rw [hwarn, hfail, if_neg (by omega), if_neg (by omega)]
  exact ⟨hnWarn, hnFail⟩

end Sys2Proof.Machine

/-! FAN_TICK step by step: the arbitration of every fan, and then the slew of every fan (spec/43_fanctrl.md R211, R217 to
R223). -/

namespace Sys2Proof.Machine

/-- FAN_TICK after its steps 1 and 2: the target is stored and every fan is arbitrated (R211). -/
def arbitrateFans (s : State) : State :=
  (fans s.cfg).foldl (arbitrateFan (targetSpeed s)) (s.wr fanTarget (trunc16 (targetSpeed s)))

/-- The error of a fan: its effective speed against the fastest fan (R220). -/
def fanError (s : State) (i : Nat) : Int := (effSpeed s (targetSpeed s) i : Int) - maxSpeed (arbitrateFans s)

/-- Step 3 of FAN_TICK starts where step 2 ended (R211). -/
theorem fanTick_eq_slew (s : State) : fanTick s =
    (fans s.cfg).foldl (slewFan (anyOverride (arbitrateFans s)) (fanError s)) (arbitrateFans s) := rfl

theorem arbitrateFans_rteOnly (s : State) : RteOnly s (arbitrateFans s) :=
  (RteOnly.wr ..).trans (RteOnly.foldl (arbitrateFan_rteOnly _) _ _)

theorem fanTick_rteOnly (s : State) : RteOnly s (fanTick s) :=
  (arbitrateFans_rteOnly s).trans (RteOnly.foldl (slewFan_rteOnly _ _) _ _)

/-- Steps 1 and 2 write the target and two words of each fan (R211). -/
theorem arbitrateFans_rd_ne (s : State) {a : Addr} (h0 : a ≠ fanTarget)
    (h : ∀ i, i < s.cfg.nfan → a ≠ fanAddr i .ovr ∧ a ≠ fanAddr i .stat) : (arbitrateFans s).rd a = s.rd a := by
  have untouched : ∀ i ∈ fans s.cfg, ¬ (a = fanAddr i .ovr ∨ a = fanAddr i .stat) := fun i hi =>
    not_or.mpr (h i (mem_fans.1 hi))
  rw [arbitrateFans, foldl_rd_ne (T := fun i a => a = fanAddr i .ovr ∨ a = fanAddr i .stat)
    (fun u i _ hu => arbitrateFan_rd_ne _ u i (not_or.mp hu).1 (not_or.mp hu).2) _ untouched]
  exact State.rd_wr_ne _ _ h0

/-- The slew of some fans writes their duties only (R222). -/
theorem slewFans_rd_ne (o : Bool) (e : Nat → Int) {l : List Nat} (s : State) {a : Addr}
    (h : ∀ i ∈ l, a ≠ fanAddr i .duty) : (l.foldl (slewFan o e) s).rd a = s.rd a :=
  foldl_rd_ne (T := fun i a => a = fanAddr i .duty) (fun u i _ hu => slewFan_rd_ne o e u i hu) s h

/-- The next duty reads SYS_IN and the configuration only (R222, R223). -/
theorem nextDuty_congr {s u : State} (hcfg : u.cfg = s.cfg) (hsys : u.rd sysIn = s.rd sysIn) (o : Bool) (duty : Nat)
    (err : Int) : nextDuty u o duty err = nextDuty s o duty err := by
  unfold nextDuty State.bit
  rw [hcfg, hsys]

/-- The slew of every fan, at one fan (R222, R223). -/
theorem slewFans_duty {s : State} (hn : s.cfg.nfan ≤ 4) (o : Bool) (e : Nat → Int) {i : Nat} (hi : i < s.cfg.nfan) :
    ((fans s.cfg).foldl (slewFan o e) s).rd (fanAddr i .duty)
      = nextDuty s o (s.rdNat (fanAddr i .duty)) (e i) := by
  obtain ⟨u, hu, key⟩ := foldl_at (T := fun j a => a = fanAddr j .duty) (slewFan_rteOnly o e)
    (fun v j a h => slewFan_rd_ne o e v j h) (fans_nodup s.cfg) (mem_fans.2 hi) s
  have own : ∀ j ∈ fans s.cfg, j ≠ i → fanAddr i .duty ≠ fanAddr j .duty := fun j hj hji e =>
    hji ((fanAddr_inj (hi.trans_le hn) ((mem_fans.1 hj).trans_le hn)).1 e).1.symm
  have sys : ∀ j ∈ fans s.cfg, j ≠ i → sysIn ≠ fanAddr j .duty := fun j hj _ =>
    ne_fanAddr ((mem_fans.1 hj).trans_le hn) .duty (by decide)
  rw [(key _ own).2, slewFan, State.rd_wr_self, nextDuty_congr hu.cfg (key _ sys).1, State.rdNat, (key _ own).1,
    State.rdNat]

/-- FAN_TICK leaves a word that is no duty as steps 1 and 2 left it (R211). -/
theorem fanTick_rd_of_ne_duty (s : State) {a : Addr} (h : ∀ i, i < s.cfg.nfan → a ≠ fanAddr i .duty) :
    (fanTick s).rd a = (arbitrateFans s).rd a :=
  slewFans_rd_ne _ _ _ fun i hi => h i (mem_fans.1 hi)

/-- FAN_TICK leaves a fan's other words as steps 1 and 2 left them (R211). -/
theorem fanTick_rd_fan {s : State} (hn : s.cfg.nfan ≤ 4) {i : Nat} (hi : i < s.cfg.nfan) {x : FanWord}
    (hx : x ≠ .duty) : (fanTick s).rd (fanAddr i x) = (arbitrateFans s).rd (fanAddr i x) :=
  fanTick_rd_of_ne_duty s fun _ hj => fanAddr_ne_of_word (hi.trans_le hn) (hj.trans_le hn) hx

/-- The override word is kept while unlocked and discarded while locked (R217, R218). -/
theorem fanTick_ovr {s : State} (hc : s.cfg.wf = true) {i : Nat} (hi : i < s.cfg.nfan) :
    (fanTick s).rd (fanAddr i .ovr) = if s.bit sysIn bDbgUnlocked then s.rd (fanAddr i .ovr) else 0 :=
  (fanTick_rd_fan (Config.nfan_bounds hc).2 hi (by decide)).trans (arbitrated _ s hc hi).1

/-- The status word: OVR_ACT and IO are written, every other bit stays (R217 to R219). -/
theorem fanTick_stat_bit {s : State} (hc : s.cfg.wf = true) {i : Nat} (hi : i < s.cfg.nfan) (n : Nat) :
    (fanTick s).bit (fanAddr i .stat) n = if n = bOvrAct then overrideWins s (targetSpeed s) i
      else if n = bIo then s.bit tachLvl i else s.bit (fanAddr i .stat) n := by
  rw [State.bit, fanTick_rd_fan (Config.nfan_bounds hc).2 hi (by decide)]
  exact (arbitrated _ s hc hi).2 n

/-- Whether some fan meets a condition depends on what the condition says of the fans that exist. -/
theorem any_fans_congr {cfg : Config} {f g : Nat → Bool} (h : ∀ i, i < cfg.nfan → f i = g i) :
    (fans cfg).any f = (fans cfg).any g := by
  rw [Bool.eq_iff_iff, List.any_eq_true, List.any_eq_true]
  exact exists_congr fun i => and_congr_right fun hi => by rw [h i (mem_fans.1 hi)]

/-- Some override is active after step 2 exactly when some override wins (R211, R217). -/
theorem anyOverride_arbitrateFans {s : State} (hc : s.cfg.wf = true) :
    anyOverride (arbitrateFans s) = (fans s.cfg).any (overrideWins s (targetSpeed s)) := by
  rw [anyOverride, (arbitrateFans_rteOnly s).cfg]
  exact any_fans_congr fun i hi => ((arbitrated _ s hc hi).2 bOvrAct).trans (if_pos rfl)

/-- The measured speeds and the duties are not touched before step 3 (R211). -/
theorem arbitrateFans_rd_fan {s : State} (hn : s.cfg.nfan ≤ 4) {i : Nat} (hi : i < s.cfg.nfan) {x : FanWord}
    (hovr : x ≠ .ovr) (hstat : x ≠ .stat) : (arbitrateFans s).rd (fanAddr i x) = s.rd (fanAddr i x) :=
  arbitrateFans_rd_ne s (ne_fanAddr (hi.trans_le hn) x (by decide)).symm fun _ hj =>
    ⟨fanAddr_ne_of_word (hi.trans_le hn) (hj.trans_le hn) hovr,
      fanAddr_ne_of_word (hi.trans_le hn) (hj.trans_le hn) hstat⟩

/-- The largest speed reads the fans' speed words only (R220). -/
theorem maxSpeed_congr {s u : State} (hcfg : u.cfg = s.cfg)
    (h : ∀ i, i < s.cfg.nfan → u.rd (fanAddr i .speed) = s.rd (fanAddr i .speed)) : maxSpeed u = maxSpeed s := by
  rw [maxSpeed, maxSpeed, hcfg]
  exact List.foldl_ext _ _ _ fun m i hi => by rw [State.rdNat, h i (mem_fans.1 hi), State.rdNat]

/-- The error of a fan from the words at the start of the operation (R220). -/
theorem fanError_eq {s : State} (hn : s.cfg.nfan ≤ 4) (i : Nat) :
    fanError s i = (effSpeed s (targetSpeed s) i : Int) - maxSpeed s := by
  rw [fanError, maxSpeed_congr (arbitrateFans_rteOnly s).cfg fun _ hk =>
    arbitrateFans_rd_fan hn hk (by decide) (by decide)]

/-- The duty FAN_TICK writes, from the words at its start (R211, R220 to R223). -/
theorem fanTick_duty {s : State} (hc : s.cfg.wf = true) {i : Nat} (hi : i < s.cfg.nfan) :
    (fanTick s).rd (fanAddr i .duty) = nextDuty s ((fans s.cfg).any (overrideWins s (targetSpeed s)))
      (s.rdNat (fanAddr i .duty)) (effSpeed s (targetSpeed s) i - maxSpeed s) := by
  have hn := (Config.nfan_bounds hc).2
  have hcfg := (arbitrateFans_rteOnly s).cfg
  have sys : (arbitrateFans s).rd sysIn = s.rd sysIn := arbitrateFans_rd_ne s (by decide) fun j hj =>
    ⟨ne_fanAddr (hj.trans_le hn) _ (by decide), ne_fanAddr (hj.trans_le hn) _ (by decide)⟩
  have slew := slewFans_duty (s := arbitrateFans s) (hcfg ▸ hn) (anyOverride (arbitrateFans s)) (fanError s)
    (hcfg ▸ hi)
  rw [hcfg, nextDuty_congr hcfg sys, anyOverride_arbitrateFans hc, fanError_eq hn, State.rdNat,
    arbitrateFans_rd_fan hn hi (by decide) (by decide)] at slew
  rw [fanTick_eq_slew, anyOverride_arbitrateFans hc]
  exact slew

end Sys2Proof.Machine

/-! FAN_TICK fan by fan, as one operation (spec/43_fanctrl.md R211, R217 to R223). -/

namespace Sys2Proof.Machine

/-- The clamped duty is held exactly by its word (R222). -/
theorem slewDuty_word (cfg : Config) (o : Bool) (duty : Nat) (err : Int) :
    ((trunc16 (slewDuty cfg o duty err).toNat).toNat : Int) = slewDuty cfg o duty err := by
  have hmax := cfg.dutyMax.isLt
  have hnonneg : 0 ≤ slewDuty cfg o duty err := by unfold slewDuty; split <;> omega
  have hle : slewDuty cfg o duty err ≤ cfg.dutyMax.toNat := min_le_right _ _
  rw [trunc16, BitVec.toNat_ofNat, Nat.mod_eq_of_lt (by omega), Int.toNat_of_nonneg hnonneg]

/-- The three cases of the duty: boot mode, AC loss, the slewed duty (R223). -/
theorem nextDuty_cases (s : State) (o : Bool) (duty : Nat) (err : Int) :
    if s.bit sysIn bBootMode then nextDuty s o duty err = s.cfg.dutyBoot
    else if s.bit sysIn bAcLoss then nextDuty s o duty err = s.cfg.dutyAcloss
    else ((nextDuty s o duty err).toNat : Int) = slewDuty s.cfg o duty err := by
  unfold nextDuty
  split
  · rfl
  · split
    · rfl
    · exact slewDuty_word ..

/-- The status word a FAN_TICK leaves: OVR_ACT and IO are written, every other bit stays (R16, R217 to R219). -/
theorem stat_bit_of_fanTick {s t : State} {i : Nat} (hc : s.cfg.wf = true) (hi : i < s.cfg.nfan)
    (ht : exec .fanTick s = .next t) (n : Nat) :
    t.bit (fanAddr i .stat) n = if n = bOvrAct then overrideWins s (targetSpeed s) i
      else if n = bIo then s.bit tachLvl i else s.bit (fanAddr i .stat) n := by
  obtain ⟨-, rfl⟩ := exec_next ht
  exact (bit_fan_latched _ _ (hi.trans_le (Config.nfan_bounds hc).2) _ n).trans (fanTick_stat_bit hc hi n)

/-- After FAN_TICK some fan's OVR_ACT is set exactly when some override wins (R217, R222). -/
theorem exists_ovrAct_iff {s t : State} (hc : s.cfg.wf = true) (ht : exec .fanTick s = .next t) :
    (fans s.cfg).any (overrideWins s (targetSpeed s)) = true
      ↔ ∃ k, k < s.cfg.nfan ∧ t.bit (fanAddr k .stat) bOvrAct = true := by
  rw [List.any_eq_true]
  refine exists_congr fun k => ?_
  rw [mem_fans]
  exact and_congr_right fun hk => by rw [stat_bit_of_fanTick hc hk ht, if_pos rfl]

/-- Settles O32: the words of each fan are those its arbitration and its slew wrote, from the state at the start; the
target, the override, the error and the clamp of the rule are the model's own, term by term. -/
theorem fanTickDrivesEveryFan : Obligations.FanTickDrivesEveryFan := by
  intro s meas hc hle hsome
  have hn := (Config.nfan_bounds hc).2
  have source : ∀ a, a = fltRaw ∨ a = fltLat ∨ a = seqOut → (fanTick s).rd a = s.rd a := fun a ha =>
    have low : a ≠ fanTarget ∧ a.toNat < 0x30 := by obtain rfl | rfl | rfl := ha <;> decide
    fanTick_rd_ne s low.1 fun i hi => ⟨ne_fanAddr (hi.trans_le hn) _ (.inl low.2),
      ne_fanAddr (hi.trans_le hn) _ (.inl low.2), ne_fanAddr (hi.trans_le hn) _ (.inl low.2)⟩
  refine ⟨_, exec_fanTick s, rfl, ((fanTick_rteOnly s).trans (latchUpdate_rteOnly _)).outsideKept _,
    latchedFrom_latched _ source, fun a htarget hlat ha => ?_, fun i hi => ?_⟩
  · rw [rd_latched_ne _ _ hlat, fanTick_rd_ne s htarget ha]
  · have hi4 : i < 4 := hi.trans_le hn
    intro tgt o wins eff err d lo
    have htgt : targetSpeed s = tgt :=
      ((congrArg BitVec.toNat (rd_latched_ne _ _ (by decide))).trans (fanTick_target s hc)).symm
    have stat := stat_bit_of_fanTick hc hi (exec_fanTick s)
    have duty := fanTick_duty hc hi
    have active := exists_ovrAct_iff hc (exec_fanTick s)
    rw [htgt] at stat duty active
    rw [maxSpeed_eq s meas hle hsome] at duty
    have hlo : (if (fans s.cfg).any (overrideWins s tgt) then 0 else (s.cfg.dutyFloor.toNat : Int)) = lo :=
      if_congr active rfl rfl
    have written := nextDuty_cases s ((fans s.cfg).any (overrideWins s tgt)) (s.rdNat (fanAddr i .duty)) err
    rw [slewDuty, hlo] at written
    rw [State.rdNat, rd_fan_latched _ _ hi4, rd_fan_latched _ _ hi4, duty]
    refine ⟨fanTick_ovr hc hi, (stat bOvrAct).trans (if_pos rfl), stat bIo, fun n hother => ?_, written⟩
    simp only [List.mem_cons, List.not_mem_nil, or_false, not_or] at hother
    rw [stat, if_neg hother.1, if_neg hother.2]

end Sys2Proof.Machine

/-! What FAN_TICK and SEQ_TICK read: two states that agree on it are left in agreement (spec/43_fanctrl.md R234). -/

namespace Sys2Proof.Machine

/-- `P` holds of every word FAN_TICK computes with: the words below the fan records, and of each fan the measured speed,
the duty and the override (R211). -/
structure HoldsOfFanTickReads (cfg : Config) (P : Addr → Prop) : Prop where
  low : ∀ a : Addr, a.toNat < 0x30 → P a
  speed : ∀ i, i < cfg.nfan → P (fanAddr i .speed)
  duty : ∀ i, i < cfg.nfan → P (fanAddr i .duty)
  ovr : ∀ i, i < cfg.nfan → P (fanAddr i .ovr)

/-- A word that is no status word and no judgment counter of a fan (R56, R57). -/
def outsideHealth (cfg : Config) (a : Addr) : Prop :=
  ∀ i, i < cfg.nfan → a ≠ fanAddr i .stat ∧ a ≠ fanAddr i .warnCnt ∧ a ≠ fanAddr i .failCnt ∧ a ≠ fanAddr i .okCnt

/-- FAN_TICK computes with no status word and with no judgment counter (R234). -/
theorem outsideHealth_holdsOfFanTickReads {cfg : Config} (hn : cfg.nfan ≤ 4) :
    HoldsOfFanTickReads cfg (outsideHealth cfg) := by
  have word : ∀ x : FanWord, x ≠ .stat ∧ x ≠ .warnCnt ∧ x ≠ .failCnt ∧ x ≠ .okCnt →
      ∀ i, i < cfg.nfan → outsideHealth cfg (fanAddr i x) := fun x hx i hi j hj =>
    have ne : ∀ {y}, x ≠ y → fanAddr i x ≠ fanAddr j y := fanAddr_ne_of_word (hi.trans_le hn) (hj.trans_le hn)
    ⟨ne hx.1, ne hx.2.1, ne hx.2.2.1, ne hx.2.2.2⟩
  refine ⟨fun a ha i hi => ?_, word .speed (by decide), word .duty (by decide), word .ovr (by decide)⟩
  have ne : ∀ x, a ≠ fanAddr i x := fun x => ne_fanAddr (hi.trans_le hn) x (.inl ha)
  exact ⟨ne _, ne _, ne _, ne _⟩

/-- What every step of a loop over a list keeps in agreement, the loop does. -/
theorem AgreeOn.foldl {P : Addr → Prop} {α : Type} {f g : State → α → State} {l : List α}
    (step : ∀ x ∈ l, ∀ s u, AgreeOn P s u → AgreeOn P (f s x) (g u x)) {s u : State} (h : AgreeOn P s u) :
    AgreeOn P (l.foldl f s) (l.foldl g u) := by
  induction l generalizing s u with
  | nil => exact h
  | cons x l ih =>
    exact ih (fun y hy => step y (List.mem_cons_of_mem _ hy)) (step x (List.mem_cons_self ..) _ _ h)

/-- The latch rule reads three words (R275). -/
theorem AgreeOn.latchUpdate {P : Addr → Prop} {s u : State} (h : AgreeOn P s u)
    (hP : P fltRaw ∧ P seqOut ∧ P fltLat) : AgreeOn P (latchUpdate s) (latchUpdate u) :=
  h.wr fltLat fun _ => by rw [h.rdE hP.1, h.rdE hP.2.1, h.rdE hP.2.2]

/-- The target is computed from words below 0x30 (R212 to R215). -/
theorem targetSpeed_agree {P : Addr → Prop} (hP : ∀ a : Addr, a.toNat < 0x30 → P a) {s u : State}
    (h : AgreeOn P s u) : targetSpeed s = targetSpeed u := by
  have temp : tempSelect s = tempSelect u := by
    unfold tempSelect
    rw [h.1, h.rdE (hP tAmb (by decide)), h.rdE (hP tHot (by decide))]
  have table : lineTable s = lineTable u := by
    unfold lineTable
    rw [h.1, h.bit (hP sysIn (by decide))]
  have load : loadTerm s = loadTerm u := by
    unfold loadTerm
    rw [h.1, h.nat (hP loadMeas (by decide))]
  have vin : vinTerm s = vinTerm u := by
    unfold vinTerm
    rw [h.1, h.nat (hP vinMeas (by decide))]
  rw [targetSpeed, temp, table, load, vin, h.1, targetSpeed]

/-- Whether an override wins is decided by SYS_IN and the override word (R217, R218). -/
theorem overrideWins_agree {P : Addr → Prop} {s u : State} (h : AgreeOn P s u) {i : Nat} (hsys : P sysIn)
    (hovr : P (fanAddr i .ovr)) (tgt : Nat) : overrideWins s tgt i = overrideWins u tgt i := by
  rw [overrideWins, h.1, h.bit hsys, h.nat hovr, overrideWins]

/-- The effective speed is computed from SYS_IN and the override word (R217, R218). -/
theorem effSpeed_agree {P : Addr → Prop} {s u : State} (h : AgreeOn P s u) {i : Nat} (hsys : P sysIn)
    (hovr : P (fanAddr i .ovr)) (tgt : Nat) : effSpeed s tgt i = effSpeed u tgt i := by
  rw [effSpeed, overrideWins_agree h hsys hovr, h.1, h.nat hovr, effSpeed]

/-- Arbitration computes with SYS_IN, TACH_LVL and the override word; it reads the status word only to keep its other
bits (R217 to R219). -/
theorem arbitrateFan_agree {P : Addr → Prop} {s u : State} (h : AgreeOn P s u) {i : Nat} (hsys : P sysIn)
    (htach : P tachLvl) (hovr : P (fanAddr i .ovr)) (tgt : Nat) :
    AgreeOn P (arbitrateFan tgt s i) (arbitrateFan tgt u i) := by
  have discarded : AgreeOn P (if s.bit sysIn bDbgUnlocked then s else s.wr (fanAddr i .ovr) 0)
      (if u.bit sysIn bDbgUnlocked then u else u.wr (fanAddr i .ovr) 0) := by
    rw [h.bit hsys]
    split
    · exact h
    · exact h.wr _ fun _ => rfl
  have active := discarded.wrBit (fanAddr i .stat) bOvrAct (overrideWins u tgt i)
  unfold arbitrateFan
  simp only
  rw [overrideWins_agree h hsys hovr, active.bit htach]
  exact active.wrBit ..

/-- The slew of a fan computes with SYS_IN and the duty (R222, R223). -/
theorem slewFan_agree {P : Addr → Prop} {s u : State} (h : AgreeOn P s u) {i : Nat} (hsys : P sysIn)
    (hduty : P (fanAddr i .duty)) (o : Bool) {e e' : Nat → Int} (he : e i = e' i) :
    AgreeOn P (slewFan o e s i) (slewFan o e' u i) :=
  h.wr _ fun _ => by rw [h.nat hduty, he, nextDuty_congr h.1 (h.rdE hsys)]

/-- Steps 1 and 2 of FAN_TICK keep the agreement (R211). -/
theorem arbitrateFans_agree {P : Addr → Prop} {s u : State} (hP : HoldsOfFanTickReads s.cfg P)
    (h : AgreeOn P s u) : AgreeOn P (arbitrateFans s) (arbitrateFans u) := by
  have start : AgreeOn P (s.wr fanTarget (trunc16 (targetSpeed s))) (u.wr fanTarget (trunc16 (targetSpeed u))) :=
    h.wr _ fun _ => by rw [targetSpeed_agree hP.low h]
  unfold arbitrateFans
  rw [← targetSpeed_agree hP.low h] at start ⊢
  rw [← h.1]
  exact start.foldl fun i hi _ _ hstep => arbitrateFan_agree hstep (hP.low _ (by decide)) (hP.low _ (by decide))
    (hP.ovr i (mem_fans.1 hi)) _

/-- The error of a fan is computed from the target, the override and the measured speeds (R220). -/
theorem fanError_agree {P : Addr → Prop} {s u : State} (hn : s.cfg.nfan ≤ 4) (hP : HoldsOfFanTickReads s.cfg P)
    (h : AgreeOn P s u) {i : Nat} (hi : i < s.cfg.nfan) : fanError s i = fanError u i := by
  have fastest : maxSpeed u = maxSpeed s := maxSpeed_congr h.1.symm fun k hk => (h.rdE (hP.speed k hk)).symm
  rw [fanError_eq hn, fanError_eq (h.1 ▸ hn), targetSpeed_agree hP.low h,
    effSpeed_agree h (hP.low _ (by decide)) (hP.ovr i hi), fastest]

/-- FAN_TICK, but for the latch rule, keeps the agreement of two states on what it computes with (R211, R234). -/
theorem fanTick_agree {P : Addr → Prop} {s u : State} (hc : s.cfg.wf = true) (hP : HoldsOfFanTickReads s.cfg P)
    (h : AgreeOn P s u) : AgreeOn P (fanTick s) (fanTick u) := by
  have hn := (Config.nfan_bounds hc).2
  have hsys := hP.low sysIn (by decide)
  have anyOvr : anyOverride (arbitrateFans s) = anyOverride (arbitrateFans u) := by
    rw [anyOverride_arbitrateFans hc, anyOverride_arbitrateFans (h.1 ▸ hc), ← h.1, ← targetSpeed_agree hP.low h]
    exact any_fans_congr fun i hi => overrideWins_agree h hsys (hP.ovr i hi) _
  rw [fanTick_eq_slew, fanTick_eq_slew, anyOvr, ← h.1]
  exact (arbitrateFans_agree hP h).foldl fun i hi _ _ hstep =>
    slewFan_agree hstep hsys (hP.duty i (mem_fans.1 hi)) _ (fanError_agree hn hP h (mem_fans.1 hi))

/-- Settles O37: FAN_TICK computes with none of the words the two states may differ in, and SEQ_TICK with words below
the fan records only. -/
theorem fanHealthDoesNotReachControl : Obligations.FanHealthDoesNotReachControl := by
  intro s u hcfg hc
  have hn := (Config.nfan_bounds hc).2
  refine ⟨fun h => ?_, fun h => ?_⟩
  · have reads := outsideHealth_holdsOfFanTickReads hn
    have start : AgreeOn (outsideHealth s.cfg) s u := ⟨hcfg, h⟩
    have ticked := (fanTick_agree hc reads start).latchUpdate
      ⟨reads.low _ (by decide), reads.low _ (by decide), reads.low _ (by decide)⟩
    refine ⟨_, _, exec_fanTick s, exec_fanTick u, ticked.2, fun i hi => ?_⟩
    have wins := overrideWins_agree start (reads.low _ (by decide)) (reads.ovr i hi) (targetSpeed s)
    have level := start.bit (reads.low tachLvl (by decide)) i
    have hs := stat_bit_of_fanTick hc hi (exec_fanTick s)
    have hu := stat_bit_of_fanTick (hcfg ▸ hc) (hcfg ▸ hi) (exec_fanTick u)
    rw [hs, hs, hu, hu, ← targetSpeed_agree reads.low start, wins, level]
    exact ⟨rfl, rfl⟩
  · have low : ∀ a : Addr, a.toNat < 0x30 → inFanRecord s.cfg a = false := fun a ha => by
      rw [inFanRecord, decide_eq_false (by omega), Bool.false_and]
    exact ⟨_, _, exec_of_wf .seqTick s rfl, exec_of_wf .seqTick u rfl, (seqArm_agree low ⟨hcfg, h⟩).2⟩

end Sys2Proof.Machine

/-! The fault latch (spec/44_tmctrl.md R275, R276). -/

namespace Sys2Proof.Machine

/-- Every operation leaves the state as it is or ends with the latch rule (R16, R275; log entry 5). -/
theorem effect_eq_self_or_latched (i : Instr) (s : State) : effect i s = s ∨ ∃ u, effect i s = latchUpdate u := by
  have framer : ∀ p, (i = .rxIdle p ∨ i = .txStart p ∨ i = .txByte p ∨ ∃ b, i = .rxByte p b) →
      effect i s = s ∨ ∃ u, effect i s = latchUpdate u := fun p hi =>
    (effect_framer s hi).imp_right fun ⟨u, _, hu⟩ => ⟨u, hu⟩
  cases i with
  | regRd a => exact .inl rfl
  | rxDrain p =>
    by_cases hpend : s.bit (frmStat p) bRxPend = true
    · exact .inr ⟨_, rxDrain_eq hpend⟩
    · exact .inl (if_neg hpend)
  | rxByte p b => exact framer p (by simp)
  | rxIdle p => exact framer p (by simp)
  | txStart p => exact framer p (by simp)
  | txByte p => exact framer p (by simp)
  | _ => exact .inr ⟨_, rfl⟩

/-- Every operation keeps the latches in agreement: those that change anything leave them as the latch rule does
(R276). -/
theorem exec_keeps_latchesAgree {i : Instr} {s t : State} (h : latchesAgree s) (hexec : exec i s = .next t) :
    latchesAgree t := by
  obtain ⟨-, rfl⟩ := exec_next hexec
  obtain hsame | ⟨u, hlatched⟩ := effect_eq_self_or_latched i s
  · rw [hsame]; exact h
  · rw [hlatched]; exact latchesAgree_latchUpdate u

/-- Settles O18: a step is one operation, and every operation that changes anything ends with the latch rule. -/
theorem latchesStayConsistent : Obligations.LatchesStayConsistent := fun _ _ h hstep =>
  step_keeps (Inv := latchesAgree) (fun _ _ hu => hu) (fun _ _ _ _ hu hexec => exec_keeps_latchesAgree hu hexec) h hstep

/-- Settles O17: the latches agree after the operation, so the latch rule finds nothing to change. -/
theorem latchRuleHoldsAfterEveryOperation : Obligations.LatchRuleHoldsAfterEveryOperation := fun _ _ _ h hexec =>
  latchesAgree_idem (exec_keeps_latchesAgree h hexec)

/-- Settles O16: the rule bit by bit; it writes FLT_LAT only, and leaves the latches in agreement with itself. -/
theorem latchRule : Obligations.LatchRule := by
  intro s
  refine ⟨State.bit_latchUpdate_fltLat s, fun a ha => ?_, (latchUpdate_rteOnly s).outsideKept s.result,
    latchesAgree_idem (latchesAgree_latchUpdate s)⟩
  exact State.rd_latchUpdate_ne s (by simpa using ha)

end Sys2Proof.Machine

/-! The enable conditions (spec/44_tmctrl.md R260). -/

namespace Sys2Proof.Machine

/-- No fault is latched when none of the four latch bits is set (R260). -/
theorem noFaultLatched_iff (s : State) : noFaultLatched s = true ↔ ∀ k, k < 4 → s.bit fltLat k = false := by
  have four : (∀ k, k < 4 → s.bit fltLat k = false) ↔ s.bit fltLat bOvp = false ∧ s.bit fltLat bUvp = false
      ∧ s.bit fltLat bOcp = false ∧ s.bit fltLat bOpp = false := by
    refine ⟨fun h => ⟨h bOvp (by decide), h bUvp (by decide), h bOcp (by decide), h bOpp (by decide)⟩, ?_⟩
    rintro ⟨hovp, huvp, hocp, hopp⟩ k hk
    interval_cases k
    · exact hovp
    · exact huvp
    · exact hocp
    · exact hopp
  simp only [noFaultLatched, Bool.and_eq_true, Bool.not_eq_true', and_assoc, four]

/-- Settles O19: the conjunction of R260, its third term by the four latch bits. -/
theorem enableConditions : Obligations.EnableConditions := by
  intro s
  simp only [healthy, Bool.and_eq_true, Bool.or_eq_true, Bool.not_eq_true', noFaultLatched_iff, and_assoc]

end Sys2Proof.Machine

/-! SEQ_TICK arm by arm: the words each arm writes (spec/44_tmctrl.md R261 to R267). -/

namespace Sys2Proof.Machine

/-! The arm of each state (R261). -/

theorem seqArm_of_init {s : State} (h : s.rd seqState = stInit) : seqArm s = seqInitArm s := if_pos h

theorem seqArm_of_idle {s : State} (h : s.rd seqState = stIdle) : seqArm s = seqIdleArm (healthy s) s := by
  rw [seqArm, h, if_neg (by decide), if_pos rfl]

theorem seqArm_of_on {s : State} (h : s.rd seqState = stOn) : seqArm s = seqOnArm (healthy s) s := by
  rw [seqArm, h, if_neg (by decide), if_neg (by decide), if_pos rfl]

theorem seqArm_of_off {s : State} (h : s.rd seqState = stOff) : seqArm s = seqOffArm s := by
  rw [seqArm, h, if_neg (by decide), if_neg (by decide), if_neg (by decide), if_pos rfl]

theorem seqArm_of_unrecognized {s : State} (h : 4 ≤ s.rdNat seqState) : seqArm s = s.wr seqState stInit := by
  have ne : ∀ w : Word, w.toNat < 4 → s.rd seqState ≠ w := by
    rintro _ hw rfl
    exact absurd h (Nat.not_le.mpr hw)
  rw [seqArm, if_neg (ne _ (by decide)), if_neg (ne _ (by decide)), if_neg (ne _ (by decide)),
    if_neg (ne _ (by decide))]

/-! The enable outputs of a word of SEQ_OUT (R41). -/

theorem State.bit_wr_ne (s : State) {a b : Addr} (v : Word) (h : b ≠ a) (j : Nat) :
    (s.wr a v).bit b j = s.bit b j := by rw [State.bit_wr, if_neg h]

/-- SEQ_OUT as the four enable outputs fall, its other bits as they were (R262, R265, R266). -/
def enablesLowered (s : State) : Word := putField (s.rd seqOut) 0 4 0

/-- Once the enables have fallen they are zero, and no other bit of SEQ_OUT has changed. -/
theorem seqOut_of_enablesLowered {s u : State} (h : u.rd seqOut = enablesLowered s) :
    enableOutputs u = 0 ∧ ∀ j, 4 ≤ j → u.bit seqOut j = s.bit seqOut j := by
  have word : ∀ j, u.bit seqOut j = if j < 4 then false else s.bit seqOut j := fun j => by
    rw [State.bit, h, enablesLowered, getLsbD_putField _ _ _ _ _ (by decide)]
    simp [State.bit]
  exact ⟨enableOutputs_eq_zero u fun j hj => by rw [word, if_pos hj],
    fun j hj => by rw [word, if_neg (Nat.not_lt.mpr hj)]⟩

/-! INIT (R262). -/

/-- The first write of the INIT arm leaves the delay counter. -/
theorem rdNat_seqDlyCnt_wrField (s : State) (v : Word) :
    (s.wrField seqOut 0 4 v).rdNat seqDlyCnt = s.rdNat seqDlyCnt := by
  rw [State.rdNat, State.rd_wrField, if_neg (by decide), State.rdNat]

/-- The delay is over: the INIT arm goes to IDLE. -/
theorem seqInitArm_of_over {s : State} (h : s.cfg.seqStartDelay.toNat ≤ s.rdNat seqDlyCnt) :
    seqInitArm s = ((s.wrField seqOut 0 4 0).wr seqState stIdle).wr seqDlyCnt 0 := by
  simp only [seqInitArm, rdNat_seqDlyCnt_wrField, State.wrField_cfg]
  exact if_pos h

/-- The delay is running: the INIT arm counts. -/
theorem seqInitArm_of_running {s : State} (h : ¬ s.cfg.seqStartDelay.toNat ≤ s.rdNat seqDlyCnt) :
    seqInitArm s = (s.wrField seqOut 0 4 0).wr seqDlyCnt (trunc16 (s.rdNat seqDlyCnt + 1)) := by
  simp only [seqInitArm, rdNat_seqDlyCnt_wrField, State.wrField_cfg]
  exact if_neg h

theorem seqInitArm_seqOut (s : State) : (seqInitArm s).rd seqOut = enablesLowered s := by
  by_cases h : s.cfg.seqStartDelay.toNat ≤ s.rdNat seqDlyCnt
  · rw [seqInitArm_of_over h, State.rd_wr_ne _ _ (by decide), State.rd_wr_ne _ _ (by decide), State.rd_wrField,
      if_pos rfl, enablesLowered]
  · rw [seqInitArm_of_running h, State.rd_wr_ne _ _ (by decide), State.rd_wrField, if_pos rfl, enablesLowered]

theorem seqInitArm_seqState (s : State) : (seqInitArm s).rd seqState =
    if s.cfg.seqStartDelay.toNat ≤ s.rdNat seqDlyCnt then stIdle else s.rd seqState := by
  split
  · next h => rw [seqInitArm_of_over h, State.rd_wr_ne _ _ (by decide), State.rd_wr_self]
  · next h =>
    rw [seqInitArm_of_running h, State.rd_wr_ne _ _ (by decide), State.rd_wrField, if_neg (by decide)]

/-- The counter does not wrap: it counts only below a start delay that is a word. -/
theorem seqInitArm_seqDlyCnt (s : State) : (seqInitArm s).rdNat seqDlyCnt =
    if s.cfg.seqStartDelay.toNat ≤ s.rdNat seqDlyCnt then 0 else s.rdNat seqDlyCnt + 1 := by
  split
  · next h => rw [seqInitArm_of_over h, State.rdNat, State.rd_wr_self]; rfl
  · next h =>
    have hdelay := s.cfg.seqStartDelay.isLt
    rw [seqInitArm_of_running h, State.rdNat, State.rd_wr_self, trunc16, BitVec.toNat_ofNat]
    omega

/-! ON (R265). -/

theorem seqOnArm_seqState (ok : Bool) (s : State) :
    (seqOnArm ok s).rd seqState = if ok then s.rd seqState else stOff := by
  simp only [seqOnArm]
  split
  · split
    · rw [State.rd_wrBit, if_neg (by decide), State.rd_wrField, if_neg (by decide)]
    · rw [State.rd_wrField, if_neg (by decide)]
  · exact State.rd_wr_self ..

theorem seqOnArm_seqOut_unhealthy (s : State) : (seqOnArm false s).rd seqOut = enablesLowered s := by
  rw [seqOnArm, if_neg Bool.false_ne_true, State.rd_wr_ne _ _ (by decide), State.rd_wrField, if_pos rfl, enablesLowered]

/-- While healthy the ON arm raises the three enables, and STAGE_EN once SYNC_START is seen. -/
theorem seqOnArm_seqOut_healthy (s : State) (j : Nat) : (seqOnArm true s).bit seqOut j =
    (s.bit seqOut j || decide (j < 3) || (decide (j = bStageEn) && s.bit sysIn bSyncStart)) := by
  have ones : ∀ k, k < 3 → (7#16).getLsbD k = true := by decide
  have three : (s.wrField seqOut 0 3 0x7).bit seqOut j = (s.bit seqOut j || decide (j < 3)) := by
    rw [State.bit_wrField _ _ _ _ _ _ _ (by decide)]
    by_cases h : j < 3
    · simp [h, ones]
    · simp [h]
  have sync : (s.wrField seqOut 0 3 0x7).bit sysIn bSyncStart = s.bit sysIn bSyncStart := by
    rw [State.bit, State.rd_wrField, if_neg (by decide), State.bit]
  simp only [seqOnArm, if_true, sync]
  by_cases hsync : s.bit sysIn bSyncStart = true
  · rw [if_pos hsync, State.bit_wrBit _ _ _ _ _ _ (by decide), three, hsync]
    by_cases h : j = bStageEn <;> simp [h]
  · rw [if_neg hsync, three, Bool.eq_false_iff.mpr hsync, Bool.and_false, Bool.or_false]

/-! OFF (R266). -/

theorem seqOffArm_seqOut (s : State) : (seqOffArm s).rd seqOut = enablesLowered s := by
  rw [seqOffArm, State.rd_wr_ne _ _ (by decide), State.rd_wr_ne _ _ (by decide), State.rd_wrField, if_pos rfl,
    enablesLowered]

theorem seqOffArm_seqState (s : State) : (seqOffArm s).rd seqState = stInit := by
  rw [seqOffArm, State.rd_wr_ne _ _ (by decide), State.rd_wr_self]

theorem seqOffArm_seqDlyCnt (s : State) : (seqOffArm s).rd seqDlyCnt = 0 := State.rd_wr_self ..

theorem seqOffArm_rd_ne (s : State) {a : Addr} (h1 : a ≠ seqOut) (h2 : a ≠ seqState) (h3 : a ≠ seqDlyCnt) :
    (seqOffArm s).rd a = s.rd a := by
  rw [seqOffArm, State.rd_wr_ne _ _ h3, State.rd_wr_ne _ _ h2, State.rd_wrField, if_neg h1]

/-! IDLE (R263, R264). -/

/-- The re-arm is asked for: by a clear request, or by an input-voltage loss (R263). -/
def rearmAsked (s : State) : Bool := s.bit sysIn bFaultClrReq || s.bit sysIn bVinLoss

/-- The field of the four clear requests is SEQ_OUT[7:4] (R41). -/
theorem bit_wrField_clears (s : State) (v : Word) (j : Nat) :
    (s.wrField seqOut 4 4 v).bit seqOut j = if 4 ≤ j ∧ j < 8 then v.getLsbD (j - 4) else s.bit seqOut j := by
  rw [State.bit_wrField _ _ _ _ _ _ _ (by decide)]
  simp

theorem seqRearm_seqOut (s : State) (j : Nat) : (seqRearm s).bit seqOut j =
    (s.bit seqOut j || (rearmAsked s && decide (4 ≤ j ∧ j < 8))) := by
  have ones : ∀ k, k < 4 → (15#16).getLsbD k = true := by decide
  unfold seqRearm
  rw [← rearmAsked]
  split
  · next h =>
    rw [State.bit_wr_ne _ _ (by decide), bit_wrField_clears, h]
    by_cases hj : 4 ≤ j ∧ j < 8
    · simp [hj, ones (j - 4) (by omega)]
    · simp [hj]
  · next h => simp [h]

theorem seqRearm_seqRetryCnt (s : State) :
    (seqRearm s).rdNat seqRetryCnt = if rearmAsked s then 0 else s.rdNat seqRetryCnt := by
  unfold seqRearm
  rw [← rearmAsked]
  split
  · rw [State.rdNat_wr, if_pos rfl]; rfl
  · rfl

theorem seqRearm_cfg (s : State) : (seqRearm s).cfg = s.cfg := by
  unfold seqRearm
  split <;> rfl

theorem seqAutoClear_seqOut (s : State) (j : Nat) : (seqAutoClear s).bit seqOut j =
    (s.bit seqOut j || (autoClearDue s && (j == bClrUvp || j == bClrOcp))) := by
  unfold seqAutoClear
  split
  · next h =>
    rw [State.bit_wr_ne _ _ (by decide), State.bit_wrBit _ _ _ _ _ _ (by decide),
      State.bit_wrBit _ _ _ _ _ _ (by decide), h]
    by_cases huvp : j = bClrUvp <;> by_cases hocp : j = bClrOcp <;> simp [huvp, hocp]
  · next h => simp [h]

/-- The retry count does not wrap: a retry is taken only below a budget that is a word. -/
theorem seqAutoClear_seqRetryCnt (s : State) : (seqAutoClear s).rdNat seqRetryCnt =
    if autoClearDue s then s.rdNat seqRetryCnt + 1 else s.rdNat seqRetryCnt := by
  unfold seqAutoClear
  split
  · next h =>
    have hbudget := s.cfg.retryBudget.isLt
    have hleft : s.rdNat seqRetryCnt < s.cfg.retryBudget.toNat := by
      simp only [autoClearDue, Bool.and_eq_true, decide_eq_true_eq] at h
      obtain ⟨⟨-, hleft⟩, -⟩ := h
      exact hleft
    rw [State.rdNat_wr, if_pos rfl, trunc16_satU16_toNat]
    omega
  · rfl

/-- The automatic clear after the re-arm, from the words SEQ_TICK found (R263, R264). -/
theorem autoClearDue_seqRearm (s : State) : autoClearDue (seqRearm s) =
    ((s.bit fltLat bUvp || s.bit fltLat bOcp)
      && decide ((if rearmAsked s then 0 else s.rdNat seqRetryCnt) < s.cfg.retryBudget.toNat)
      && !(rearmAsked s || (s.bit seqOut bClrUvp && s.bit seqOut bClrOcp))) := by
  have latch : ∀ n, (seqRearm s).bit fltLat n = s.bit fltLat n := fun n => by
    rw [State.bit, seqRearm_rd_ne s (by decide) (by decide), State.bit]
  rw [autoClearDue, latch, latch, seqRearm_seqRetryCnt, seqRearm_cfg, seqRearm_seqOut, seqRearm_seqOut,
    decide_eq_true (by decide : 4 ≤ bClrUvp ∧ bClrUvp < 8), decide_eq_true (by decide : 4 ≤ bClrOcp ∧ bClrOcp < 8),
    Bool.and_true, ← Bool.or_and_distrib_right, Bool.or_comm (rearmAsked s)]

theorem seqIdleArm_seqState (ok : Bool) (s : State) :
    (seqIdleArm ok s).rd seqState = if ok then stOn else s.rd seqState := by
  simp only [seqIdleArm]
  split
  · exact State.rd_wr_self ..
  · rw [seqAutoClear_rd_ne _ (by decide) (by decide), seqRearm_rd_ne _ (by decide) (by decide)]

/-- The move to ON takes every clear request away (R263, R264). -/
theorem seqIdleArm_seqOut (ok : Bool) (s : State) (j : Nat) : (seqIdleArm ok s).bit seqOut j =
    if ok ∧ 4 ≤ j ∧ j < 8 then false else (seqAutoClear (seqRearm s)).bit seqOut j := by
  simp only [seqIdleArm]
  cases ok
  · rfl
  · rw [if_pos rfl, State.bit_wr_ne _ _ (by decide), bit_wrField_clears]
    simp

/-- No enable output moves in IDLE. -/
theorem seqIdleArm_seqOut_of_not_clear (ok : Bool) (s : State) {j : Nat} (h : ¬ (4 ≤ j ∧ j < 8)) :
    (seqIdleArm ok s).bit seqOut j = s.bit seqOut j := by
  have huvp : (j == bClrUvp) = false := beq_false_of_ne (by rintro rfl; exact h (by decide))
  have hocp : (j == bClrOcp) = false := beq_false_of_ne (by rintro rfl; exact h (by decide))
  rw [seqIdleArm_seqOut, if_neg fun k => h k.2, seqAutoClear_seqOut, seqRearm_seqOut, huvp, hocp, decide_eq_false h,
    Bool.and_false, Bool.or_false, Bool.or_false, Bool.and_false, Bool.or_false]

end Sys2Proof.Machine

/-! SEQ_TICK as a whole operation: an arm, and then the latch rule (spec/44_tmctrl.md R261 to R268). -/

namespace Sys2Proof.Machine

/-- A bit of any word but FLT_LAT is after an operation as its own writes left it (R16). -/
theorem bit_latched_ne (u : State) (r : Result) {a : Addr} (h : a ≠ fltLat) (n : Nat) :
    ((latchUpdate u).withResult r).bit a n = u.bit a n := by rw [withResult_bit, State.bit_latchUpdate_ne u h]

theorem rdNat_latched_ne (u : State) (r : Result) {a : Addr} (h : a ≠ fltLat) :
    ((latchUpdate u).withResult r).rdNat a = u.rdNat a := congrArg BitVec.toNat (rd_latched_ne u r h)

/-- The end of an operation leaves the words its own writes left, but for FLT_LAT (R16). -/
theorem wordsKept_latched {s u : State} (r : Result) {l : List Addr}
    (h : ∀ a, (∀ b ∈ l, a ≠ b) → u.rd a = s.rd a) : wordsKept s ((latchUpdate u).withResult r) (l ++ [fltLat]) := by
  intro a ha
  rw [List.mem_append, not_or, List.mem_singleton] at ha
  rw [rd_latched_ne u r ha.2, h a fun b hb hab => ha.1 (hab ▸ hb)]

/-- The state after SEQ_TICK (R261). -/
def seqTicked (s : State) : State := (latchUpdate (seqArm s)).withResult .none

theorem exec_seqTick (s : State) : exec .seqTick s = .next (seqTicked s) := rfl

theorem seqTicked_outsideKept (s : State) : outsideKept s (seqTicked s) :=
  ((seqArm_rteOnly s).trans (latchUpdate_rteOnly _)).outsideKept _

theorem seqTicked_rd_ne (s : State) {a : Addr} (h : a ≠ fltLat) : (seqTicked s).rd a = (seqArm s).rd a :=
  rd_latched_ne _ _ h

theorem seqTicked_rdNat_ne (s : State) {a : Addr} (h : a ≠ fltLat) : (seqTicked s).rdNat a = (seqArm s).rdNat a :=
  rdNat_latched_ne _ _ h

theorem seqTicked_bit_ne (s : State) {a : Addr} (h : a ≠ fltLat) (n : Nat) :
    (seqTicked s).bit a n = (seqArm s).bit a n := bit_latched_ne _ _ h n

/-- The latch rule of SEQ_TICK meets the fault words it found and the clear requests the arm left (R264, R275). -/
theorem seqTicked_fltLat (s : State) (n : Nat) : (seqTicked s).bit fltLat n =
    if n < 4 then s.bit fltRaw n || (s.bit fltLat n && !(seqTicked s).bit seqOut (4 + n)) else s.bit fltLat n := by
  have kept : ∀ a, a = fltRaw ∨ a = fltLat → (seqArm s).bit a n = s.bit a n := fun a ha => by
    rw [State.bit, seqArm_rd_ne s, State.bit] <;> rcases ha with rfl | rfl <;> decide
  rw [seqTicked_bit_ne s (a := seqOut) (by decide), seqTicked, withResult_bit, State.bit_latchUpdate_fltLat,
    kept _ (.inl rfl), kept _ (.inr rfl)]

/-- Where the arm leaves SEQ_OUT above its four enables, so does SEQ_TICK, and its latch rule meets the clear requests
it found (R275). -/
theorem seqTicked_of_clears_kept {s : State} (h : ∀ j, 4 ≤ j → (seqArm s).bit seqOut j = s.bit seqOut j) :
    bitsKept s (seqTicked s) seqOut [bPwmEn, bAcsEn, bOringEn, bStageEn] ∧ latchedFrom s (seqTicked s) := by
  have out : ∀ j, 4 ≤ j → (seqTicked s).bit seqOut j = s.bit seqOut j := fun j hj => by
    rw [seqTicked_bit_ne s (by decide), h j hj]
  refine ⟨fun j hj => out j ?_, fun n => ?_⟩
  · simp only [bPwmEn, bAcsEn, bOringEn, bStageEn, List.mem_cons, List.not_mem_nil, or_false, not_or] at hj
    omega
  · rw [seqTicked_fltLat, out _ (Nat.le_add_right 4 n)]

/-- Where the arm only lowers the enables in SEQ_OUT, so does SEQ_TICK (R262, R265, R266). -/
theorem seqTicked_of_enablesLowered {s : State} (h : (seqArm s).rd seqOut = enablesLowered s) :
    enableOutputs (seqTicked s) = 0 ∧ bitsKept s (seqTicked s) seqOut [bPwmEn, bAcsEn, bOringEn, bStageEn]
      ∧ latchedFrom s (seqTicked s) := by
  have low : (seqTicked s).rd seqOut = enablesLowered s := (seqTicked_rd_ne s (by decide)).trans h
  exact ⟨(seqOut_of_enablesLowered low).1, seqTicked_of_clears_kept (seqOut_of_enablesLowered h).2⟩

/-- Settles O22: the enables fall first, and the delay is counted or over. -/
theorem seqTickInInit : Obligations.SeqTickInInit := by
  intro s hinit
  have arm := seqArm_of_init hinit
  obtain ⟨hlow, hbits, hlatch⟩ := seqTicked_of_enablesLowered (s := s) (by rw [arm, seqInitArm_seqOut])
  refine ⟨_, exec_seqTick s, rfl, seqTicked_outsideKept s, hlow, hbits, ?_, hlatch, ?_⟩
  · rw [seqTicked_rd_ne s (by decide), seqTicked_rdNat_ne s (by decide), arm, seqInitArm_seqState,
      seqInitArm_seqDlyCnt, hinit]
    by_cases hover : s.cfg.seqStartDelay.toNat ≤ s.rdNat seqDlyCnt
    · simp only [if_pos hover, and_self]
    · simp only [if_neg hover, and_self]
  · refine wordsKept_latched .none (l := [seqState, seqOut, seqDlyCnt]) fun a ha => ?_
    rw [arm, seqInitArm_rd_ne s (ha _ (by simp)) (ha _ (by simp)) (ha _ (by simp))]

/-- Settles O24: the raised enables one by one while healthy; otherwise they fall and OFF is entered. -/
theorem seqTickInOn : Obligations.SeqTickInOn := by
  intro s hon
  have arm := seqArm_of_on hon
  have words : wordsKept s (seqTicked s) [seqState, seqOut, fltLat] := by
    refine wordsKept_latched .none (l := [seqState, seqOut]) fun a ha => ?_
    rw [arm, seqOnArm_rd_ne _ s (ha _ (by simp)) (ha _ (by simp))]
  have state : (seqTicked s).rd seqState = if healthy s then stOn else stOff := by
    rw [seqTicked_rd_ne s (by decide), arm, seqOnArm_seqState, hon]
  cases hh : healthy s
  · rw [hh] at arm state
    obtain ⟨hlow, hbits, hlatch⟩ :=
      seqTicked_of_enablesLowered (s := s) (by rw [arm, seqOnArm_seqOut_unhealthy])
    exact ⟨_, exec_seqTick s, rfl, seqTicked_outsideKept s, ⟨state, hlow⟩, hbits, hlatch, words⟩
  · rw [hh] at arm state
    have out : ∀ j, (seqTicked s).bit seqOut j =
        (s.bit seqOut j || decide (j < 3) || (decide (j = bStageEn) && s.bit sysIn bSyncStart)) := fun j => by
      rw [seqTicked_bit_ne s (by decide), arm, seqOnArm_seqOut_healthy]
    obtain ⟨hbits, hlatch⟩ := seqTicked_of_clears_kept (s := s) fun j hj => by
      have hne : j ≠ bStageEn := by rintro rfl; exact absurd hj (by decide)
      rw [arm, seqOnArm_seqOut_healthy, decide_eq_false (by omega : ¬ j < 3), decide_eq_false hne, Bool.false_and,
        Bool.or_false, Bool.or_false]
    refine ⟨_, exec_seqTick s, rfl, seqTicked_outsideKept s, ⟨state, ?_, ?_, ?_, ?_⟩, hbits, hlatch, words⟩
    · simp [out, bPwmEn]
    · simp [out, bAcsEn]
    · simp [out, bOringEn]
    · simp [out, bStageEn]

/-- Settles O25: the OFF arm whatever its inputs, and the one write of an unrecognized state. -/
theorem seqTickInOffAndUnrecognized : Obligations.SeqTickInOffAndUnrecognized := by
  refine ⟨fun s hoff => ?_, fun s hunknown => ?_⟩
  · have arm := seqArm_of_off hoff
    obtain ⟨hlow, hbits, hlatch⟩ := seqTicked_of_enablesLowered (s := s) (by rw [arm, seqOffArm_seqOut])
    refine ⟨_, exec_seqTick s, rfl, seqTicked_outsideKept s, hlow, ?_, ?_, hbits, hlatch, ?_⟩
    · rw [seqTicked_rd_ne s (by decide), arm, seqOffArm_seqState]
    · rw [seqTicked_rd_ne s (by decide), arm, seqOffArm_seqDlyCnt]
    · refine wordsKept_latched .none (l := [seqState, seqOut, seqDlyCnt]) fun a ha => ?_
      rw [arm, seqOffArm_rd_ne s (ha _ (by simp)) (ha _ (by simp)) (ha _ (by simp))]
  · have arm := seqArm_of_unrecognized hunknown
    have hlatch := (seqTicked_of_clears_kept (s := s) fun j _ => by rw [arm, State.bit_wr_ne s _ (by decide)]).2
    refine ⟨_, exec_seqTick s, rfl, seqTicked_outsideKept s, ?_, hlatch, ?_⟩
    · rw [seqTicked_rd_ne s (by decide), arm, State.rd_wr_self]
    · refine wordsKept_latched .none (l := [seqState]) fun a ha => ?_
      rw [arm, State.rd_wr_ne s _ (ha _ (by simp))]

/-- The clear requests after the IDLE arm: none when it goes to ON; otherwise those held, all four after a re-arm, and
UVP's and OCP's after an automatic clear (R263, R264). -/
theorem seqIdleArm_clear (ok : Bool) (s : State) {k : Nat} (hk : k < 4) : (seqIdleArm ok s).bit seqOut (4 + k) =
    (!ok && (s.bit seqOut (4 + k) || rearmAsked s
      || (autoClearDue (seqRearm s) && (k == bUvp || k == bOcp)))) := by
  have hclear : 4 ≤ 4 + k ∧ 4 + k < 8 := by omega
  have huvp : (4 + k == bClrUvp) = (k == bUvp) := by simp [bClrUvp, bUvp]; omega
  have hocp : (4 + k == bClrOcp) = (k == bOcp) := by simp [bClrOcp, bOcp]; omega
  rw [seqIdleArm_seqOut]
  cases ok
  · rw [if_neg fun h => Bool.false_ne_true h.1, seqAutoClear_seqOut, seqRearm_seqOut, decide_eq_true hclear, huvp, hocp,
      Bool.and_true, Bool.not_false, Bool.true_and]
  · rw [if_pos ⟨rfl, hclear⟩, Bool.not_true, Bool.false_and]

/-- Settles O23: the re-arm, then the automatic clear as the re-arm left it, then the move to ON; the latch rule meets
the clear requests just written. -/
theorem seqTickInIdle : Obligations.SeqTickInIdle := by
  intro s hidle rearm used raised auto
  have arm := seqArm_of_idle hidle
  have due : autoClearDue (seqRearm s) = auto := autoClearDue_seqRearm s
  have asked : rearmAsked s = rearm := rfl
  refine ⟨_, exec_seqTick s, rfl, seqTicked_outsideKept s, ?_, fun k hk => ?_, ?_, fun n hn => ?_, fun k hk => ?_,
    fun n hn => ?_, ?_⟩
  · rw [seqTicked_rd_ne s (by decide), arm, seqIdleArm_seqState, hidle]
  · rw [seqTicked_bit_ne s (by decide), arm, seqIdleArm_clear _ s hk, due, asked]
  · have count : (seqArm s).rdNat seqRetryCnt = (seqAutoClear (seqRearm s)).rdNat seqRetryCnt := by
      rw [State.rdNat, arm, seqIdleArm_rd _ _ (by decide) (by decide), State.rdNat]
    rw [seqTicked_rdNat_ne s (by decide), count, seqAutoClear_seqRetryCnt, due, seqRearm_seqRetryCnt, asked]
  · simp only [bClrUvp, bClrOcp, List.mem_cons, List.not_mem_nil, or_false, not_or] at hn
    rw [seqTicked_bit_ne s (by decide), arm, seqIdleArm_seqOut_of_not_clear _ s (by omega)]
  · rw [seqTicked_fltLat, if_pos hk]
  · simp only [bOvp, bUvp, bOcp, bOpp, List.mem_cons, List.not_mem_nil, or_false, not_or] at hn
    rw [seqTicked_fltLat, if_neg (by omega)]
  · refine wordsKept_latched .none (l := [seqState, seqOut, seqRetryCnt]) fun a ha => ?_
    have hout : a ≠ seqOut := ha _ (by simp)
    have hretry : a ≠ seqRetryCnt := ha _ (by simp)
    rw [arm, seqIdleArm_rd _ s hout (ha _ (by simp)), seqAutoClear_rd_ne _ hout hretry, seqRearm_rd_ne s hout hretry]

/-- The state changes of the arms (R268). -/
theorem seqArm_transitions (s : State) :
    (s.rd seqState = stInit ∧ ((seqArm s).rd seqState = stInit ∨ (seqArm s).rd seqState = stIdle))
      ∨ (s.rd seqState = stIdle ∧ ((seqArm s).rd seqState = stIdle ∨ (seqArm s).rd seqState = stOn))
      ∨ (s.rd seqState = stOn ∧ ((seqArm s).rd seqState = stOn ∨ (seqArm s).rd seqState = stOff))
      ∨ (s.rd seqState = stOff ∧ (seqArm s).rd seqState = stInit)
      ∨ (4 ≤ s.rdNat seqState ∧ (seqArm s).rd seqState = stInit) := by
  rcases seqState_cases s with h | h | h | h | h
  · refine .inl ⟨h, ?_⟩
    rw [seqArm_of_init h, seqInitArm_seqState, h]
    split <;> simp
  · refine .inr (.inl ⟨h, ?_⟩)
    rw [seqArm_of_idle h, seqIdleArm_seqState, h]
    split <;> simp
  · refine .inr (.inr (.inl ⟨h, ?_⟩))
    rw [seqArm_of_on h, seqOnArm_seqState, h]
    split <;> simp
  · exact .inr (.inr (.inr (.inl ⟨h, by rw [seqArm_of_off h, seqOffArm_seqState]⟩)))
  · exact .inr (.inr (.inr (.inr ⟨h, by rw [seqArm_of_unrecognized h, State.rd_wr_self]⟩)))

/-- Settles O28: the arms' changes; the latch rule leaves SEQ_STATE. -/
theorem sequencerTransitions : Obligations.SequencerTransitions := by
  intro s t hexec
  obtain ⟨-, rfl⟩ := exec_next hexec
  have state : ((effect .seqTick s).withResult (resultOf .seqTick s)).rd seqState = (seqArm s).rd seqState :=
    seqTicked_rd_ne s (by decide)
  rw [state]
  exact seqArm_transitions s

end Sys2Proof.Machine

/-! The enable outputs are raised in ON only (spec/44_tmctrl.md R268). -/

namespace Sys2Proof.Machine

/-- The sequencer state is one of the four, and the enable outputs are raised in ON only (R268). -/
def sequencerSafe (s : State) : Prop := knownSeqState s ∧ enablesOnlyInOn s

/-- The condition depends on SEQ_STATE and SEQ_OUT only. -/
theorem sequencerSafe_congr {s t : State} (hstate : t.rd seqState = s.rd seqState) (hout : t.rd seqOut = s.rd seqOut)
    (h : sequencerSafe s) : sequencerSafe t := by
  simp only [sequencerSafe, knownSeqState, enablesOnlyInOn, enableOutputs, hstate, hout]
  exact h

theorem sequencerSafe_aboutWords : AboutWordsOf .tmctrl sequencerSafe := fun _ _ _ _ hrd =>
  sequencerSafe_congr (hrd _ (ownerOf_tmctrl _ (by decide))) (hrd _ (ownerOf_tmctrl _ (by decide)))

/-- SEQ_TICK leaves a state of R40, whatever it found (R268). -/
theorem seqArm_knownSeqState (s : State) : knownSeqState (seqArm s) := by
  unfold knownSeqState
  rcases seqArm_transitions s with ⟨-, h | h⟩ | ⟨-, h | h⟩ | ⟨-, h | h⟩ | ⟨-, h⟩ | ⟨-, h⟩ <;> rw [h] <;> decide

/-- SEQ_TICK raises an enable only in ON, and lowers all four as it leaves ON (R262 to R266). -/
theorem seqArm_enablesOnlyInOn {s : State} (h : sequencerSafe s) : enablesOnlyInOn (seqArm s) := by
  obtain ⟨hknown, hs⟩ := h
  intro hnot
  rcases seqState_cases s with hstate | hstate | hstate | hstate | hstate
  · rw [seqArm_of_init hstate]
    exact (seqOut_of_enablesLowered (seqInitArm_seqOut s)).1
  · rw [seqArm_of_idle hstate]
    have hdown : enableOutputs s = 0 := hs (by rw [hstate]; decide)
    refine enableOutputs_eq_zero _ fun j hj => ?_
    rw [seqIdleArm_seqOut_of_not_clear _ s (by omega), enableOutputs_bit hdown hj]
  · rw [seqArm_of_on hstate, seqOnArm_seqState] at hnot
    cases hh : healthy s
    · rw [seqArm_of_on hstate, hh]
      exact (seqOut_of_enablesLowered (seqOnArm_seqOut_unhealthy s)).1
    · rw [hh] at hnot
      exact absurd hstate hnot
  · rw [seqArm_of_off hstate]
    exact (seqOut_of_enablesLowered (seqOffArm_seqOut s)).1
  · exact absurd hknown (Nat.not_lt.mpr hstate)

/-- Every conforming operation keeps the enable outputs raised in ON only (R23, R268). -/
theorem effect_sequencerSafe (i : Instr) {s : State} (hc : s.cfg.wf = true) (hl : layoutsConform s.cfg = true)
    (ho : opConforms s i = true) (hi : Instr.wf s.cfg i = true) (h : sequencerSafe s) : sequencerSafe (effect i s) := by
  have about := sequencerSafe_aboutWords
  by_cases hmay : mayWrite i .tmctrl = false
  · exact about.keeps_effect hc hl ho hi hmay h
  · cases i <;> simp [mayWrite] at hmay
    case reset =>
      obtain ⟨-, -, hknown, henables, -⟩ := resetMeetsTheInvariants s.cfg hc
      exact about.keeps_reset (by decide) hc ⟨hknown, henables⟩
    case gpioTick =>
      have word : ∀ a, a = seqState ∨ a = seqOut → (effect .gpioTick s).rd a = s.rd a := by
        rintro a (rfl | rfl) <;>
          rw [effect, State.rd_latchUpdate_ne _ (by decide), debounce_rd_ne _ _ (by decide) (by decide),
            debounce_rd_ne _ _ (by decide) (by decide), debounce_rd_ne _ _ (by decide) (by decide)]
      exact sequencerSafe_congr (word _ (.inl rfl)) (word _ (.inr rfl)) h
    case seqTick =>
      exact about.keeps_latchUpdate (by decide) hc (seqArm_rteOnly s) ⟨seqArm_knownSeqState s, seqArm_enablesOnlyInOn h⟩

/-- Settles O27: only RESET, GPIO_TICK and SEQ_TICK may write the sequencer's words, and each keeps the condition
(which has the name `enablesOnlyInOn`). -/
theorem enablesOnlyInOn_of_step : Obligations.EnablesOnlyInOn := by
  intro s t hco h hstep
  refine step_keeps_conforming (Inv := sequencerSafe) (fun _ _ hu => hu) (fun i u v hc hl ho hu hexec => ?_)
    hco h hstep
  obtain ⟨hi, rfl⟩ := exec_next hexec
  exact effect_sequencerSafe i hc hl ho hi hu

end Sys2Proof.Machine

/-! GPIO_TICK, and a run of them (spec/44_tmctrl.md R252, R253). -/

namespace Sys2Proof.Machine

/-- What the debounce of a signal reads is the same in both states: the thresholds, and the signal's raw input,
debounced value and counter (R252). -/
structure AgreeSig (g : Sig) (s t : State) : Prop where
  cfg : t.cfg = s.cfg
  raw : t.bit gpioRaw g.index = s.bit gpioRaw g.index
  db : t.bit gpioDb g.index = s.bit gpioDb g.index
  cnt : t.rdNat (gpioCnt g) = s.rdNat (gpioCnt g)

theorem AgreeSig.trans {g : Sig} {s t u : State} (h : AgreeSig g s t) (k : AgreeSig g t u) : AgreeSig g s u :=
  ⟨k.cfg.trans h.cfg, k.raw.trans h.raw, k.db.trans h.db, k.cnt.trans h.cnt⟩

theorem debounce_gpioRaw (g : Sig) (s : State) (n : Nat) : (debounce g s).bit gpioRaw n = s.bit gpioRaw n := by
  obtain ⟨-, hraw, -⟩ := gpioCnt_ne g
  rw [State.bit, debounce_rd_ne g s (by decide) hraw.symm, State.bit]

/-- The debounce of one signal is nothing to another. -/
theorem debounce_agreeSig_of_ne {g k : Sig} (h : k ≠ g) (s : State) : AgreeSig k s (debounce g s) where
  cfg := (debounce_rteOnly g s).cfg
  raw := debounce_gpioRaw g s _
  db := by rw [debounce_db, if_neg fun e => h (Sig.index_inj.mp e.1)]
  cnt := by rw [State.rdNat, debounce_rd_ne g s (gpioCnt_ne k).1 (mt gpioCnt_inj.mp h), State.rdNat]

/-- The debounce of a signal reads that signal's words only. -/
theorem debounce_agreeSig {g : Sig} {s t : State} (h : AgreeSig g s t) : AgreeSig g (debounce g s) (debounce g t) where
  cfg := by rw [(debounce_rteOnly g t).cfg, (debounce_rteOnly g s).cfg, h.cfg]
  raw := by rw [debounce_gpioRaw, debounce_gpioRaw, h.raw]
  db := by rw [debounce_db, debounce_db, h.cfg, h.raw, h.db, h.cnt]
  cnt := by rw [debounce_cnt, debounce_cnt, h.cfg, h.raw, h.db, h.cnt]

/-- GPIO_TICK's own writes, the latch rule still to come (R252). -/
def gpioDebounced (s : State) : State := debounce .bulk (debounce .swen (debounce .halt s))

theorem exec_gpioTick (s : State) : exec .gpioTick s = .next ((latchUpdate (gpioDebounced s)).withResult .none) := rfl

theorem gpioDebounced_rteOnly (s : State) : RteOnly s (gpioDebounced s) :=
  ((debounce_rteOnly .halt s).trans (debounce_rteOnly .swen _)).trans (debounce_rteOnly .bulk _)

theorem gpioDebounced_rd_ne (s : State) {a : Addr} (hdb : a ≠ gpioDb) (hcnt : ∀ g, a ≠ gpioCnt g) :
    (gpioDebounced s).rd a = s.rd a := by
  rw [gpioDebounced, debounce_rd_ne _ _ hdb (hcnt _), debounce_rd_ne _ _ hdb (hcnt _), debounce_rd_ne _ _ hdb (hcnt _)]

/-- GPIO_TICK does to each signal what the debounce of that signal alone does (R252). -/
theorem gpioDebounced_agreeSig (s : State) (g : Sig) : AgreeSig g (debounce g s) (gpioDebounced s) := by
  cases g with
  | halt =>
    exact (debounce_agreeSig_of_ne (g := .swen) (by decide) _).trans
      (debounce_agreeSig_of_ne (g := .bulk) (by decide) _)
  | swen =>
    exact (debounce_agreeSig (debounce_agreeSig_of_ne (g := .halt) (by decide) s)).trans
      (debounce_agreeSig_of_ne (g := .bulk) (by decide) _)
  | bulk =>
    exact debounce_agreeSig ((debounce_agreeSig_of_ne (g := .halt) (by decide) s).trans
      (debounce_agreeSig_of_ne (g := .swen) (by decide) _))

/-- GPIO_DB outside the three signals stays (R252). -/
theorem gpioDebounced_db_ne (s : State) {n : Nat} (h : ∀ g : Sig, n ≠ g.index) :
    (gpioDebounced s).bit gpioDb n = s.bit gpioDb n := by
  have one : ∀ (g : Sig) (u : State), (debounce g u).bit gpioDb n = u.bit gpioDb n := fun g u => by
    rw [debounce_db, if_neg fun e => h g e.1]
  rw [gpioDebounced, one, one, one]

/-- Settles O20: each signal by its own debounce, the rest of GPIO_DB and every other word as before. -/
theorem gpioTickDebounces : Obligations.GpioTickDebounces := by
  intro s
  refine ⟨_, exec_gpioTick s, rfl, ((gpioDebounced_rteOnly s).trans (latchUpdate_rteOnly _)).outsideKept _,
    fun g => ?_, fun n hn => ?_, ?_, ?_⟩
  · have agree := gpioDebounced_agreeSig s g
    obtain ⟨-, -, hlat, -⟩ := gpioCnt_ne g
    rw [bit_latched_ne _ _ (by decide), agree.db, debounce_db, rdNat_latched_ne _ _ hlat, agree.cnt,
      debounce_cnt, debounceThr_eq]
    simp only [true_and, and_self]
  · simp only [List.mem_cons, List.not_mem_nil, or_false, not_or] at hn
    obtain ⟨hhalt, hswen, hbulk⟩ := hn
    rw [bit_latched_ne _ _ (by decide), gpioDebounced_db_ne s (by rintro ⟨⟩ <;> assumption)]
  · refine latchedFrom_latched _ ?_
    rintro a (rfl | rfl | rfl) <;> exact gpioDebounced_rd_ne s (by decide) (by rintro ⟨⟩ <;> decide)
  · refine wordsKept_latched .none (l := [gpioDb, gpioCnt .halt, gpioCnt .swen, gpioCnt .bulk]) fun a ha => ?_
    exact gpioDebounced_rd_ne s (ha _ (by simp)) fun g => ha _ (by cases g <;> simp)

/-- GPIO_TICK where a raw input disagrees: the disagreement is counted, and at the threshold the level flips (R252). -/
theorem gpioTick_disagreeing {s : State} {g : Sig} (h : s.bit gpioRaw g.index ≠ s.bit gpioDb g.index) :
    ∃ t, exec .gpioTick s = .next t ∧ t.cfg = s.cfg ∧ t.bit gpioRaw g.index = s.bit gpioRaw g.index
      ∧ t.bit gpioDb g.index = (if debounceThr s.cfg g (s.bit gpioDb g.index) ≤ s.rdNat (gpioCnt g) + 1 then
          s.bit gpioRaw g.index else s.bit gpioDb g.index)
      ∧ t.rdNat (gpioCnt g) = (if debounceThr s.cfg g (s.bit gpioDb g.index) ≤ s.rdNat (gpioCnt g) + 1 then 0
          else s.rdNat (gpioCnt g) + 1) := by
  obtain ⟨t, hexec, -, ⟨hcfg, -⟩, hsig, -, -, hwords⟩ := gpioTickDebounces s
  obtain ⟨hdb, hcnt⟩ := hsig g
  refine ⟨t, hexec, hcfg, ?_, ?_, ?_⟩
  · rw [State.bit, hwords gpioRaw (by decide), State.bit]
  · rw [hdb, debounceThr_eq]
    simp only [h, ne_eq, not_false_eq_true, true_and]
  · rw [hcnt, debounceThr_eq, if_pos h]

/-- Below the threshold a run of GPIO_TICKs counts the disagreement and leaves the level (R253). -/
theorem gpioTicks_below {s : State} {g : Sig} (h : s.bit gpioRaw g.index ≠ s.bit gpioDb g.index)
    (hzero : s.rdNat (gpioCnt g) = 0) {n : Nat} (hn : n < debounceThr s.cfg g (s.bit gpioDb g.index)) :
    ∃ t, perform (repeatOp n .gpioTick) s = .next t ∧ t.cfg = s.cfg
      ∧ t.bit gpioRaw g.index = s.bit gpioRaw g.index ∧ t.bit gpioDb g.index = s.bit gpioDb g.index
      ∧ t.rdNat (gpioCnt g) = n := by
  induction n with
  | zero => exact ⟨s, rfl, rfl, rfl, rfl, hzero⟩
  | succ n ih =>
    obtain ⟨t, hrun, tcfg, traw, tdb, tcnt⟩ := ih (Nat.lt_of_succ_lt hn)
    obtain ⟨u, hexec, ucfg, uraw, udb, ucnt⟩ := gpioTick_disagreeing (s := t) (g := g) (by rwa [traw, tdb])
    rw [tcfg, tdb, tcnt, if_neg (Nat.not_le.mpr hn)] at udb ucnt
    refine ⟨u, ?_, ucfg.trans tcfg, uraw.trans traw, udb, ucnt⟩
    rw [repeatOp_succ]
    exact perform_snoc hrun hexec

/-- Settles O21: the ticks before the last count, and the last, at the threshold, flips the level. -/
theorem debounceFlipsAtTheThreshold : Obligations.DebounceFlipsAtTheThreshold := by
  intro s g n h hzero thr hpos hn
  have hthr : debounceThr s.cfg g (s.bit gpioDb g.index) = thr := debounceThr_eq ..
  by_cases hlt : n < thr
  · obtain ⟨t, hrun, -, -, tdb, tcnt⟩ := gpioTicks_below h hzero (hthr ▸ hlt)
    rw [if_pos hlt, if_pos hlt]
    exact ⟨t, hrun, tdb, tcnt⟩
  · obtain ⟨m, rfl⟩ : ∃ m, n = m + 1 := ⟨n - 1, by omega⟩
    obtain ⟨t, hrun, tcfg, traw, tdb, tcnt⟩ := gpioTicks_below (n := m) h hzero (by omega)
    obtain ⟨u, hexec, -, -, udb, ucnt⟩ := gpioTick_disagreeing (s := t) (g := g) (by rwa [traw, tdb])
    rw [tcfg, tdb, tcnt, hthr, if_pos (Nat.not_lt.mp hlt)] at udb ucnt
    rw [if_neg hlt, if_neg hlt]
    refine ⟨u, ?_, udb.trans traw, ucnt⟩
    rw [repeatOp_succ]
    exact perform_snoc hrun hexec

end Sys2Proof.Machine

/-! The flags RX_PEND and TX_BUSY of FRM_STAT: no operation but the framer's own raises one (spec/10_state.md R62,
spec/40_rte_access.md R143). -/

namespace Sys2Proof.Machine

/-- FRM_STAT after a write the environment is expected to make: the flags below the sticky bits stay (R143). -/
theorem wr_frm_bit {s : State} {a : Addr} {d : Word} (hc : s.cfg.wf = true) (hw : writeConforms s a d = true)
    (p : Peer) {n : Nat} (hn : n < 8) : (s.wr a d).bit (frmStat p) n = s.bit (frmStat p) n := by
  obtain ⟨-, -, hfrm⟩ := ownerOf_com (Config.nfan_bounds hc).2
  by_cases ha : frmStat p = a
  · subst ha
    have hpeer : frmStat p = frmStat .pri ∨ frmStat p = frmStat .sec := by cases p <;> simp
    have hclears : clearsOnly 0x1F00 (s.rd (frmStat p)) d = true := by
      simpa [writeConforms, hfrm, hpeer, (comStat_ne_frmStat p).symm] using hw
    have low : ∀ j, j < 8 → (0x1F00 : Word).getLsbD j = false := by decide
    rw [State.bit_wr, if_pos rfl]
    exact getLsbD_of_clearsOnly hclears (by omega) (low n hn)
  · rw [State.bit_wr, if_neg ha]

/-- RX_DRAIN under conforming layouts raises no flag of FRM_STAT, on its own link or on the other (R181, R335). -/
theorem rxDrain_frm_bit {s : State} (hc : s.cfg.wf = true) (hl : layoutsConform s.cfg = true) (p q : Peer) (n : Nat)
    (h : (effect (.rxDrain p) s).bit (frmStat q) n = true) : s.bit (frmStat q) n = true := by
  obtain ⟨-, -, hfrm⟩ := ownerOf_com (Config.nfan_bounds hc).2
  have unnamed : ∀ bc, ¬ layoutNames (rxLayoutOf s.cfg p bc) (frmStat q) := fun bc hnamed =>
    absurd ((ownerOf_named hl hnamed).symm.trans (hfrm q)) (by decide)
  simp only [effect] at h
  split at h
  · have fields : ∀ bc, (drainFields p 1 (rxLayoutOf s.cfg p bc) s).bit (frmStat q) n = s.bit (frmStat q) n := by
      intro bc
      rw [State.bit, drainFields_rd_ne _ _ _ _ (comStat_ne_frmStat q).symm (unnamed bc), State.bit]
    by_cases hqp : q = p
    · subst hqp
      obtain ⟨-, -, hbits, -⟩ := drainFinish_facts q (drainFields q 1 (rxLayoutOf s.cfg q (s.link q).rxcBc) s)
      rw [hbits, fields] at h
      split at h
      · cases h
      · exact h
    · rw [State.bit, drainFinish_rd_ne p _ (frmStat_ne_liveCnt q p) (comStat_ne_frmStat q).symm
        (mt frmStat_inj.mp hqp) (frmStat_ne_fltLat q), ← State.bit, fields] at h
      exact h
  · exact h

/-- An operation that may not write the framer's words leaves the hidden state of both links (R20, R23). -/
theorem effect_link_of_owner {i : Instr} (s : State) (h : mayWrite i .framer = false) (p : Peer) :
    (effect i s).link p = s.link p := by
  obtain rfl | hw | ⟨q, rfl | rfl | rfl | ⟨b, rfl⟩⟩ := effect_cases i s
  · cases h
  · exact hw.link p
  all_goals cases h

end Sys2Proof.Machine

/-! Every buffer byte that may be read next has been written since reset (spec/70_reset_and_hazards.md R322). -/

namespace Sys2Proof.Machine

/-- The condition depends on the configuration, the link and its FRM_STAT only. -/
theorem readsWrittenBytes_congr {s t : State} {p : Peer} (hcfg : t.cfg = s.cfg) (hlink : t.link p = s.link p)
    (hfrm : t.rd (frmStat p) = s.rd (frmStat p)) (h : readsWrittenBytes s p) : readsWrittenBytes t p :=
  have bit : ∀ n, t.bit (frmStat p) n = true → s.bit (frmStat p) n = true := fun n => by
    rw [State.bit, hfrm, ← State.bit]; exact id
  readsWrittenBytes_of hcfg hlink (bit _) (bit _) h

/-- The latch rule leaves the links and FRM_STAT (R275). -/
theorem latchUpdate_readsWrittenBytes {s : State} {p : Peer} (h : readsWrittenBytes s p) :
    readsWrittenBytes (latchUpdate s) p :=
  readsWrittenBytes_congr (s := s) rfl (latchUpdate_link s p) (State.rd_latchUpdate_ne s (frmStat_ne_fltLat p)) h

/-- A sticky bit of FRM_STAT says nothing about the buffers (R62). -/
theorem frmSet_readsWrittenBytes {s : State} {p : Peer} {n : Nat} (hn : 8 ≤ n ∧ n < 16)
    (h : readsWrittenBytes s p) : readsWrittenBytes (frmSet p n s) p := by
  have flag : ∀ j, j < 8 → (frmSet p n s).bit (frmStat p) j = true → s.bit (frmStat p) j = true := fun j hj => by
    rw [frmSet_bit _ _ _ hn.2, if_neg (by omega)]; exact id
  exact readsWrittenBytes_of (s := s) rfl (frmSet_link ..) (flag _ (by decide)) (flag _ (by decide)) h

/-- The end of a transmission asks nothing more of TXBUF (R168). -/
theorem frmClear_readsWrittenBytes {s : State} {p : Peer} {n : Nat} (hn : n < 16) (h : readsWrittenBytes s p) :
    readsWrittenBytes (frmClear p n s) p := by
  have flag : ∀ j, (frmClear p n s).bit (frmStat p) j = true → s.bit (frmStat p) j = true := fun j => by
    rw [frmClear_bit _ _ _ hn]; split
    · exact nofun
    · exact id
  exact readsWrittenBytes_of (s := s) rfl (frmClear_link ..) (flag _) (flag _) h

/-- RESET clears every flag and both receive cursors, so nothing is due to be read (R140). -/
theorem resetBlock_readsWrittenBytes (s : State) (p : Peer) : readsWrittenBytes (resetBlock s) p :=
  readsWrittenBytes_congr (s := State.resetWith s.cfg) rfl ((resetBlock_link s p).trans (link_resetWith s.cfg p).symm)
    rfl (readsWrittenBytes_resetWith s.cfg p)

/-- A frame boundary leaves no part of a frame in RXA to be read, and RXC and TXBUF as they were (R162). -/
theorem rxBoundary_readsWrittenBytes {s : State} {p : Peer} (h : readsWrittenBytes s p) :
    readsWrittenBytes (rxBoundary p s) p := by
  obtain ⟨-, -, hrxc, htxbuf⟩ := h
  unfold readsWrittenBytes
  rw [rxBoundary_link, (rxBoundary_linkOnly p s).cfg, rxBoundary_bit, rxBoundary_bit, if_neg (by decide),
    if_neg (by decide)]
  exact ⟨nofun, fun hcnt => absurd rfl hcnt, hrxc, htxbuf⟩

/-- A frame that is begun is wholly written to TXBUF (R190). -/
theorem txBegin_readsWrittenBytes {s : State} {p : Peer} (hc : s.cfg.wf = true) (h : readsWrittenBytes s p) :
    readsWrittenBytes (txBegin p s) p := by
  obtain ⟨hrxa, hexp, hrxc, -⟩ := h
  have hfits : (outgoingFrame s p).length ≤ bufMax := (outgoingFrame_length s p).trans_le (flen_tx_le hc p)
  unfold readsWrittenBytes
  rw [txBegin_link, (txBegin_linkOnly p s).cfg, txBegin_bit, if_neg (by decide)]
  exact ⟨hrxa, hexp, hrxc, fun _ _ hk => written_bufWriteBytes hfits hk⟩

/-- Handing over a byte writes no buffer and raises no flag (R168). -/
theorem txAdvance_readsWrittenBytes {s : State} {p : Peer} (h : readsWrittenBytes s p) :
    readsWrittenBytes (txAdvance p s) p := by
  obtain ⟨hrxa, hexp, hrxc, htxbuf⟩ := h
  have flag : ∀ j, (txAdvance p s).bit (frmStat p) j = true → s.bit (frmStat p) j = true := fun j => by
    rw [txAdvance_bit]; split
    · exact nofun
    · exact id
  unfold readsWrittenBytes
  rw [txAdvance_link, (txAdvance_linkOnly p s).cfg]
  exact ⟨hrxa, hexp, fun hpend => hrxc (flag _ hpend), fun hbusy => htxbuf (flag _ hbusy)⟩

/-- The framer's operations keep what their own link may read next written (R322). -/
theorem effect_readsWrittenBytes_own {i : Instr} {s : State} {p : Peer} (hc : s.cfg.wf = true)
    (hi : i = .rxIdle p ∨ i = .txStart p ∨ i = .txByte p ∨ ∃ b, i = .rxByte p b)
    (hcur : cursorsInRange (s.link p)) (h : readsWrittenBytes s p) : readsWrittenBytes (effect i s) p := by
  obtain rfl | rfl | rfl | ⟨b, rfl⟩ := hi <;> simp only [effect]
  · exact latchUpdate_readsWrittenBytes (rxBoundary_readsWrittenBytes h)
  · refine latchUpdate_readsWrittenBytes ?_
    split
    · exact frmSet_readsWrittenBytes (by decide) h
    · exact txBegin_readsWrittenBytes hc h
  · split
    · refine latchUpdate_readsWrittenBytes ?_
      split
      · exact frmClear_readsWrittenBytes (by decide) h
      · exact txAdvance_readsWrittenBytes h
    · exact h
  · split
    · exact h
    · exact latchUpdate_readsWrittenBytes (rxAccept_readsWrittenBytes hcur h)

/-- The framer's operations keep what either link may read next written: the other link and its FRM_STAT stay
(R150, R322). -/
theorem framer_readsWrittenBytes {i : Instr} {s : State} {p : Peer} (hc : s.cfg.wf = true)
    (hi : i = .rxIdle p ∨ i = .txStart p ∨ i = .txByte p ∨ ∃ b, i = .rxByte p b)
    (hcur : ∀ q, cursorsInRange (s.link q)) (h : ∀ q, readsWrittenBytes s q) (q : Peer) :
    readsWrittenBytes (effect i s) q := by
  by_cases hqp : q = p
  · subst hqp
    exact effect_readsWrittenBytes_own hc hi (hcur q) (h q)
  · have touch := effect_linkTouch s hi
    exact readsWrittenBytes_congr touch.cfg (touch.link q hqp)
      (touch.rd _ (mt frmStat_inj.mp hqp) (frmStat_ne_fltLat q)) (h q)

/-- Every conforming operation keeps what may be read next written: an operation that may not write the framer's
words leaves the links and FRM_STAT, REG_WR and RX_DRAIN raise no flag, and RESET clears them (R23, R322). -/
theorem effect_readsWrittenBytes (i : Instr) {s : State} (hc : s.cfg.wf = true) (hl : layoutsConform s.cfg = true)
    (ho : opConforms s i = true) (hi : Instr.wf s.cfg i = true) (hcur : ∀ p, cursorsInRange (s.link p))
    (h : ∀ p, readsWrittenBytes s p) (q : Peer) : readsWrittenBytes (effect i s) q := by
  obtain ⟨-, -, hfrm⟩ := ownerOf_com (Config.nfan_bounds hc).2
  by_cases hmay : mayWrite i .framer = false
  · exact readsWrittenBytes_congr (effect_cfg_port i s).1 (effect_link_of_owner s hmay q)
      (effect_rd_of_owner i s hc hl ho hi (by rw [hfrm]; exact hmay)) (h q)
  · cases i <;> simp [mayWrite] at hmay
    case reset => exact latchUpdate_readsWrittenBytes (resetBlock_readsWrittenBytes s q)
    case regWr a d =>
      have flag : ∀ n, n < 8 → (s.wr a d).bit (frmStat q) n = true → s.bit (frmStat q) n = true := fun n hn => by
        rw [wr_frm_bit hc ho q hn]; exact id
      exact latchUpdate_readsWrittenBytes
        (readsWrittenBytes_of (s := s) rfl (State.wr_link ..) (flag _ (by decide)) (flag _ (by decide)) (h q))
    case rxDrain p =>
      have run : RteOnly s (effect (.rxDrain p) s) :=
        RteOnly.ite ((drainFields_rteOnly ..).trans (drainFinish_rteOnly ..)) (RteOnly.refl s)
      exact readsWrittenBytes_of run.cfg (run.link q) (rxDrain_frm_bit hc hl p q _) (rxDrain_frm_bit hc hl p q _) (h q)
    case rxByte p b => exact framer_readsWrittenBytes (p := p) hc (by simp) hcur h q
    case rxIdle p => exact framer_readsWrittenBytes (p := p) hc (by simp) hcur h q
    case txStart p => exact framer_readsWrittenBytes (p := p) hc (by simp) hcur h q
    case txByte p => exact framer_readsWrittenBytes (p := p) hc (by simp) hcur h q

/-- The cursors of both links are in their ranges, and what may be read next has been written (R70, R72, R322). -/
def buffersSafe (s : State) : Prop := ∀ p, cursorsInRange (s.link p) ∧ readsWrittenBytes s p

/-- The condition depends on the configuration, the links and the words only. -/
theorem buffersSafe_congr {s t : State} (hcfg : t.cfg = s.cfg) (hlink : ∀ p, t.link p = s.link p)
    (hrd : ∀ a, t.rd a = s.rd a) (h : buffersSafe s) : buffersSafe t := by
  intro p
  obtain ⟨hcur, hwritten⟩ := h p
  rw [hlink p]
  exact ⟨hcur, readsWrittenBytes_congr hcfg (hlink p) (hrd _) hwritten⟩

/-- Every conforming operation keeps both parts of the condition (R70, R72, R322). -/
theorem effect_buffersSafe (i : Instr) {s : State} (hc : s.cfg.wf = true) (hl : layoutsConform s.cfg = true)
    (ho : opConforms s i = true) (hi : Instr.wf s.cfg i = true) (h : buffersSafe s) : buffersSafe (effect i s) := by
  have hcur : ∀ p, cursorsInRange (s.link p) := fun p => (h p).1
  have hwritten : ∀ p, readsWrittenBytes s p := fun p => (h p).2
  exact fun p => ⟨effect_cursorsInRange i hc hcur p, effect_readsWrittenBytes i hc hl ho hi hcur hwritten p⟩

/-- Settles O58: the framer alone raises the flag of a buffer, as it fills the buffer, and the receive cursor passes
written bytes only. -/
theorem onlyWrittenBytesAreRead : Obligations.OnlyWrittenBytesAreRead := by
  intro s t hco h hstep
  have hkeep : buffersSafe t := by
    refine step_keeps_conforming (Inv := buffersSafe)
      (fun u ws => buffersSafe_congr rfl (withPort_link u ws) fun _ => rfl)
      (fun i u v hc hl ho hu hexec => ?_) hco h hstep
    obtain ⟨hi, rfl⟩ := exec_next hexec
    exact buffersSafe_congr rfl (withResult_link _ _) (fun _ => rfl) (effect_buffersSafe i hc hl ho hi hu)
  exact fun p => (hkeep p).2

end Sys2Proof.Machine
